-- ==== Sys2Proof/Word.lean ====
section
/-!
DEFINITION. The word types of CORE (spec/00_scope.md R9, R15, R16; spec/10_state.md R21, R25).
-/

namespace Sys2Proof

/-- Word32: a register, a data word, an address, a cached result (R9). `+`, `-`, `*` are modulo 2^32 (R16). -/
abbrev Word := BitVec 32

/-- One byte of data memory. -/
abbrev Byte := BitVec 8

/-- A register index: 5 bits, 0 to 31 (R25). -/
abbrev RegIdx := BitVec 5

/-- The immediate and offset fields: 16 bits, unsigned (R25). -/
abbrev Imm := BitVec 16

/-- The target field of J: 26 bits, unsigned (R25). -/
abbrev Target := BitVec 26

end Sys2Proof
end

