-- ==== Sys2Proof/Syntax.lean ====
section
/-!
DEFINITION. The instruction set KOSA-17 and the Instruction Record
(spec/00_scope.md R2; spec/10_state.md R24 to R31; spec/49_data_unknown.md R330, R331).
-/

namespace Sys2Proof

/-- The seventeen instructions, one constructor per row of spec/opcode_table.json, each with the operand fields
its class populates (R25). The fields are typed by their widths, so a record with a missing field or a register
index above 31 cannot be written down (R26). In the immediate class `rs` is the register WRITTEN and `rt` the
register READ (R29). -/
inductive Instr where
  | j (target : Target)
  | beq (rs rt : RegIdx) (offset : Imm)
  | bgtz (rs : RegIdx) (offset : Imm)
  | brk
  | sw (base rt : RegIdx) (offset : Imm)
  | lw (base rt : RegIdx) (offset : Imm)
  | add (rd rs rt : RegIdx)
  | sub (rd rs rt : RegIdx)
  | mul (rd rs rt : RegIdx)
  | and (rd rs rt : RegIdx)
  | or (rd rs rt : RegIdx)
  | xor (rd rs rt : RegIdx)
  | nor (rd rs rt : RegIdx)
  | addi (rs rt : RegIdx) (imm : Imm)
  | andi (rs rt : RegIdx) (imm : Imm)
  | ori (rs rt : RegIdx) (imm : Imm)
  | xori (rs rt : RegIdx) (imm : Imm)
deriving DecidableEq, Repr

/-- What a record holds beside its address: one of the seventeen instructions, or one of the two classes that are
no instruction. DATA "marks a raw memory-initializer word" (R330), UNKNOWN "marks an undecodable word" (R331). -/
inductive Body where
  | instr (i : Instr)
  | data (value : Word)
  | unknown
deriving DecidableEq, Repr

/-- The Instruction Record (R24): the decoded, immutable form of one program word. -/
structure Record where
  address : Word
  body : Body
deriving DecidableEq, Repr

/-- A queue entry: a record with its cached result (R30). -/
structure Entry where
  record : Record
  cached : Option Word
deriving DecidableEq, Repr

/-- The five bounded queues (spec/40_queues_and_reservation.md R110). -/
inductive QueueName where
  | preIssue
  | preALU
  | postALU
  | preMEM
  | postMEM
deriving DecidableEq, Repr

/-- The two fetch slots of a cycle (spec/41_fetch.md R142). -/
inductive FetchSlot where
  | one
  | two
deriving DecidableEq, Repr

end Sys2Proof
end

