-- ==== Sys2Proof/Config.lean ====
section
/-!
DEFINITION. What is fixed for the machine (spec/00_scope.md R8 to R10; spec/40_queues_and_reservation.md R110).
The spec leaves no value open to any value (spec/93_implementation_defined.md, end of part 1), so there is no free
value here.
-/

namespace Sys2Proof.Config

/-- `NREGS`: the general registers and the slots of each reservation table (R8). -/
abbrev nregs : Nat := 32

/-- `ISSUE_WIDTH`: at most two instructions issue in a cycle (R8). -/
def issueWidth : Nat := 2

/-- The reference value of `INSTR_BASE` (R10), used by `State.reset` only: PRESUMED, log 3. A loaded machine keeps
the base it was loaded with in its state. -/
def instrBase : Word := 128

end Sys2Proof.Config
end

