-- ==== Sys2Proof/WellFormed.lean ====
section
/-!
DEFINITION. The checks on what enters the machine: a record's address, an instruction record file, a program with
its base address (spec/00_scope.md R10; spec/10_state.md R24, R26, R31; spec/93_implementation_defined.md U22).
The other half of R26 (exactly the fields of the class present, every register index below 32) holds by the types
of `Instr` and needs no check.
-/

namespace Sys2Proof

/-- R24: a record's `address` is word-aligned. -/
def Record.wellFormed (r : Record) : Bool := r.address.toNat % 4 == 0

/-- R31: `IMEM[k].address = base + 4*k`. -/
def addressesFrom : Word → List Record → Bool
  | _, [] => true
  | a, r :: rs => r.address == a && addressesFrom (a + 4#32) rs

/-- R10: `INSTR_BASE mod 4 = 0` and `INSTR_BASE + 4 * NWORDS <= 2^32`. Anything else is outside the domain (U22). -/
def loadable (base : Word) (program : List Word) : Bool :=
  base.toNat % 4 == 0 && decide (base.toNat + 4 * program.length ≤ 2 ^ 32)

end Sys2Proof
end

