-- ==== Sys2Proof/Decode.lean ====
section
/-!
DEFINITION. The parameter `DECODE` with its constraints (spec/00_scope.md R12), the spec's default for it and that
default's encoder (spec/30_encoding.md R84 to R97; log 10).
-/

namespace Sys2Proof

/-- The OPEN parameter `DECODE : (Word32, Address) -> InstructionRecord` (R12): an argument of program load, and of
nothing else. -/
abbrev Decoder := Word → Word → Record

/-- What CORE relies on of its decoder (R12; spec/93_implementation_defined.md U8): it never yields DATA, and the record
it yields for the word at address `a` has the address `a` (spec/10_state.md R31). That it is a pure total function, and
that the record has exactly its class's fields with every register index below 32 (R26), hold by the types (log 13). -/
def wellFormedDecoder (decoder : Decoder) : Prop :=
  ∀ w a : Word, (decoder w a).address = a ∧ ∀ v, (decoder w a).body ≠ .data v

/-- Why a word is no instruction: the four patterns of R96. -/
inductive Undecodable where
  /-- `w[31:29]` in 0b001 to 0b101. -/
  | category (w : BitVec 3)
  /-- Category 1 with `w[28:26]` in 0b001, 0b011. -/
  | opcode1 (w : BitVec 3)
  /-- Category 2 with `w[18:16]` = 0b111. -/
  | opcode2 (w : BitVec 3)
  /-- Category 3 with `w[18:16]` in 0b100 to 0b111. -/
  | opcode3 (w : BitVec 3)
deriving DecidableEq, Repr

/-- `w[hi:lo]` (spec/00_scope.md R15), the field of `n` bits whose lowest is bit `lo`. -/
def field (w : Word) (lo n : Nat) : BitVec n := w.extractLsb' lo n

/-- Category 1: control transfer and memory (R86 to R92). -/
def decodeCategory1 (w : Word) : Except Undecodable Instr :=
  match field w 26 3 with
  | 0b000#3 => .ok (.j (field w 0 26))
  | 0b010#3 => .ok (.beq (field w 21 5) (field w 16 5) (field w 0 16))
  | 0b100#3 => .ok (.bgtz (field w 21 5) (field w 0 16))
  | 0b101#3 => .ok .brk
  | 0b110#3 => .ok (.sw (field w 21 5) (field w 16 5) (field w 0 16))
  | 0b111#3 => .ok (.lw (field w 21 5) (field w 16 5) (field w 0 16))
  | op => .error (.opcode1 op)

/-- Category 2: register-register arithmetic (R93). -/
def decodeCategory2 (w : Word) : Except Undecodable Instr :=
  let rs := field w 24 5
  let rt := field w 19 5
  let rd := field w 11 5
  match field w 16 3 with
  | 0b000#3 => .ok (.add rd rs rt)
  | 0b001#3 => .ok (.sub rd rs rt)
  | 0b010#3 => .ok (.mul rd rs rt)
  | 0b011#3 => .ok (.and rd rs rt)
  | 0b100#3 => .ok (.or rd rs rt)
  | 0b101#3 => .ok (.xor rd rs rt)
  | 0b110#3 => .ok (.nor rd rs rt)
  | op => .error (.opcode2 op)

/-- Category 3: register-immediate arithmetic (R94). -/
def decodeCategory3 (w : Word) : Except Undecodable Instr :=
  let rs := field w 24 5
  let rt := field w 19 5
  let imm := field w 0 16
  match field w 16 3 with
  | 0b000#3 => .ok (.addi rs rt imm)
  | 0b001#3 => .ok (.andi rs rt imm)
  | 0b010#3 => .ok (.ori rs rt imm)
  | 0b011#3 => .ok (.xori rs rt imm)
  | op => .error (.opcode3 op)

/-- The category is selected by `w[31:29]` (R85). -/
def decode (w : Word) : Except Undecodable Instr :=
  match field w 29 3 with
  | 0b000#3 => decodeCategory1 w
  | 0b110#3 => decodeCategory2 w
  | 0b111#3 => decodeCategory3 w
  | cat => .error (.category cat)

/-- The default `DECODE(w, a)` (R84): the record of word `w` at address `a`. A word no rule matches is UNKNOWN (R83,
R96). It never yields DATA (R82). -/
def decodeRecord (w a : Word) : Record :=
  match decode w with
  | .ok i => ⟨a, .instr i⟩
  | .error _ => ⟨a, .unknown⟩

/-- The instruction the decoder reads from the table's bits `w` of a row of `nbits` bits. One word is one
instruction (R80), so the bits above `nbits` are 0 and nothing lies beyond bit 31. -/
def decodeTableWord (nbits w : Nat) : Option Instr :=
  match decode (BitVec.ofNat 32 (w % 2 ^ nbits)) with
  | .ok i => some i
  | .error _ => none

/-- Category 1 with two register fields and an offset (R88, R91, R92). -/
def encodeRegRegOffset (op : BitVec 3) (r25 r20 : RegIdx) (offset : Imm) : Word :=
  0b000#3 ++ op ++ r25 ++ r20 ++ offset

/-- Category 2 (R93), the ignored bits `w[10:0]` written as zero (R97). -/
def encodeRegister (op : BitVec 3) (rd rs rt : RegIdx) : Word :=
  0b110#3 ++ rs ++ rt ++ op ++ rd ++ 0#11

/-- Category 3 (R94). -/
def encodeImmediate (op : BitVec 3) (rs rt : RegIdx) (imm : Imm) : Word :=
  0b111#3 ++ rs ++ rt ++ op ++ imm

/-- The word of an instruction, the ignored bits zero but for BREAK's canonical low bits (R90, R97). -/
def encode : Instr → Word
  | .j target => 0b000#3 ++ 0b000#3 ++ target
  | .beq rs rt offset => encodeRegRegOffset 0b010#3 rs rt offset
  | .bgtz rs offset => encodeRegRegOffset 0b100#3 rs 0#5 offset
  | .brk => 0x1400000D#32
  | .sw base rt offset => encodeRegRegOffset 0b110#3 base rt offset
  | .lw base rt offset => encodeRegRegOffset 0b111#3 base rt offset
  | .add rd rs rt => encodeRegister 0b000#3 rd rs rt
  | .sub rd rs rt => encodeRegister 0b001#3 rd rs rt
  | .mul rd rs rt => encodeRegister 0b010#3 rd rs rt
  | .and rd rs rt => encodeRegister 0b011#3 rd rs rt
  | .or rd rs rt => encodeRegister 0b100#3 rd rs rt
  | .xor rd rs rt => encodeRegister 0b101#3 rd rs rt
  | .nor rd rs rt => encodeRegister 0b110#3 rd rs rt
  | .addi rs rt imm => encodeImmediate 0b000#3 rs rt imm
  | .andi rs rt imm => encodeImmediate 0b001#3 rs rt imm
  | .ori rs rt imm => encodeImmediate 0b010#3 rs rt imm
  | .xori rs rt imm => encodeImmediate 0b011#3 rs rt imm

end Sys2Proof
end

