-- ==== Sys2Proof/Machine/State.lean ====
section
/-!
DEFINITION. The state of CORE (spec/10_state.md R20 to R48), the reasons a run is aborted (spec/60_exceptions.md
R345), and the state after reset (spec/70_reset_and_hazards.md R380).
-/

namespace Sys2Proof.Machine

/-- The fatal faults (spec/60_exceptions.md R345). Each is TAKEN as R350 describes it: the machine goes to a next
state with `status = ABORTED(f)` (log 8). No meaning and no step answers `Host.Outcome.fault`. -/
inductive Fault where
  /-- Code 1. Raised by `push`, in any stage, on a queue at its capacity (R341). Safe: the spec makes it fatal. -/
  | queueOverflow (q : QueueName)
  /-- Code 2. Raised by ALU, MEM, Writeback or Fetch on a record of `address` a that the stage cannot handle (R342).
  Safe: the spec makes it fatal. -/
  | operandAbsent (a : Word)
  /-- Code 3. Raised by MEM on a data access at `ea` that is not `ValidData` (R343). Safe: the spec makes it fatal. -/
  | dataAddressFault (ea : Word)
deriving DecidableEq, Repr

/-- Why the model has no answer. -/
inductive Refusal where
  /-- Raised by `exec` for an instruction that has no meaning yet. Safe: nothing can be proved of it. No arm is one. -/
  | notModelled (mnemonic : String)
deriving DecidableEq, Repr

/-- The non-fatal notice of Fetch (spec/60_exceptions.md R344, code 16). -/
inductive Notice where
  | unknownOpcode (a : Word)
deriving DecidableEq, Repr

/-- The orchestrator's state (spec/10_state.md R44). -/
inductive Status where
  | running
  | terminated
  | aborted (f : Fault)
deriving DecidableEq, Repr

/-- A bounded queue (spec/10_state.md R37): its entries, head first, and the latch `last_full`. -/
structure BoundedQueue where
  entries : List Entry
  lastFull : Bool
deriving DecidableEq, Repr

/-- What a stage controller asks of an instruction. `fetch` carries the slot and the local `first_dest` of the Fetch
stage (spec/41_fetch.md R142); `mem` and `writeback` carry the cached result of the entry taken from the queue. -/
inductive Phase where
  | fetch (slot : FetchSlot) (firstDest : Option RegIdx)
  | issue
  | alu
  | mem (cached : Option Word)
  | writeback (cached : Option Word)
deriving DecidableEq, Repr

/-- The record a stage is running right now: its address and what the stage asks of it. The MODEL's own (log 6). -/
structure Activation where
  address : Word
  phase : Phase
deriving DecidableEq, Repr

/-- The rest value of `active`: what the next fetch would run first. -/
def Activation.atRest (pc : Word) : Activation := ⟨pc, .fetch .one none⟩

/-- Data memory: bytes by address, in one canonical form (log 1). -/
abbrev Memory := List Host.Cell

/-- What a byte of data memory that is not listed reads as (log 2). -/
def Memory.unlisted : Byte := 0

/-- The canonical form: addresses strictly rising, no entry equal to what an unlisted address reads as. -/
def Memory.wf : Memory → Bool
  | [] => true
  | [(_, b)] => b != Memory.unlisted
  | (a, b) :: (a', b') :: m => b != Memory.unlisted && decide (a < a') && Memory.wf ((a', b') :: m)

/-- A Register Reservation Table: 32 slots, each `none` (free) or the owner's address (spec/10_state.md R38). -/
abbrev ReservationTable := Vector (Option Word) Config.nregs

/-- The complete state (spec/10_state.md R20), with the parameter `INSTR_BASE` (log 3) and the model's own fields
`notices` (log 7) and `active` (log 6). -/
structure State where
  instrBase : Word
  pc : Word
  x : Vector Word Config.nregs
  mem : Memory
  imem : List Record
  preIssue : BoundedQueue
  preALU : BoundedQueue
  postALU : BoundedQueue
  preMEM : BoundedQueue
  postMEM : BoundedQueue
  lastPreIssue : List Record
  rrtc : ReservationTable
  rrtn : ReservationTable
  waiting : Option Record
  resolved : Option Record
  cycle : Nat
  status : Status
  notices : List Notice
  active : Activation
deriving DecidableEq, Repr

/-- An empty queue with its latch clear. -/
def BoundedQueue.empty : BoundedQueue := ⟨[], false⟩

/-- A table with every slot free. -/
def ReservationTable.free : ReservationTable := Vector.replicate Config.nregs none

/-- The machine right after reset (spec/70_reset_and_hazards.md R380) before a program has been loaded, that is with
the empty program, for which R403 gives `status = TERMINATED` (log 4). -/
def State.reset : State where
  instrBase := Config.instrBase
  pc := Config.instrBase
  x := Vector.replicate Config.nregs 0
  mem := []
  imem := []
  preIssue := .empty
  preALU := .empty
  postALU := .empty
  preMEM := .empty
  postMEM := .empty
  lastPreIssue := []
  rrtc := .free
  rrtn := .free
  waiting := none
  resolved := none
  cycle := 0
  status := .terminated
  notices := []
  active := .atRest Config.instrBase

end Sys2Proof.Machine
end

