-- ==== Sys2Proof/Machine/Ops.lean ====
section
/-!
DEFINITION. The named operations over the state: registers, reservation tables, queues, regions, data memory, and
raising a fatal fault.
-/

namespace Sys2Proof.Machine

/-! ## Raising a fatal fault (spec/60_exceptions.md R345, R350) -/

/-- `raise F(info)`: the ONE operation by which a fault is taken. R350: "There is no handler: no state is saved
anywhere, no cause or address register exists, `pc` is not redirected, no mode changes"; `status` becomes
`ABORTED(f)` and every other component keeps the value it had when the raise happened. There is no return from it
(R350: "The fault is not resumable and there is no return instruction"): only a new load leaves ABORTED. -/
def raiseFault (f : Fault) (s : State) : State := { s with status := .aborted f }

/-- The numeric codes of the fatal faults (R345). -/
def faultCode : Fault → Nat
  | .queueOverflow _ => 1
  | .operandAbsent _ => 2
  | .dataAddressFault _ => 3

/-- The numeric code of the notice (R345). -/
def noticeCode : Notice → Nat
  | .unknownOpcode _ => 16

/-- CORE signals a notice to the report (R344); nothing else changes. -/
def signalNotice (n : Notice) (s : State) : State := { s with notices := s.notices ++ [n] }

/-! ## General registers (spec/10_state.md R21 to R23). No register is hardwired (R22). -/

/-- `x[r]`, the live value. -/
def readReg (s : State) (r : RegIdx) : Word := s.x[r.toNat]'r.isLt

/-- `x[r] <- v`. -/
def writeReg (r : RegIdx) (v : Word) (s : State) : State := { s with x := s.x.set r.toNat v r.isLt }

/-! ## The Register Reservation Table (spec/40_queues_and_reservation.md R124 to R127) -/

/-- The slot of register `r` in a table. -/
def slotOf (t : ReservationTable) (r : RegIdx) : Option Word := t[r.toNat]'r.isLt

/-- `RRTc[r] != free`: the only test any rule makes on a slot (spec/10_state.md R38). -/
def reserved (s : State) (r : RegIdx) : Bool := (slotOf s.rrtc r).isSome

/-- `reserve(r, a)`: `RRTn[r] <- a` (R125). -/
def reserve (r : RegIdx) (a : Word) (s : State) : State :=
  { s with rrtn := s.rrtn.set r.toNat (some a) r.isLt }

/-- `release(r)`: `RRTn[r] <- free`, whatever address the slot holds (R126). -/
def release (r : RegIdx) (s : State) : State := { s with rrtn := s.rrtn.set r.toNat none r.isLt }

/-! ## The bounded queues (spec/40_queues_and_reservation.md R110 to R115) -/

/-- `CAP(Q)` (R110). -/
def capacity : QueueName → Nat
  | .preIssue => 4
  | .preALU => 2
  | .postALU => 1
  | .preMEM => 1
  | .postMEM => 1

/-- The queue of a name. -/
def queueOf (s : State) : QueueName → BoundedQueue
  | .preIssue => s.preIssue
  | .preALU => s.preALU
  | .postALU => s.postALU
  | .preMEM => s.preMEM
  | .postMEM => s.postMEM

/-- Replace a queue's entries; its latch keeps its value, since only the snapshot writes it (R115). -/
def setEntries (q : QueueName) (es : List Entry) (s : State) : State :=
  match q with
  | .preIssue => { s with preIssue := { s.preIssue with entries := es } }
  | .preALU => { s with preALU := { s.preALU with entries := es } }
  | .postALU => { s with postALU := { s.postALU with entries := es } }
  | .preMEM => { s with preMEM := { s.preMEM with entries := es } }
  | .postMEM => { s with postMEM := { s.postMEM with entries := es } }

/-- `len(Q) = CAP(Q)`; a queue above its capacity, which no run reaches (R415), counts as full too (log 9). -/
def isFull (q : QueueName) (s : State) : Bool := decide (capacity q ≤ (queueOf s q).entries.length)

/-- `push(Q, e)` and then, unless it raised, `next`: append at the tail, or `raise QueueOverflow(Q)` when the queue is
full (R112). -/
def pushThen (q : QueueName) (e : Entry) (next : State → State) (s : State) : State :=
  if isFull q s then raiseFault (.queueOverflow q) s
  else next (setEntries q ((queueOf s q).entries ++ [e]) s)

/-- `push(Q, e)` as the last action of a rule (R112). -/
def push (q : QueueName) (e : Entry) (s : State) : State := pushThen q e (fun t => t) s

/-- `pop(Q)`: the head entry and the state without it, none when `len(Q) = 0` (R113). -/
def pop (q : QueueName) (s : State) : Option (Entry × State) :=
  match (queueOf s q).entries with
  | [] => none
  | e :: es => some (e, setEntries q es s)

/-- The latch written at the snapshot: `Q.last_full <- (len(Q) = CAP(Q))` (R122). -/
def latched (q : QueueName) (s : State) : BoundedQueue := { queueOf s q with lastFull := isFull q s }

/-! ## The regions (spec/00_scope.md R11; spec/20_memory.md R61, R64; spec/44_cycle_orchestrator.md R242) -/

/-- A record of class BREAK. -/
def isBreak (r : Record) : Bool := r.body == .instr .brk

/-- `NEXEC`: the number of records up to and including the first BREAK, or all of them (R11). -/
def nexecOf : List Record → Nat
  | [] => 0
  | r :: rs => if isBreak r then 1 else nexecOf rs + 1

/-- `NDATA = NWORDS - NEXEC` (R11). -/
def ndata (s : State) : Nat := s.imem.length - nexecOf s.imem

/-- `DATA_BASE = INSTR_BASE + 4 * NEXEC` (R11), a natural number: it may be 2^32 (R10, log 12). -/
def dataBase (s : State) : Nat := s.instrBase.toNat + 4 * nexecOf s.imem

/-- `InExec(a)`: `INSTR_BASE <= a < DATA_BASE` (R242). -/
def inExec (s : State) (a : Word) : Bool :=
  decide (s.instrBase.toNat ≤ a.toNat ∧ a.toNat < dataBase s)

/-- `IMEM[(a - INSTR_BASE) / 4]` (spec/41_fetch.md R144). -/
def recordAt (s : State) (a : Word) : Option Record := s.imem[(a.toNat - s.instrBase.toNat) / 4]?

/-- `ValidData(a)` (R64). -/
def validData (s : State) (a : Word) : Bool :=
  decide (a.toNat % 4 = 0 ∧ dataBase s ≤ a.toNat ∧ a.toNat < dataBase s + 4 * ndata s)

/-! ## Data memory (spec/20_memory.md R62 to R66) -/

/-- The byte at an address. -/
def Memory.readByte : Memory → Nat → Byte
  | [], _ => Memory.unlisted
  | (k, b) :: m, a => if k = a then b else Memory.readByte m a

/-- Write a byte, keeping the canonical form: writing what an unlisted address reads as removes the entry. -/
def Memory.writeByte : Memory → Nat → Byte → Memory
  | [], a, v => if v = Memory.unlisted then [] else [(a, v)]
  | (k, b) :: m, a, v =>
    if a < k then (if v = Memory.unlisted then (k, b) :: m else (a, v) :: (k, b) :: m)
    else if a = k then (if v = Memory.unlisted then m else (a, v) :: m)
    else (k, b) :: Memory.writeByte m a v

/-- The word at an address. The byte at the lowest address holds bits 7 to 0: a choice nothing can observe (R63,
log 1). -/
def Memory.readWord (m : Memory) (a : Nat) : Word :=
  Memory.readByte m (a + 3) ++ Memory.readByte m (a + 2) ++ Memory.readByte m (a + 1) ++ Memory.readByte m a

/-- Write a whole word, in the byte order of `Memory.readWord`. -/
def Memory.writeWord (m : Memory) (a : Nat) (v : Word) : Memory :=
  Memory.writeByte
    (Memory.writeByte
      (Memory.writeByte
        (Memory.writeByte m a (v.extractLsb' 0 8))
        (a + 1) (v.extractLsb' 8 8))
      (a + 2) (v.extractLsb' 16 8))
    (a + 3) (v.extractLsb' 24 8)

/-- `MemRead(a, 4)` (R65): the word, or the fault it raises. -/
def memRead (a : Word) (s : State) : Except Fault Word :=
  if validData s a then .ok (Memory.readWord s.mem a.toNat) else .error (.dataAddressFault a)

/-- `MemWrite(a, 4, v)` (R66): the word is stored, or `DataAddressFault(a)` is raised. -/
def memWrite (a v : Word) (s : State) : State :=
  if validData s a then { s with mem := Memory.writeWord s.mem a.toNat v }
  else raiseFault (.dataAddressFault a) s

/-- The word `DMEM[j]` (spec/10_state.md R45, spec/20_memory.md R63). -/
def dmemWord (s : State) (j : Nat) : Word := Memory.readWord s.mem (dataBase s + 4 * j)

/-! ## The record a stage runs (log 6) -/

/-- A stage takes up a record: its address, and what the stage asks of it. -/
def activate (r : Record) (p : Phase) (s : State) : State := { s with active := ⟨r.address, p⟩ }

/-- The record that is being run, given its body. -/
def activeRecord (b : Body) (s : State) : Record := ⟨s.active.address, b⟩

/-- `raise OperandAbsent(i.address)` (spec/60_exceptions.md R342). -/
def operandAbsent (s : State) : State := raiseFault (.operandAbsent s.active.address) s

end Sys2Proof.Machine
end

