-- ==== Sys2Proof/Machine/Operands.lean ====
section
/-!
DEFINITION. Operands: the registers an instruction writes and reads (spec/10_state.md R27, R28), immediate and
address assembly (spec/30_encoding.md R95), and the class tests the stages make.
-/

namespace Sys2Proof.Machine

/-- `zext_16` (spec/00_scope.md R16): no immediate and no offset is ever sign-extended (R95). -/
def zext16 (v : Imm) : Word := v.setWidth 32

/-- `zext_26` (R16). -/
def zext26 (v : Target) : Word := v.setWidth 32

/-- `dest(i)`, the register an instruction will write (R27). In the immediate class it is `rs` (R29). -/
def destOf : Instr → Option RegIdx
  | .add rd _ _ | .sub rd _ _ | .mul rd _ _ | .and rd _ _ | .or rd _ _ | .xor rd _ _ | .nor rd _ _ => some rd
  | .addi rs _ _ | .andi rs _ _ | .ori rs _ _ | .xori rs _ _ => some rs
  | .lw _ rt _ => some rt
  | .sw _ _ _ | .j _ | .beq _ _ _ | .bgtz _ _ | .brk => none

/-- `srcs(i)`, the registers an instruction reads (R28). In the immediate class it is `rt` (R29). -/
def srcsOf : Instr → List RegIdx
  | .add _ rs rt | .sub _ rs rt | .mul _ rs rt | .and _ rs rt | .or _ rs rt | .xor _ rs rt | .nor _ rs rt => [rs, rt]
  | .beq rs rt _ => [rs, rt]
  | .addi _ rt _ | .andi _ rt _ | .ori _ rt _ | .xori _ rt _ => [rt]
  | .sw base rt _ => [base, rt]
  | .lw base _ _ => [base]
  | .bgtz rs _ => [rs]
  | .j _ | .brk => []

/-- `dest` of a record: none for DATA and UNKNOWN (R27). -/
def recordDest (r : Record) : Option RegIdx :=
  match r.body with
  | .instr i => destOf i
  | .data _ | .unknown => none

/-- `srcs` of a record: empty for DATA and UNKNOWN (R28). -/
def recordSrcs (r : Record) : List RegIdx :=
  match r.body with
  | .instr i => srcsOf i
  | .data _ | .unknown => []

/-- The control-transfer instructions J, BEQ, BGTZ, BREAK (spec/00_scope.md R18). -/
def isControl : Instr → Bool
  | .j _ | .beq _ _ _ | .bgtz _ _ | .brk => true
  | .sw _ _ _ | .lw _ _ _ => false
  | .add _ _ _ | .sub _ _ _ | .mul _ _ _ | .and _ _ _ | .or _ _ _ | .xor _ _ _ | .nor _ _ _ => false
  | .addi _ _ _ | .andi _ _ _ | .ori _ _ _ | .xori _ _ _ => false

/-- `i.cls = SW`. -/
def isStore : Instr → Bool
  | .sw _ _ _ => true
  | .lw _ _ _ | .j _ | .beq _ _ _ | .bgtz _ _ | .brk => false
  | .add _ _ _ | .sub _ _ _ | .mul _ _ _ | .and _ _ _ | .or _ _ _ | .xor _ _ _ | .nor _ _ _ => false
  | .addi _ _ _ | .andi _ _ _ | .ori _ _ _ | .xori _ _ _ => false

/-- `i.cls = LW`. -/
def isLoad : Instr → Bool
  | .lw _ _ _ => true
  | .sw _ _ _ | .j _ | .beq _ _ _ | .bgtz _ _ | .brk => false
  | .add _ _ _ | .sub _ _ _ | .mul _ _ _ | .and _ _ _ | .or _ _ _ | .xor _ _ _ | .nor _ _ _ => false
  | .addi _ _ _ | .andi _ _ _ | .ori _ _ _ | .xori _ _ _ => false

/-- A record of class SW. -/
def recordIsStore (r : Record) : Bool :=
  match r.body with
  | .instr i => isStore i
  | .data _ | .unknown => false

/-- A record of class SW or LW. -/
def recordIsMemory (r : Record) : Bool :=
  match r.body with
  | .instr i => isStore i || isLoad i
  | .data _ | .unknown => false

/-- The effective address `x[base] + zext_16(offset)` modulo 2^32 (spec/48_load_store.md R321). -/
def effectiveAddress (s : State) (base : RegIdx) (offset : Imm) : Word := readReg s base + zext16 offset

/-- The target of J: the top four bits of its own address over the field shifted left by two
(spec/47_control_transfer.md R300). -/
def jumpTarget (address : Word) (target : Target) : Word :=
  (address &&& 0xF0000000#32) ||| (zext26 target <<< 2)

/-- The next word's address, and the target of a taken BEQ or BGTZ (spec/47_control_transfer.md R301, R302). -/
def branchTarget (address : Word) (taken : Bool) (offset : Imm) : Word :=
  if taken then address + 4#32 + (zext16 offset <<< 2) else address + 4#32

end Sys2Proof.Machine
end

