-- ==== Sys2Proof/Machine/Flags.lean ====
section
/-!
DEFINITION. CORE has no condition codes, no status flags and no predicate registers, and no instruction writes a
flag (spec/10_state.md R35). The two conditions of the set compare general registers directly.
-/

namespace Sys2Proof.Machine

/-- BEQ is taken when the two registers are equal in all 32 bits (spec/47_control_transfer.md R301). -/
def beqTaken (s : State) (rs rt : RegIdx) : Bool := readReg s rs == readReg s rt

/-- BGTZ is taken when the register, read as two's complement, is greater than zero (R302). -/
def bgtzTaken (s : State) (rs : RegIdx) : Bool := decide (0 < (readReg s rs).toInt)

end Sys2Proof.Machine
end

