-- ==== Sys2Proof/Machine/Hazards.lean ====
section
/-!
DEFINITION. The Hazard Detector: a pure decision function consulted by Issue and by Fetch
(spec/42_issue_and_hazards.md R170 to R181; spec/41_fetch.md R150).
-/

namespace Sys2Proof.Machine

/-- `Earlier(c, P)`: the records of `P` whose `address` is strictly smaller than `c.address` (R175). -/
def earlier (c : Record) (p : List Record) : List Record :=
  p.filter fun e => decide (e.address.toNat < c.address.toNat)

/-- `WAW(c, P)` (R171). -/
def waw (s : State) (c : Record) (p : List Record) : Bool :=
  match recordDest c with
  | none => false
  | some d => reserved s d || (earlier c p).any fun e => recordDest e == some d

/-- `RAW(c, P)` (R172). -/
def raw (s : State) (c : Record) (p : List Record) : Bool :=
  (recordSrcs c).any fun r => reserved s r || (earlier c p).any fun e => recordDest e == some r

/-- `WAR(c, P)` (R173). -/
def war (c : Record) (p : List Record) : Bool :=
  match recordDest c with
  | none => false
  | some d => (earlier c p).any fun e => (recordSrcs e).contains d

/-- `MemOrder(c, P)` (R174): by class only, no address is looked at. -/
def memOrder (c : Record) (p : List Record) : Bool :=
  recordIsMemory c && (earlier c p).any recordIsStore

/-- `IssueBlocked(c, P)` (R176). -/
def issueBlocked (s : State) (c : Record) (p : List Record) : Bool :=
  waw s c p || raw s c p || war c p || memOrder c p

/-- `PairConflict(c1, c2)` (R180): no memory clause (R181), and addresses play no part. -/
def pairConflict (c1 c2 : Record) : Bool :=
  (match recordDest c1 with
   | none => false
   | some d => recordDest c2 == some d || (recordSrcs c2).contains d) ||
  (match recordDest c2 with
   | none => false
   | some d => (recordSrcs c1).contains d)

/-- Clause (c) of `BranchBlocked`, for the second slot only (R150). -/
def firstSlotWrites (slot : FetchSlot) (firstDest : Option RegIdx) (r : RegIdx) : Bool :=
  match slot with
  | .one => false
  | .two => firstDest == some r

/-- `BranchBlocked(i, slot)` over the sources of `i` (R150): clause (a) the committed table, clause (b) the records
that were in PreIssue at the snapshot, clause (c) the entry slot 1 pushed this cycle. -/
def branchBlocked (s : State) (srcs : List RegIdx) (slot : FetchSlot) (firstDest : Option RegIdx) : Bool :=
  srcs.any fun r =>
    reserved s r || (s.lastPreIssue.any fun e => recordDest e == some r) || firstSlotWrites slot firstDest r

end Sys2Proof.Machine
end

