-- ==== Sys2Proof/Machine/Life.lean ====
section
/-!
DEFINITION. What the stages do with an instruction, once per family (spec/45_alu_register.md R270;
spec/46_alu_immediate.md R295; spec/48_load_store.md R322 to R324; spec/47_control_transfer.md R304). A stage
controller takes the entry out of its queue, sets `active` and runs the instruction; the instruction then does what
the stage's rule says of its class. Every meaning in the family files is one of the four lives below.
-/

namespace Sys2Proof.Machine

/-- `pc <- pc + 4` (spec/10_state.md R33), modulo 2^32. -/
def advancePc (s : State) : State := { s with pc := s.pc + 4#32 }

/-- Fetch of an ordinary instruction (spec/41_fetch.md R146): `push(PreIssue, (i, none))`; `pc <- pc + 4`. -/
def enterPreIssue (b : Body) (s : State) : State :=
  pushThen .preIssue ⟨activeRecord b s, none⟩ advancePc s

/-- `RRTn[d] <- a` if the instruction has a destination (spec/42_issue_and_hazards.md R193). -/
def reserveDest (dest : Option RegIdx) (a : Word) (s : State) : State :=
  match dest with
  | none => s
  | some d => reserve d a s

/-- Issue of an entry already taken out of PreIssue (spec/42_issue_and_hazards.md R193): `push(PreALU, (c, none))`,
and `RRTn[d] <- c.address` if it has a destination. -/
def enterPreALU (b : Body) (dest : Option RegIdx) (s : State) : State :=
  pushThen .preALU ⟨activeRecord b s, none⟩ (reserveDest dest s.active.address) s

/-- Commit of a result (spec/43_execute_and_writeback.md R231, R233): `x[d] <- v`, `RRTn[d] <- free`. -/
def commit (d : RegIdx) (cached : Option Word) (s : State) : State :=
  match cached with
  | none => operandAbsent s
  | some v => release d (writeReg d v s)

/-- The life of a register-register or register-immediate instruction with destination `d`, whose result is `v` if
the ALU computes it now (R211, R212). MEM cannot handle it (R223). -/
def arithmetic (i : Instr) (d : RegIdx) (v : Word) (s : State) : State :=
  match s.active.phase with
  | .fetch _ _ => enterPreIssue (.instr i) s
  | .issue => enterPreALU (.instr i) (some d) s
  | .alu => push .postALU ⟨activeRecord (.instr i) s, some v⟩ s
  | .mem _ => operandAbsent s
  | .writeback cached => commit d cached s

/-- The life of SW: the ALU computes `ea` (R213), MEM stores the data register as it stands then (R221), nothing
follows. Writeback cannot handle it (R233). -/
def store (i : Instr) (ea data : Word) (s : State) : State :=
  match s.active.phase with
  | .fetch _ _ => enterPreIssue (.instr i) s
  | .issue => enterPreALU (.instr i) none s
  | .alu => push .preMEM ⟨activeRecord (.instr i) s, some ea⟩ s
  | .mem none => operandAbsent s
  | .mem (some a) => memWrite a data s
  | .writeback _ => operandAbsent s

/-- The life of LW with destination `d`: the ALU computes `ea` (R213), MEM reads the word and pushes it into PostMEM
(R222), Writeback commits it (R231). -/
def load (i : Instr) (d : RegIdx) (ea : Word) (s : State) : State :=
  match s.active.phase with
  | .fetch _ _ => enterPreIssue (.instr i) s
  | .issue => enterPreALU (.instr i) (some d) s
  | .alu => push .preMEM ⟨activeRecord (.instr i) s, some ea⟩ s
  | .mem none => operandAbsent s
  | .mem (some a) =>
    match memRead a s with
    | .error f => raiseFault f s
    | .ok v => push .postMEM ⟨activeRecord (.instr i) s, some v⟩ s
  | .writeback cached => commit d cached s

/-- Resolution of a control-transfer instruction (spec/41_fetch.md R152). -/
def resolve (i : Instr) (outcome : Word) (s : State) : State :=
  { s with pc := outcome, resolved := some (activeRecord (.instr i) s), waiting := none }

/-- A blocked control-transfer instruction (spec/41_fetch.md R153). -/
def wait (i : Instr) (s : State) : State := { s with waiting := some (activeRecord (.instr i) s) }

/-- The life of J, BEQ, BGTZ and BREAK: examined and resolved by Fetch (R304). No other stage ever holds one; Issue,
which tests no class, would move it on (log 14), and ALU, MEM and Writeback cannot handle it (R215, R223, R233). -/
def controlFlow (i : Instr) (srcs : List RegIdx) (outcome : Word) (s : State) : State :=
  match s.active.phase with
  | .fetch slot firstDest => if branchBlocked s srcs slot firstDest then wait i s else resolve i outcome s
  | .issue => enterPreALU (.instr i) none s
  | .alu => operandAbsent s
  | .mem _ => operandAbsent s
  | .writeback _ => operandAbsent s

end Sys2Proof.Machine
end

