-- ==== Sys2Proof/Machine/AluImmediate.lean ====
section
/-!
DEFINITION. ADDI, ANDI, ORI, XORI (spec/46_alu_immediate.md). `rs` is the register WRITTEN, `rt` the register READ,
the immediate is zero-extended (R290).
-/

namespace Sys2Proof.Machine

open Host (Outcome)

/-- ADDI (R291): modulo 2^32. -/
def execAddi (rs rt : RegIdx) (imm : Imm) (s : State) : Outcome State Fault Refusal :=
  .next (arithmetic (.addi rs rt imm) rs (readReg s rt + zext16 imm) s)

/-- ANDI (R292): bits 31 to 16 of the result are 0. -/
def execAndi (rs rt : RegIdx) (imm : Imm) (s : State) : Outcome State Fault Refusal :=
  .next (arithmetic (.andi rs rt imm) rs (readReg s rt &&& zext16 imm) s)

/-- ORI (R293): bits 31 to 16 pass through. -/
def execOri (rs rt : RegIdx) (imm : Imm) (s : State) : Outcome State Fault Refusal :=
  .next (arithmetic (.ori rs rt imm) rs (readReg s rt ||| zext16 imm) s)

/-- XORI (R294): only bits 15 to 0 can flip. -/
def execXori (rs rt : RegIdx) (imm : Imm) (s : State) : Outcome State Fault Refusal :=
  .next (arithmetic (.xori rs rt imm) rs (readReg s rt ^^^ zext16 imm) s)

end Sys2Proof.Machine
end

