-- ==== Sys2Proof/Machine/AluRegister.lean ====
section
/-!
DEFINITION. ADD, SUB, MUL, AND, OR, XOR, NOR (spec/45_alu_register.md). Both sources are read in the ALU cycle, live
(spec/43_execute_and_writeback.md R211, R216).
-/

namespace Sys2Proof.Machine

open Host (Outcome)

/-- ADD (R271): modulo 2^32. -/
def execAdd (rd rs rt : RegIdx) (s : State) : Outcome State Fault Refusal :=
  .next (arithmetic (.add rd rs rt) rd (readReg s rs + readReg s rt) s)

/-- SUB (R272): first source minus second, modulo 2^32. -/
def execSub (rd rs rt : RegIdx) (s : State) : Outcome State Fault Refusal :=
  .next (arithmetic (.sub rd rs rt) rd (readReg s rs - readReg s rt) s)

/-- MUL (R273): the low 32 bits of the product. -/
def execMul (rd rs rt : RegIdx) (s : State) : Outcome State Fault Refusal :=
  .next (arithmetic (.mul rd rs rt) rd (readReg s rs * readReg s rt) s)

/-- AND (R274): bitwise. -/
def execAnd (rd rs rt : RegIdx) (s : State) : Outcome State Fault Refusal :=
  .next (arithmetic (.and rd rs rt) rd (readReg s rs &&& readReg s rt) s)

/-- OR (R275): bitwise. -/
def execOr (rd rs rt : RegIdx) (s : State) : Outcome State Fault Refusal :=
  .next (arithmetic (.or rd rs rt) rd (readReg s rs ||| readReg s rt) s)

/-- XOR (R276): bitwise. -/
def execXor (rd rs rt : RegIdx) (s : State) : Outcome State Fault Refusal :=
  .next (arithmetic (.xor rd rs rt) rd (readReg s rs ^^^ readReg s rt) s)

/-- NOR (R277): the complement of the OR. -/
def execNor (rd rs rt : RegIdx) (s : State) : Outcome State Fault Refusal :=
  .next (arithmetic (.nor rd rs rt) rd (~~~(readReg s rs ||| readReg s rt)) s)

end Sys2Proof.Machine
end

