-- ==== Sys2Proof/Machine/ControlTransfer.lean ====
section
/-!
DEFINITION. J, BEQ, BGTZ, BREAK (spec/47_control_transfer.md): the function `Outcome` of each, handed to the one life
of a control-transfer instruction. A target outside the executable region is no fault (R308).
-/

namespace Sys2Proof.Machine

open Host (Outcome)

/-- J (R300): absolute, no source registers, so it never waits. -/
def execJ (target : Target) (s : State) : Outcome State Fault Refusal :=
  .next (controlFlow (.j target) [] (jumpTarget s.active.address target) s)

/-- BEQ (R301): the registers are read by Fetch in the cycle of resolution. -/
def execBeq (rs rt : RegIdx) (offset : Imm) (s : State) : Outcome State Fault Refusal :=
  .next (controlFlow (.beq rs rt offset) [rs, rt] (branchTarget s.active.address (beqTaken s rs rt) offset) s)

/-- BGTZ (R302): the register is read by Fetch in the cycle of resolution. -/
def execBgtz (rs : RegIdx) (offset : Imm) (s : State) : Outcome State Fault Refusal :=
  .next (controlFlow (.bgtz rs offset) [rs] (branchTarget s.active.address (bgtzTaken s rs) offset) s)

/-- BREAK (R303): `pc <- DATA_BASE`, which the orchestrator's test then finds outside the executable region. -/
def execBrk (s : State) : Outcome State Fault Refusal :=
  .next (controlFlow .brk [] (BitVec.ofNat 32 (dataBase s)) s)

end Sys2Proof.Machine
end

