-- ==== Sys2Proof/Machine/LoadStore.lean ====
section
/-!
DEFINITION. SW and LW (spec/48_load_store.md). The address is computed in the ALU cycle, the access is made in the MEM
cycle; SW reads its data register in the MEM cycle (spec/43_execute_and_writeback.md R213, R221).
-/

namespace Sys2Proof.Machine

open Host (Outcome)

/-- SW (R322). -/
def execSw (base rt : RegIdx) (offset : Imm) (s : State) : Outcome State Fault Refusal :=
  .next (store (.sw base rt offset) (effectiveAddress s base offset) (readReg s rt) s)

/-- LW (R323). -/
def execLw (base rt : RegIdx) (offset : Imm) (s : State) : Outcome State Fault Refusal :=
  .next (load (.lw base rt offset) rt (effectiveAddress s base offset) s)

end Sys2Proof.Machine
end

