-- ==== Sys2Proof/Machine/Dispatch.lean ====
section
/-!
DEFINITION. One arm per instruction: what the stage named by `active` does with it.
-/

namespace Sys2Proof.Machine

open Host (Outcome)

def exec (i : Instr) (s : State) : Outcome State Fault Refusal :=
  match i with
  | .j target => Sys2Proof.Machine.execJ target s
  | .beq rs rt offset => Sys2Proof.Machine.execBeq rs rt offset s
  | .bgtz rs offset => Sys2Proof.Machine.execBgtz rs offset s
  | .brk => Sys2Proof.Machine.execBrk s
  | .sw base rt offset => Sys2Proof.Machine.execSw base rt offset s
  | .lw base rt offset => Sys2Proof.Machine.execLw base rt offset s
  | .add rd rs rt => Sys2Proof.Machine.execAdd rd rs rt s
  | .sub rd rs rt => Sys2Proof.Machine.execSub rd rs rt s
  | .mul rd rs rt => Sys2Proof.Machine.execMul rd rs rt s
  | .and rd rs rt => Sys2Proof.Machine.execAnd rd rs rt s
  | .or rd rs rt => Sys2Proof.Machine.execOr rd rs rt s
  | .xor rd rs rt => Sys2Proof.Machine.execXor rd rs rt s
  | .nor rd rs rt => Sys2Proof.Machine.execNor rd rs rt s
  | .addi rs rt imm => Sys2Proof.Machine.execAddi rs rt imm s
  | .andi rs rt imm => Sys2Proof.Machine.execAndi rs rt imm s
  | .ori rs rt imm => Sys2Proof.Machine.execOri rs rt imm s
  | .xori rs rt imm => Sys2Proof.Machine.execXori rs rt imm s

end Sys2Proof.Machine
end

