-- ==== Sys2Proof/Machine/NonInstruction.lean ====
section
/-!
DEFINITION. The record classes that are no instruction: UNKNOWN and DATA (spec/49_data_unknown.md).
-/

namespace Sys2Proof.Machine

/-- UNKNOWN (R331): Fetch passes over it with a notice, `pc <- pc + 4`, nothing is pushed. It never stands in a queue;
Issue, which tests no class, would move it on (log 14), and ALU, MEM and Writeback raise `OperandAbsent`. -/
def runUnknown (s : State) : State :=
  match s.active.phase with
  | .fetch _ _ => advancePc (signalNotice (.unknownOpcode s.active.address) s)
  | .issue => enterPreALU .unknown none s
  | .alu => operandAbsent s
  | .mem _ => operandAbsent s
  | .writeback _ => operandAbsent s

/-- DATA (R330): no stage executes it; a Fetch, ALU, MEM or Writeback that holds one raises `OperandAbsent`. -/
def runData (v : Word) (s : State) : State :=
  match s.active.phase with
  | .fetch _ _ => operandAbsent s
  | .issue => enterPreALU (.data v) none s
  | .alu => operandAbsent s
  | .mem _ => operandAbsent s
  | .writeback _ => operandAbsent s

end Sys2Proof.Machine
end

