-- ==== Sys2Proof/Machine/Stages.lean ====
section
/-!
DEFINITION. How a stage controller runs a record, the snapshot, and the three back-end stages Writeback, MEM, ALU
(spec/40_queues_and_reservation.md R120 to R123; spec/43_execute_and_writeback.md R210, R217, R220, R224, R230, R234).
-/

namespace Sys2Proof.Machine

open Host (Outcome)

/-- Go on with `f` unless a fault was raised: "the stage stops at the point of the `raise`; the remaining stages of
the cycle do not run" (spec/60_exceptions.md R350). -/
def thenIfRunning (o : Outcome State Fault Refusal) (f : State → Outcome State Fault Refusal) :
    Outcome State Fault Refusal :=
  match o with
  | .next s => if s.status = .running then f s else .next s
  | .fault r => .fault r
  | .refused r => .refused r

/-- A stage runs a record: an instruction by `exec`, the two other classes by their own rules. -/
def runRecord (r : Record) (p : Phase) (s : State) : Outcome State Fault Refusal :=
  match r.body with
  | .instr i => exec i (activate r p s)
  | .data v => .next (runData v (activate r p s))
  | .unknown => .next (runUnknown (activate r p s))

/-- Snapshot (R120 to R123): the four parts read pre-snapshot state only. The notices of the cycle before are
dropped with `resolved` (log 7). -/
def snapshot (s : State) : State :=
  { s with
    rrtc := s.rrtn
    lastPreIssue := s.preIssue.entries.map Entry.record
    preIssue := latched .preIssue s
    preALU := latched .preALU s
    postALU := latched .postALU s
    preMEM := latched .preMEM s
    postMEM := latched .postMEM s
    resolved := none
    notices := [] }

/-- One lane of Writeback: pop the queue's head, if any, and commit it (R230, R234). -/
def commitLane (q : QueueName) (s : State) : Outcome State Fault Refusal :=
  match pop q s with
  | none => .next s
  | some (e, t) => runRecord e.record (.writeback e.cached) t

/-- Writeback (R234): PostMEM before PostALU (R232). -/
def writebackStage (s : State) : Outcome State Fault Refusal :=
  thenIfRunning (commitLane .postMEM s) (commitLane .postALU)

/-- MEM execute (R224). -/
def memStage (s : State) : Outcome State Fault Refusal :=
  match pop .preMEM s with
  | none => .next s
  | some (e, t) => runRecord e.record (.mem e.cached) t

/-- ALU execute (R217). -/
def aluStage (s : State) : Outcome State Fault Refusal :=
  match pop .preALU s with
  | none => .next s
  | some (e, t) => runRecord e.record .alu t

end Sys2Proof.Machine
end

