-- ==== Sys2Proof/Machine/Issue.lean ====
section
/-!
DEFINITION. The Issue stage (spec/42_issue_and_hazards.md R190 to R199).
-/

namespace Sys2Proof.Machine

open Host (Outcome)

/-- Insert before the first entry whose address is not smaller: the step of a stable sort. -/
def insertByAddress (e : Entry) : List Entry → List Entry
  | [] => [e]
  | f :: fs =>
    if e.record.address.toNat ≤ f.record.address.toNat then e :: f :: fs else f :: insertByAddress e fs

/-- The stable sort by ascending `address` (R198). -/
def sortByAddress : List Entry → List Entry
  | [] => []
  | e :: es => insertByAddress e (sortByAddress es)

/-- The four conditions under which candidate `c` issues (R192), with the residents `p` (R196) and the records
`issued` so far in this scan. -/
def mayIssue (s : State) (c : Record) (p : List Record) (issued : List Record) : Bool :=
  decide (issued.length < Config.issueWidth) &&
  !isFull .preALU s &&
  !issueBlocked s c p &&
  (match issued with
   | [] => true
   | c1 :: _ => !pairConflict c1 c)

/-- The scan, head to tail (R191): `kept` are the entries seen and left, the list those not yet seen; together, less
the candidate, they are the live PreIssue (R196). A candidate that issues is removed first and then run (R193). At the
end what is left is sorted (R198). -/
def issueScan (kept : List Entry) (issued : List Record) : List Entry → State → Outcome State Fault Refusal
  | [], s => .next (setEntries .preIssue (sortByAddress kept) s)
  | c :: rest, s =>
    if mayIssue s c.record ((kept ++ rest).map Entry.record) issued then
      thenIfRunning (runRecord c.record .issue (setEntries .preIssue (kept ++ rest) s))
        (issueScan kept (issued ++ [c.record]) rest)
    else issueScan (kept ++ [c]) issued rest s

/-- Issue (R199): nothing at all, not even the sort, when PreALU was full at the snapshot (R190). -/
def issueStage (s : State) : Outcome State Fault Refusal :=
  if s.preALU.lastFull then .next s else issueScan [] [] s.preIssue.entries s

end Sys2Proof.Machine
end

