-- ==== Sys2Proof/Machine/Fetch.lean ====
section
/-!
DEFINITION. The Fetch stage (spec/41_fetch.md R140 to R157).
-/

namespace Sys2Proof.Machine

open Host (Outcome)

/-- One slot (R143 to R153), with `next` the work of the slot after it, which is given the `first_dest` it sees. A
control-transfer instruction ends the slots; an ordinary one is tested for live room (R148), pushed, and followed by
the next slot; an UNKNOWN word uses the slot up (R147). -/
def fetchSlot (slot : FetchSlot) (firstDest : Option RegIdx)
    (next : Option RegIdx → State → Outcome State Fault Refusal) (s : State) : Outcome State Fault Refusal :=
  if inExec s s.pc then
    match recordAt s s.pc with
    | none => .next s
    | some r =>
      match r.body with
      | .instr i =>
        if isControl i then runRecord r (.fetch slot firstDest) s
        else if isFull .preIssue s then .next s
        else thenIfRunning (runRecord r (.fetch slot firstDest) s) (next (destOf i))
      | .unknown => thenIfRunning (runRecord r (.fetch slot firstDest) s) (next firstDest)
      | .data _ => runRecord r (.fetch slot firstDest) s
  else .next s

/-- Slot 2, after which Fetch is done. -/
def fetchSecond (firstDest : Option RegIdx) (s : State) : Outcome State Fault Refusal :=
  fetchSlot .two firstDest (fun _ t => .next t) s

/-- Fetch (R157): nothing at all when PreIssue was full at the snapshot (R141). -/
def fetchStage (s : State) : Outcome State Fault Refusal :=
  if s.preIssue.lastFull then .next s else fetchSlot .one none fetchSecond s

end Sys2Proof.Machine
end

