-- ==== Sys2Proof/Machine/Cycle.lean ====
section
/-!
DEFINITION. The Cycle Orchestrator (spec/44_cycle_orchestrator.md R240 to R248).
-/

namespace Sys2Proof.Machine

open Host (Outcome)

/-- Step 1 with the count of the cycle: `cycle <- cycle + 1`, then the snapshot (R244; spec/10_state.md R43). -/
def beginCycle (s : State) : State := snapshot { s with cycle := s.cycle + 1 }

/-- The termination test (R245). -/
def terminationTest (s : State) : State :=
  if inExec s s.pc then s else { s with status := .terminated }

/-- Steps 2 to 5: Writeback, MEM, ALU, Issue, each run to completion before the next (R243, R244). -/
def backEnd (s : State) : Outcome State Fault Refusal :=
  thenIfRunning (thenIfRunning (thenIfRunning (writebackStage s) memStage) aluStage) issueStage

/-- `Cycle()` (R244). After a fault no later stage runs and no termination test is made (R248). -/
def cycleOnce (s : State) : Outcome State Fault Refusal :=
  thenIfRunning (thenIfRunning (backEnd (beginCycle s)) fetchStage) fun t => .next (terminationTest t)

/-- Between cycles `active` is at its rest value (log 6). -/
def rest (s : State) : State := { s with active := .atRest s.pc }

/-- A clock edge: a cycle while RUNNING, and nothing while TERMINATED or ABORTED (R240, R251). -/
def clockEdge (s : State) : Outcome State Fault Refusal :=
  if s.status = .running then
    match cycleOnce s with
    | .next t => .next (rest t)
    | .fault r => .fault r
    | .refused r => .refused r
  else .next s

end Sys2Proof.Machine
end

