-- ==== Sys2Proof/Machine/Load.lean ====
section
/-!
DEFINITION. Program load, over any decoder, and the reset it feeds (spec/70_reset_and_hazards.md R400 to R404, R380,
R390; spec/00_scope.md R12; spec/44_cycle_orchestrator.md R251).
-/

namespace Sys2Proof.Machine

/-- Data-loading mode: every word is a DATA record, whatever its bits (R401). -/
def loadData (a : Word) : List Word → List Record
  | [] => []
  | w :: ws => ⟨a, .data w⟩ :: loadData (a + 4#32) ws

/-- Decoding mode: each word is decoded, until one is a BREAK; every later word is data (R401, R402). An UNKNOWN word
does not change the mode. -/
def loadRecords (decoder : Decoder) (a : Word) : List Word → List Record
  | [] => []
  | w :: ws =>
    if isBreak (decoder w a) then decoder w a :: loadData (a + 4#32) ws
    else decoder w a :: loadRecords decoder (a + 4#32) ws

/-- The initial DMEM: the value of every DATA record at its address (R401; spec/49_data_unknown.md R330). -/
def loadMemory (m : Memory) : List Record → Memory
  | [] => m
  | r :: rs =>
    match r.body with
    | .data v => loadMemory (Memory.writeWord m r.address.toNat v) rs
    | .instr _ => loadMemory m rs
    | .unknown => loadMemory m rs

/-- `status` after reset: RUNNING if `InExec(INSTR_BASE)`, else TERMINATED (R390). -/
def resetStatus (base : Word) (records : List Record) : Status :=
  if inExec { State.reset with instrBase := base, imem := records } base then .running else .terminated

/-- The state after reset with the parameters `DECODE`, `INSTR_BASE` and `PROGRAM` taken from the load interface (R380,
R401, R12). None for a base or a program outside the domain (spec/00_scope.md R10; spec/93_implementation_defined.md U22;
log 17). That `decoder` is a `wellFormedDecoder` is a precondition of the load (U22). -/
def loadProgram (decoder : Decoder) (base : Word) (program : List Word) : Option State :=
  if loadable base program then
    some { State.reset with
      instrBase := base
      pc := base
      imem := loadRecords decoder base program
      mem := loadMemory [] (loadRecords decoder base program)
      status := resetStatus base (loadRecords decoder base program)
      active := .atRest base }
  else none

/-- The load, with the default decoder, of the one-word program `w` into a machine that keeps its registers, its cycle count and its
`INSTR_BASE`: what `State.withFetchWord` stands for (log 4). The queues and tables are as after reset, so that the
next cycle fetches exactly this word and nothing else is in the pipeline. -/
def loadOneWord (w : Word) (s : State) : State :=
  { State.reset with
    instrBase := s.instrBase
    pc := s.instrBase
    x := s.x
    cycle := s.cycle
    imem := loadRecords decodeRecord s.instrBase [w]
    status := resetStatus s.instrBase (loadRecords decodeRecord s.instrBase [w])
    active := .atRest s.instrBase }

end Sys2Proof.Machine
end

