-- ==== Sys2Proof/Machine/Step.lean ====
section
/-!
DEFINITION. One step of the machine: one clock edge, one cycle (spec/44_cycle_orchestrator.md R244, R251).
-/

namespace Sys2Proof.Machine

open Host (Outcome)

/-- One clock edge. -/
def step (s : State) : Outcome State Fault Refusal := clockEdge s

/-- `s` with the one-word program whose word has the bits `w`, bits from `nbits` up zero, loaded where the next cycle
fetches (log 4). -/
def State.withFetchWord (s : State) (nbits w : Nat) : State :=
  loadOneWord (BitVec.ofNat 32 (w % 2 ^ nbits)) s

end Sys2Proof.Machine
end

