-- ==== Sys2Proof/Machine/Observe.lean ====
section
/-!
DEFINITION. What CORE exposes after each cycle (spec/44_cycle_orchestrator.md R250), and the notation of a record
(spec/30_encoding.md R102; spec/49_data_unknown.md R330).
-/

namespace Sys2Proof.Machine

/-- The observation (R250). Not in it: the tables, `LastPreIssue`, the latches, the cached results (R255). -/
structure Observation where
  cycle : Nat
  waiting : Option Record
  resolved : Option Record
  preIssue : List Record
  preALU : List Record
  postALU : List Record
  preMEM : List Record
  postMEM : List Record
  x : Vector Word Config.nregs
  dataBase : Nat
  dmem : List Word
  pc : Word
  status : Status
deriving DecidableEq, Repr

/-- A queue's records, head to tail. -/
def queueRecords (q : QueueName) (s : State) : List Record := (queueOf s q).entries.map Entry.record

/-- `DMEM[0..NDATA-1]`. -/
def dmemWords (s : State) : List Word := (List.range (ndata s)).map (dmemWord s)

/-- The observation of a state. -/
def observe (s : State) : Observation where
  cycle := s.cycle
  waiting := s.waiting
  resolved := s.resolved
  preIssue := queueRecords .preIssue s
  preALU := queueRecords .preALU s
  postALU := queueRecords .postALU s
  preMEM := queueRecords .preMEM s
  postMEM := queueRecords .postMEM s
  x := s.x
  dataBase := dataBase s
  dmem := dmemWords s
  pc := s.pc
  status := s.status

/-- `R<n>`. -/
def regName (r : RegIdx) : String := "R" ++ toString r.toNat

/-- `OP Rd, Rs, Rt`, the register written first. -/
def threeRegisters (op : String) (a b c : RegIdx) : String :=
  op ++ " " ++ regName a ++ ", " ++ regName b ++ ", " ++ regName c

/-- `OP Ra, Rb, #n`. -/
def twoRegistersNumber (op : String) (a b : RegIdx) (n : Nat) : String :=
  op ++ " " ++ regName a ++ ", " ++ regName b ++ ", #" ++ toString n

/-- `OP Rt, offset(Rbase)`. -/
def memoryOperand (op : String) (base rt : RegIdx) (offset : Imm) : String :=
  op ++ " " ++ regName rt ++ ", " ++ toString offset.toNat ++ "(" ++ regName base ++ ")"

/-- The assembly notation of an instruction at an address (R102). -/
def instrText (address : Word) : Instr → String
  | .j target => "J #" ++ toString (jumpTarget address target).toNat
  | .beq rs rt offset => twoRegistersNumber "BEQ" rs rt (4 * offset.toNat)
  | .bgtz rs offset => "BGTZ " ++ regName rs ++ ", #" ++ toString (4 * offset.toNat)
  | .brk => "BREAK"
  | .sw base rt offset => memoryOperand "SW" base rt offset
  | .lw base rt offset => memoryOperand "LW" base rt offset
  | .add rd rs rt => threeRegisters "ADD" rd rs rt
  | .sub rd rs rt => threeRegisters "SUB" rd rs rt
  | .mul rd rs rt => threeRegisters "MUL" rd rs rt
  | .and rd rs rt => threeRegisters "AND" rd rs rt
  | .or rd rs rt => threeRegisters "OR" rd rs rt
  | .xor rd rs rt => threeRegisters "XOR" rd rs rt
  | .nor rd rs rt => threeRegisters "NOR" rd rs rt
  | .addi rs rt imm => twoRegistersNumber "ADDI" rs rt imm.toNat
  | .andi rs rt imm => twoRegistersNumber "ANDI" rs rt imm.toNat
  | .ori rs rt imm => twoRegistersNumber "ORI" rs rt imm.toNat
  | .xori rs rt imm => twoRegistersNumber "XORI" rs rt imm.toNat

/-- The notation of a record; a data word is shown as a signed number (R102, R330). -/
def recordText (r : Record) : String :=
  match r.body with
  | .instr i => instrText r.address i
  | .data v => "DATA " ++ toString v.toInt
  | .unknown => "UNKNOWN"

end Sys2Proof.Machine
end

