-- ==== Sys2Proof/Safety.lean ====
section
/-!
DEFINITION. What counts as a safe run of CORE: the faults a well-formed program may end in, and the invariants of the
state the spec names (spec/10_state.md R32, R41, R46 to R48; spec/20_memory.md R61, R62; spec/60_exceptions.md R340 to
R343; spec/70_reset_and_hazards.md R401, R415).
-/

namespace Sys2Proof.Machine

/-- A record of class LW. -/
def recordIsLoad (r : Record) : Bool :=
  match r.body with
  | .instr i => isLoad i
  | .data _ | .unknown => false

/-- A record of one of the thirteen classes that may enter a queue (R48). -/
def recordIsIssuable (r : Record) : Bool :=
  match r.body with
  | .instr i => !isControl i
  | .data _ | .unknown => false

/-- A record of one of the four control-transfer classes. -/
def recordIsControl (r : Record) : Bool :=
  match r.body with
  | .instr i => isControl i
  | .data _ | .unknown => false

/-- A record of class DATA. -/
def recordIsData (r : Record) : Bool :=
  match r.body with
  | .data _ => true
  | .instr _ | .unknown => false

/-- The run has not been aborted (R350). -/
def NotAborted (s : State) : Prop := ∀ f, s.status ≠ .aborted f

/-- The queue capacity invariant (R46). -/
def QueuesBounded (s : State) : Prop :=
  s.preIssue.entries.length ≤ 4 ∧ s.preALU.entries.length ≤ 2 ∧ s.postALU.entries.length ≤ 1 ∧
    s.preMEM.entries.length ≤ 1 ∧ s.postMEM.entries.length ≤ 1

/-- Which classes stand in which queue (R48), and where a cached result is present (R30). -/
def QueuesHoldTheirClasses (s : State) : Prop :=
  (∀ e ∈ s.preIssue.entries, recordIsIssuable e.record = true ∧ e.cached = none) ∧
  (∀ e ∈ s.preALU.entries, recordIsIssuable e.record = true ∧ e.cached = none) ∧
  (∀ e ∈ s.postALU.entries,
    (recordDest e.record).isSome = true ∧ recordIsLoad e.record = false ∧ e.cached.isSome = true) ∧
  (∀ e ∈ s.preMEM.entries, recordIsMemory e.record = true ∧ e.cached.isSome = true) ∧
  (∀ e ∈ s.postMEM.entries, recordIsLoad e.record = true ∧ e.cached.isSome = true)

/-- The entries in flight: issued and not yet written back or performed (spec/00_scope.md R18). -/
def inFlight (s : State) : List Entry :=
  s.preALU.entries ++ s.preMEM.entries ++ s.postALU.entries ++ s.postMEM.entries

/-- At most one outstanding writer per register, and the next-cycle table says which (R38, R47). -/
def OneWriterPerRegister (s : State) : Prop :=
  ((inFlight s).filterMap fun e => recordDest e.record).Nodup ∧
  (∀ e ∈ inFlight s, ∀ r, recordDest e.record = some r → slotOf s.rrtn r = some e.record.address) ∧
  (∀ r a, slotOf s.rrtn r = some a → ∃ e ∈ inFlight s, recordDest e.record = some r ∧ e.record.address = a)

/-- The instruction record file as the loader leaves it: the domain of R10, the addresses of R31, executable records
up to the first BREAK and DATA records after it (R401). -/
def ProgramLoaded (s : State) : Prop :=
  s.instrBase.toNat % 4 = 0 ∧ s.instrBase.toNat + 4 * s.imem.length ≤ 2 ^ 32 ∧
    addressesFrom s.instrBase s.imem = true ∧
    (∀ r ∈ s.imem.take (nexecOf s.imem), recordIsData r = false) ∧
    (∀ r ∈ s.imem.drop (nexecOf s.imem), recordIsData r = true)

/-- `pc` is a multiple of 4 (R32). -/
def PcAligned (s : State) : Prop := s.pc.toNat % 4 = 0

/-- A stalled Fetch stands at its waiting instruction (R41), a control-transfer record of IMEM; `waiting` and
`resolved` are not both present (decision D15). -/
def FetchStallConsistent (s : State) : Prop :=
  (∀ w, s.waiting = some w → w.address = s.pc ∧ recordIsControl w = true ∧ recordAt s s.pc = some w) ∧
    (s.waiting = none ∨ s.resolved = none)

/-- RUNNING exactly inside the executable region, TERMINATED outside it (R44, R245, R390). -/
def StatusMatchesRegion (s : State) : Prop :=
  (s.status = .running → inExec s s.pc = true) ∧ (s.status = .terminated → inExec s s.pc = false)

/-- Data memory is in canonical form and lists nothing outside the data region (R61, R62). -/
def MemoryInRegion (s : State) : Prop :=
  Memory.wf s.mem = true ∧ ∀ c ∈ s.mem, dataBase s ≤ c.1 ∧ c.1 < dataBase s + 4 * ndata s

/-- The invariant of every state a loaded machine reaches. -/
def CoreInvariant (s : State) : Prop :=
  QueuesBounded s ∧ QueuesHoldTheirClasses s ∧ (NotAborted s → OneWriterPerRegister s) ∧ ProgramLoaded s ∧
    PcAligned s ∧ FetchStallConsistent s ∧ StatusMatchesRegion s ∧ MemoryInRegion s

/-- The only fatal fault a well-formed program can meet (R340 to R343). -/
def OnlyDataAddressFaults (s : State) : Prop :=
  ∀ f, s.status = .aborted f → ∃ ea, f = .dataAddressFault ea ∧ validData s ea = false

end Sys2Proof.Machine
end

