-- ==== Sys2Proof/Certificates/Slice0/Obligations.lean ====
section
/-!
DEFINITION. The statements for the provers, from the numbered rules of spec/. `active` (log 6) and `notices` (log 7) are
the model's own fields, and `exec` is what an instruction does in the stage `active` names: where a statement mentions
them, that is the model's choice, not the spec's.
-/

open Sys2Proof Sys2Proof.Machine
open Host (Outcome)

namespace Sys2Proof.Statements

/-! ## Words the statements use -/

/-- The entry of instruction `i`, which is being run, with cached result `c`. -/
def entryOf (s : State) (i : Instr) (c : Option Word) : Entry := ⟨⟨s.active.address, .instr i⟩, c⟩

/-- `s` with an entry added at the tail of PreIssue. -/
def addPreIssue (e : Entry) (s : State) : State :=
  { s with preIssue := { s.preIssue with entries := s.preIssue.entries ++ [e] } }

/-- `s` with an entry added at the tail of PreALU. -/
def addPreALU (e : Entry) (s : State) : State :=
  { s with preALU := { s.preALU with entries := s.preALU.entries ++ [e] } }

/-- `s` with an entry added at the tail of PostALU. -/
def addPostALU (e : Entry) (s : State) : State :=
  { s with postALU := { s.postALU with entries := s.postALU.entries ++ [e] } }

/-- `s` with an entry added at the tail of PreMEM. -/
def addPreMEM (e : Entry) (s : State) : State :=
  { s with preMEM := { s.preMEM with entries := s.preMEM.entries ++ [e] } }

/-- `s` with an entry added at the tail of PostMEM. -/
def addPostMEM (e : Entry) (s : State) : State :=
  { s with postMEM := { s.postMEM with entries := s.postMEM.entries ++ [e] } }

/-- `s` after `raise f`: only `status` changes (R350). -/
def aborted (f : Fault) (s : State) : State := { s with status := .aborted f }

/-- A control-transfer instruction that is being run has resolved to `target` (R152). -/
def resolvedTo (i : Instr) (target : Word) (s : State) : State :=
  { s with pc := target, resolved := some ⟨s.active.address, .instr i⟩, waiting := none }

/-- A control-transfer instruction that is being run is blocked (R153). -/
def waitingFor (i : Instr) (s : State) : State := { s with waiting := some ⟨s.active.address, .instr i⟩ }

/-- `BranchBlocked` for one source register, clause by clause (R150). -/
def sourceBlocked (s : State) (slot : FetchSlot) (firstDest : Option RegIdx) (r : RegIdx) : Prop :=
  slotOf s.rrtc r ≠ none ∨ (∃ e ∈ s.lastPreIssue, recordDest e = some r) ∨ (slot = .two ∧ firstDest = some r)

/-- What the ALU computes for a register-register or register-immediate instruction (R271 to R277, R291 to R294). -/
def aluResult (i : Instr) (s : State) : Option Word :=
  match i with
  | .add _ rs rt => some (readReg s rs + readReg s rt)
  | .sub _ rs rt => some (readReg s rs - readReg s rt)
  | .mul _ rs rt => some (readReg s rs * readReg s rt)
  | .and _ rs rt => some (readReg s rs &&& readReg s rt)
  | .or _ rs rt => some (readReg s rs ||| readReg s rt)
  | .xor _ rs rt => some (readReg s rs ^^^ readReg s rt)
  | .nor _ rs rt => some (~~~(readReg s rs ||| readReg s rt))
  | .addi _ rt imm => some (readReg s rt + imm.setWidth 32)
  | .andi _ rt imm => some (readReg s rt &&& imm.setWidth 32)
  | .ori _ rt imm => some (readReg s rt ||| imm.setWidth 32)
  | .xori _ rt imm => some (readReg s rt ^^^ imm.setWidth 32)
  | .j _ | .beq _ _ _ | .bgtz _ _ | .brk | .sw _ _ _ | .lw _ _ _ => none

/-- The bits of a word that the decoder reads (R97 names the others). -/
def usedBits : Instr → Word
  | .bgtz _ _ => 0xFFE0FFFF#32
  | .brk => 0xFC000000#32
  | .add _ _ _ | .sub _ _ _ | .mul _ _ _ | .and _ _ _ | .or _ _ _ | .xor _ _ _ | .nor _ _ _ => 0xFFFFF800#32
  | .j _ | .beq _ _ _ | .sw _ _ _ | .lw _ _ _ | .addi _ _ _ | .andi _ _ _ | .ori _ _ _ | .xori _ _ _ => 0xFFFFFFFF#32

/-- Word `k` of the program, decoded at its address, is a BREAK (R401). -/
def breakAt (decoder : Decoder) (base : Word) (program : List Word) (k : Nat) : Prop :=
  ∃ w, program[k]? = some w ∧ (decoder w (base + BitVec.ofNat 32 (4 * k))).body = .instr .brk

/-- Word `k` is the first of the program that decodes to BREAK (R401). -/
def firstBreakAt (decoder : Decoder) (base : Word) (program : List Word) (k : Nat) : Prop :=
  breakAt decoder base program k ∧ ∀ j, j < k → ¬breakAt decoder base program j

/-- The domain of the load interface (R10). -/
def inDomain (base : Word) (program : List Word) : Prop :=
  base.toNat % 4 = 0 ∧ base.toNat + 4 * program.length ≤ 2 ^ 32

/-- The end of a cycle whose Fetch answered `o`: the termination test unless a fault was raised (R245, R248), and
`active` at its rest value (log 6). -/
def endOfCycle : Outcome State Fault Refusal → Outcome State Fault Refusal
  | .next t =>
    if t.status = .running then .next (rest (terminationTest t)) else .next (rest t)
  | .fault f => .fault f
  | .refused r => .refused r

/-- `t` differs from `s` in the latched and the model's own components at most: what the next snapshot, or the next
record a stage takes up, overwrites. -/
def sameBeforeSnapshot (s t : State) : Prop :=
  t.instrBase = s.instrBase ∧ t.pc = s.pc ∧ t.x = s.x ∧ t.mem = s.mem ∧ t.imem = s.imem ∧
    t.preIssue.entries = s.preIssue.entries ∧ t.preALU.entries = s.preALU.entries ∧
    t.postALU.entries = s.postALU.entries ∧ t.preMEM.entries = s.preMEM.entries ∧
    t.postMEM.entries = s.postMEM.entries ∧ t.rrtn = s.rrtn ∧ t.waiting = s.waiting ∧ t.cycle = s.cycle ∧
    t.status = s.status

/-- Candidate `c` has no hazard with the committed table (R171, R172). -/
def unreserved (s : State) (c : Record) : Prop :=
  (∀ d, recordDest c = some d → slotOf s.rrtc d = none) ∧ (∀ r ∈ recordSrcs c, slotOf s.rrtc r = none)

/-- Candidate `c` has no WAW, RAW, WAR or memory-order hazard with the earlier-address record `e` (R171 to R174). -/
def noHazard (c e : Record) : Prop :=
  (∀ d, recordDest c = some d → recordDest e ≠ some d ∧ d ∉ recordSrcs e) ∧
    (∀ r ∈ recordSrcs c, recordDest e ≠ some r) ∧
    (recordIsMemory c = true → recordIsStore e = false)

/-- `c1` and `c2` have no pair conflict (R180). -/
def independent (c1 c2 : Record) : Prop :=
  (∀ d, recordDest c1 = some d → recordDest c2 ≠ some d ∧ d ∉ recordSrcs c2) ∧
    (∀ d, recordDest c2 = some d → d ∉ recordSrcs c1)

/-- The entries at the positions `ks`. -/
def entriesAt (es : List Entry) (ks : List Nat) : List Entry := ks.filterMap fun k => es[k]?

/-- The conditions of R192 on candidate `c` of PreIssue, when the entries at the positions `before` have issued in this
scan: fewer than two have, PreALU has room, `c` has no hazard with the committed table or with an earlier-address entry
that has not issued (R196), and no pair conflict with one that has. -/
def readyToIssue (s : State) (c : Record) (before : List Nat) : Prop :=
  before.length < 2 ∧ s.preALU.entries.length + before.length < 2 ∧ unreserved s c ∧
    (∀ j e, s.preIssue.entries[j]? = some e → j ∉ before → e.record.address.toNat < c.address.toNat →
      noHazard c e.record) ∧
    ∀ e ∈ entriesAt s.preIssue.entries before, independent e.record c

end Sys2Proof.Statements

open Sys2Proof.Statements

/-! ## Encoding -/

/-- R87 to R94: every encoding, with its ignored bits at every value, decodes to the class and fields its rule gives. -/
def Obligations.EncodingsDecodeAsTabled : Prop :=
  (∀ (a : Word) (t : Target), decodeRecord (0b000000#6 ++ t) a = ⟨a, .instr (.j t)⟩) ∧
  (∀ (a : Word) (rs rt : RegIdx) (o : Imm), decodeRecord (0b000010#6 ++ rs ++ rt ++ o) a = ⟨a, .instr (.beq rs rt o)⟩) ∧
  (∀ (a : Word) (rs ignored : RegIdx) (o : Imm),
    decodeRecord (0b000100#6 ++ rs ++ ignored ++ o) a = ⟨a, .instr (.bgtz rs o)⟩) ∧
  (∀ (a : Word) (ignored : BitVec 26), decodeRecord (0b000101#6 ++ ignored) a = ⟨a, .instr .brk⟩) ∧
  encode .brk = 0x1400000D#32 ∧
  (∀ (a : Word) (b rt : RegIdx) (o : Imm), decodeRecord (0b000110#6 ++ b ++ rt ++ o) a = ⟨a, .instr (.sw b rt o)⟩) ∧
  (∀ (a : Word) (b rt : RegIdx) (o : Imm), decodeRecord (0b000111#6 ++ b ++ rt ++ o) a = ⟨a, .instr (.lw b rt o)⟩) ∧
  (∀ (a : Word) (rs rt rd : RegIdx) (ignored : BitVec 11),
    decodeRecord (0b110#3 ++ rs ++ rt ++ 0b000#3 ++ rd ++ ignored) a = ⟨a, .instr (.add rd rs rt)⟩ ∧
    decodeRecord (0b110#3 ++ rs ++ rt ++ 0b001#3 ++ rd ++ ignored) a = ⟨a, .instr (.sub rd rs rt)⟩ ∧
    decodeRecord (0b110#3 ++ rs ++ rt ++ 0b010#3 ++ rd ++ ignored) a = ⟨a, .instr (.mul rd rs rt)⟩ ∧
    decodeRecord (0b110#3 ++ rs ++ rt ++ 0b011#3 ++ rd ++ ignored) a = ⟨a, .instr (.and rd rs rt)⟩ ∧
    decodeRecord (0b110#3 ++ rs ++ rt ++ 0b100#3 ++ rd ++ ignored) a = ⟨a, .instr (.or rd rs rt)⟩ ∧
    decodeRecord (0b110#3 ++ rs ++ rt ++ 0b101#3 ++ rd ++ ignored) a = ⟨a, .instr (.xor rd rs rt)⟩ ∧
    decodeRecord (0b110#3 ++ rs ++ rt ++ 0b110#3 ++ rd ++ ignored) a = ⟨a, .instr (.nor rd rs rt)⟩ ∧
    decodeRecord (0b110#3 ++ rs ++ rt ++ 0b111#3 ++ rd ++ ignored) a = ⟨a, .unknown⟩) ∧
  (∀ (a : Word) (rs rt : RegIdx) (imm : Imm),
    decodeRecord (0b111#3 ++ rs ++ rt ++ 0b000#3 ++ imm) a = ⟨a, .instr (.addi rs rt imm)⟩ ∧
    decodeRecord (0b111#3 ++ rs ++ rt ++ 0b001#3 ++ imm) a = ⟨a, .instr (.andi rs rt imm)⟩ ∧
    decodeRecord (0b111#3 ++ rs ++ rt ++ 0b010#3 ++ imm) a = ⟨a, .instr (.ori rs rt imm)⟩ ∧
    decodeRecord (0b111#3 ++ rs ++ rt ++ 0b011#3 ++ imm) a = ⟨a, .instr (.xori rs rt imm)⟩ ∧
    decodeRecord (0b111#3 ++ rs ++ rt ++ 0b100#3 ++ imm) a = ⟨a, .unknown⟩ ∧
    decodeRecord (0b111#3 ++ rs ++ rt ++ 0b101#3 ++ imm) a = ⟨a, .unknown⟩ ∧
    decodeRecord (0b111#3 ++ rs ++ rt ++ 0b110#3 ++ imm) a = ⟨a, .unknown⟩ ∧
    decodeRecord (0b111#3 ++ rs ++ rt ++ 0b111#3 ++ imm) a = ⟨a, .unknown⟩)

/-- R96: a word is UNKNOWN exactly on the listed patterns, and every other word is one of the seventeen instructions. -/
def Obligations.UnknownWordsAreTheListedOnes : Prop :=
  ∀ (w a : Word),
    ((decodeRecord w a).body = .unknown ↔
      w.extractLsb' 29 3 ∈ [0b001#3, 0b010#3, 0b011#3, 0b100#3, 0b101#3] ∨
      (w.extractLsb' 29 3 = 0b000#3 ∧ w.extractLsb' 26 3 ∈ [0b001#3, 0b011#3]) ∨
      (w.extractLsb' 29 3 = 0b110#3 ∧ w.extractLsb' 16 3 = 0b111#3) ∨
      (w.extractLsb' 29 3 = 0b111#3 ∧ w.extractLsb' 16 3 ∈ [0b100#3, 0b101#3, 0b110#3, 0b111#3])) ∧
    ((decodeRecord w a).body = .unknown ∨ ∃ i, (decodeRecord w a).body = .instr i)

/-- R97: words that differ in ignored bits only decode to equal records, and the encoder writes those bits as zero but
for BREAK's canonical low bits. -/
def Obligations.IgnoredBitsDoNotMatter : Prop :=
  (∀ (v w a : Word), w.extractLsb' 26 6 = 0b000100#6 → v &&& 0xFFE0FFFF#32 = w &&& 0xFFE0FFFF#32 →
    decodeRecord v a = decodeRecord w a) ∧
  (∀ (v w a : Word), w.extractLsb' 26 6 = 0b000101#6 → v &&& 0xFC000000#32 = w &&& 0xFC000000#32 →
    decodeRecord v a = decodeRecord w a) ∧
  (∀ (v w a : Word), w.extractLsb' 29 3 = 0b110#3 → v &&& 0xFFFFF800#32 = w &&& 0xFFFFF800#32 →
    decodeRecord v a = decodeRecord w a) ∧
  (∀ i : Instr, i ≠ .brk → encode i &&& ~~~usedBits i = 0#32) ∧
  encode .brk = 0x1400000D#32

/-- Every instruction, with every operand at every value, decodes back from its word. -/
def Obligations.DecodeEncodeRoundTrip : Prop :=
  ∀ i : Instr, decode (encode i) = .ok i

/-- R101: the worked encodings. -/
def Obligations.WorkedEncodingsDecode : Prop :=
  decode 0xC2180800#32 = .ok (.add 1 2 3) ∧ decode 0xE1000098#32 = .ok (.addi 1 0 152) ∧
  decode 0x18230000#32 = .ok (.sw 1 3 0) ∧ decode 0x1C440000#32 = .ok (.lw 2 4 0) ∧
  decode 0x08220002#32 = .ok (.beq 1 2 2) ∧ decode 0x10200001#32 = .ok (.bgtz 1 1) ∧
  decode 0x00000024#32 = .ok (.j 36) ∧ decode 0x1400000D#32 = .ok .brk

/-- R27 and R28: the destination and the sources of every class. -/
def Obligations.DestinationAndSourcesOfEveryClass : Prop :=
  (∀ (a : Word) (rd rs rt : RegIdx), ∀ i ∈ [Instr.add rd rs rt, .sub rd rs rt, .mul rd rs rt, .and rd rs rt,
      .or rd rs rt, .xor rd rs rt, .nor rd rs rt],
    recordDest ⟨a, .instr i⟩ = some rd ∧ recordSrcs ⟨a, .instr i⟩ = [rs, rt]) ∧
  (∀ (a : Word) (rs rt : RegIdx) (imm : Imm), ∀ i ∈ [Instr.addi rs rt imm, .andi rs rt imm, .ori rs rt imm,
      .xori rs rt imm],
    recordDest ⟨a, .instr i⟩ = some rs ∧ recordSrcs ⟨a, .instr i⟩ = [rt]) ∧
  (∀ (a : Word) (b rt : RegIdx) (o : Imm),
    recordDest ⟨a, .instr (.lw b rt o)⟩ = some rt ∧ recordSrcs ⟨a, .instr (.lw b rt o)⟩ = [b] ∧
    recordDest ⟨a, .instr (.sw b rt o)⟩ = none ∧ recordSrcs ⟨a, .instr (.sw b rt o)⟩ = [b, rt]) ∧
  (∀ (a : Word) (rs rt : RegIdx) (o : Imm) (t : Target) (v : Word),
    recordDest ⟨a, .instr (.beq rs rt o)⟩ = none ∧ recordSrcs ⟨a, .instr (.beq rs rt o)⟩ = [rs, rt] ∧
    recordDest ⟨a, .instr (.bgtz rs o)⟩ = none ∧ recordSrcs ⟨a, .instr (.bgtz rs o)⟩ = [rs] ∧
    recordDest ⟨a, .instr (.j t)⟩ = none ∧ recordSrcs ⟨a, .instr (.j t)⟩ = [] ∧
    recordDest ⟨a, .instr .brk⟩ = none ∧ recordSrcs ⟨a, .instr .brk⟩ = [] ∧
    recordDest ⟨a, .data v⟩ = none ∧ recordSrcs ⟨a, .data v⟩ = [] ∧
    recordDest ⟨a, .unknown⟩ = none ∧ recordSrcs ⟨a, .unknown⟩ = [])

/-! ## Data memory -/

/-- A word written is read back, the canonical form is kept, and every byte outside the four written ones reads as
before. The byte order and the canonical form are the model's (log 1, log 2). -/
def Obligations.WordWriteReadsBackAndLeavesOtherBytes : Prop :=
  ∀ (m : Memory) (a : Nat) (v : Word), Memory.wf m = true →
    Memory.readWord (Memory.writeWord m a v) a = v ∧ Memory.wf (Memory.writeWord m a v) = true ∧
      ∀ b, (b < a ∨ a + 4 ≤ b) → Memory.readByte (Memory.writeWord m a v) b = Memory.readByte m b

/-- R65 and R66: `MemRead` and `MemWrite` reach the word `DMEM[(a - DATA_BASE) / 4]` of a valid address, that word
only, and raise `DataAddressFault(a)` for any other address. -/
def Obligations.MemReadAndMemWriteReachOneWord : Prop :=
  ∀ (s : State) (a v : Word), Memory.wf s.mem = true → s.instrBase.toNat % 4 = 0 →
    (a.toNat % 4 = 0 ∧ dataBase s ≤ a.toNat ∧ a.toNat < dataBase s + 4 * ndata s →
      memRead a s = .ok (dmemWord s ((a.toNat - dataBase s) / 4)) ∧
      ∃ m, memWrite a v s = { s with mem := m } ∧
        dmemWord { s with mem := m } ((a.toNat - dataBase s) / 4) = v ∧
        ∀ j, j ≠ (a.toNat - dataBase s) / 4 → dmemWord { s with mem := m } j = dmemWord s j) ∧
    (¬(a.toNat % 4 = 0 ∧ dataBase s ≤ a.toNat ∧ a.toNat < dataBase s + 4 * ndata s) →
      memRead a s = .error (.dataAddressFault a) ∧ memWrite a v s = aborted (.dataAddressFault a) s)

/-! ## Load and reset -/

/-- R401: program load, with any decoder that R12 allows. -/
def Obligations.ProgramLoadFollowsTheTwoModes : Prop :=
  ∀ (decoder : Decoder) (base : Word) (program : List Word), wellFormedDecoder decoder → inDomain base program →
    ∃ s, loadProgram decoder base program = some s ∧ s.imem.length = program.length ∧
      (∀ k, firstBreakAt decoder base program k → nexecOf s.imem = k + 1) ∧
      ((∀ k, ¬breakAt decoder base program k) → nexecOf s.imem = program.length) ∧
      (∀ k w, program[k]? = some w → s.imem[k]? = some
        (if k < nexecOf s.imem then decoder w (base + BitVec.ofNat 32 (4 * k))
         else ⟨base + BitVec.ofNat 32 (4 * k), .data w⟩)) ∧
      dataBase s = base.toNat + 4 * nexecOf s.imem ∧ ndata s = program.length - nexecOf s.imem ∧
      ∀ j w, program[nexecOf s.imem + j]? = some w → dmemWord s j = w

/-- R380 and R390: the state after reset, component by component, with any decoder that R12 allows. -/
def Obligations.ResetLeavesTheTabledValues : Prop :=
  ∀ (decoder : Decoder) (base : Word) (program : List Word), wellFormedDecoder decoder → inDomain base program →
    ∃ s, loadProgram decoder base program = some s ∧ s.instrBase = base ∧ s.pc = base ∧ (∀ r, readReg s r = 0#32) ∧
      dmemWords s = program.drop (nexecOf s.imem) ∧ s.imem = loadRecords decoder base program ∧
      s.preIssue = ⟨[], false⟩ ∧ s.preALU = ⟨[], false⟩ ∧ s.postALU = ⟨[], false⟩ ∧ s.preMEM = ⟨[], false⟩ ∧
      s.postMEM = ⟨[], false⟩ ∧ s.lastPreIssue = [] ∧
      (∀ r, slotOf s.rrtc r = none ∧ slotOf s.rrtn r = none) ∧ s.waiting = none ∧ s.resolved = none ∧ s.cycle = 0 ∧
      (0 < nexecOf s.imem → s.status = .running) ∧ (nexecOf s.imem = 0 → s.status = .terminated)

/-- R403: the empty program is legal, ends at reset, and no cycle runs, whatever the decoder. -/
def Obligations.EmptyProgramRunsNoCycle : Prop :=
  ∀ (decoder : Decoder) (base : Word), base.toNat % 4 = 0 →
    ∃ s, loadProgram decoder base [] = some s ∧ dataBase s = s.instrBase.toNat ∧ s.status = .terminated ∧ step s = .next s

/-- With any decoder that R12 allows, and the default one is such, every program of the domain is loaded into a state
that meets the machine's invariant. -/
def Obligations.EveryLoadEstablishesTheInvariant : Prop :=
  (∀ (decoder : Decoder) (base : Word) (program : List Word), wellFormedDecoder decoder → inDomain base program →
    ∃ s, loadProgram decoder base program = some s ∧ CoreInvariant s) ∧
  wellFormedDecoder decodeRecord

/-- The model's `State.reset` (the empty program at the reference base: log 3, log 4) meets the machine's invariant. -/
def Obligations.ResetMeetsTheInvariant : Prop := CoreInvariant State.reset

/-! ## Queues, table, snapshot -/

/-- `push` appends below capacity and raises `QueueOverflow` at capacity (R112, R110, R341, R350). -/
def Obligations.PushAppendsOrRaisesOverflow : Prop :=
  ∀ (q : QueueName) (e : Entry) (s : State),
    capacity .preIssue = 4 ∧ capacity .preALU = 2 ∧ capacity .postALU = 1 ∧ capacity .preMEM = 1 ∧
      capacity .postMEM = 1 ∧
    ((queueOf s q).entries.length = capacity q → push q e s = aborted (.queueOverflow q) s) ∧
    ((queueOf s q).entries.length < capacity q →
      push q e s = setEntries q ((queueOf s q).entries ++ [e]) s ∧
        queueOf (push q e s) q = { queueOf s q with entries := (queueOf s q).entries ++ [e] } ∧
        ∀ p, p ≠ q → queueOf (push q e s) p = queueOf s p)

/-- R120, R121, R122 and R123: the four parts of the snapshot, and nothing else that the spec gives the machine. The model's
own `notices` (log 7) are left out of the statement. -/
def Obligations.SnapshotLatchesItsFourParts : Prop :=
  ∀ s : State, QueuesBounded s →
    snapshot s = { s with
      rrtc := s.rrtn
      lastPreIssue := s.preIssue.entries.map fun e => e.record
      preIssue := { s.preIssue with lastFull := decide (s.preIssue.entries.length = 4) }
      preALU := { s.preALU with lastFull := decide (s.preALU.entries.length = 2) }
      postALU := { s.postALU with lastFull := decide (s.postALU.entries.length = 1) }
      preMEM := { s.preMEM with lastFull := decide (s.preMEM.entries.length = 1) }
      postMEM := { s.postMEM with lastFull := decide (s.postMEM.entries.length = 1) }
      resolved := none
      notices := (snapshot s).notices }

/-! ## The seventeen instructions, stage by stage -/

/-- R211: the seven register-register instructions in the ALU stage. Only PostALU changes. -/
def Obligations.RegisterArithmeticInTheAluStage : Prop :=
  ∀ (s : State) (rd rs rt : RegIdx), s.active.phase = .alu → s.postALU.entries = [] →
    exec (.add rd rs rt) s =
      .next (addPostALU (entryOf s (.add rd rs rt) (some (readReg s rs + readReg s rt))) s) ∧
    exec (.sub rd rs rt) s =
      .next (addPostALU (entryOf s (.sub rd rs rt) (some (readReg s rs - readReg s rt))) s) ∧
    exec (.mul rd rs rt) s =
      .next (addPostALU (entryOf s (.mul rd rs rt) (some (readReg s rs * readReg s rt))) s) ∧
    exec (.and rd rs rt) s =
      .next (addPostALU (entryOf s (.and rd rs rt) (some (readReg s rs &&& readReg s rt))) s) ∧
    exec (.or rd rs rt) s =
      .next (addPostALU (entryOf s (.or rd rs rt) (some (readReg s rs ||| readReg s rt))) s) ∧
    exec (.xor rd rs rt) s =
      .next (addPostALU (entryOf s (.xor rd rs rt) (some (readReg s rs ^^^ readReg s rt))) s) ∧
    exec (.nor rd rs rt) s =
      .next (addPostALU (entryOf s (.nor rd rs rt) (some (~~~(readReg s rs ||| readReg s rt)))) s)

/-- R212: the four register-immediate instructions in the ALU stage: `rt` is read, the immediate is zero-extended.
Only PostALU changes. -/
def Obligations.ImmediateArithmeticInTheAluStage : Prop :=
  ∀ (s : State) (rs rt : RegIdx) (imm : Imm), s.active.phase = .alu → s.postALU.entries = [] →
    exec (.addi rs rt imm) s =
      .next (addPostALU (entryOf s (.addi rs rt imm) (some (readReg s rt + imm.setWidth 32))) s) ∧
    exec (.andi rs rt imm) s =
      .next (addPostALU (entryOf s (.andi rs rt imm) (some (readReg s rt &&& imm.setWidth 32))) s) ∧
    exec (.ori rs rt imm) s =
      .next (addPostALU (entryOf s (.ori rs rt imm) (some (readReg s rt ||| imm.setWidth 32))) s) ∧
    exec (.xori rs rt imm) s =
      .next (addPostALU (entryOf s (.xori rs rt imm) (some (readReg s rt ^^^ imm.setWidth 32))) s)

/-- R213: SW and LW in the ALU stage compute the effective address, whatever its validity. Only PreMEM changes. -/
def Obligations.EffectiveAddressInTheAluStage : Prop :=
  ∀ (s : State) (b rt : RegIdx) (o : Imm), s.active.phase = .alu → s.preMEM.entries = [] →
    exec (.sw b rt o) s = .next (addPreMEM (entryOf s (.sw b rt o) (some (readReg s b + o.setWidth 32))) s) ∧
    exec (.lw b rt o) s = .next (addPreMEM (entryOf s (.lw b rt o) (some (readReg s b + o.setWidth 32))) s)

/-- The twelve classes with a destination in Writeback: `x[d]` becomes the cached result and `RRTn[d]` free, whatever the
register (R22: register 0 is written like any other); every other register, slot and component is unchanged. -/
def Obligations.WritebackCommitsAnyDestination : Prop :=
  ∀ (s : State) (i : Instr) (d : RegIdx) (v : Word), s.active.phase = .writeback (some v) → destOf i = some d →
    ∃ t, exec i s = .next t ∧ readReg t d = v ∧ (∀ r, r ≠ d → readReg t r = readReg s r) ∧
      slotOf t.rrtn d = none ∧ (∀ r, r ≠ d → slotOf t.rrtn r = slotOf s.rrtn r) ∧
      t = { s with x := t.x, rrtn := t.rrtn }

/-- The thirteen issuable classes at Fetch, with live room in PreIssue: the record enters PreIssue and `pc` advances (R146). -/
def Obligations.OrdinaryInstructionEntersPreIssue : Prop :=
  ∀ (s : State) (i : Instr) (slot : FetchSlot) (fd : Option RegIdx), s.active.phase = .fetch slot fd →
    isControl i = false → s.preIssue.entries.length < 4 →
      exec i s = .next { addPreIssue (entryOf s i none) s with pc := s.pc + 4#32 }

/-- The thirteen issuable classes at Issue, with room in PreALU: the record enters PreALU and its destination, if any, is
reserved under its address (R193, R125). -/
def Obligations.IssuedInstructionReservesItsDestination : Prop :=
  ∀ (s : State) (i : Instr), s.active.phase = .issue → isControl i = false → s.preALU.entries.length < 2 →
    ∃ t, exec i s = .next t ∧ t = { addPreALU (entryOf s i none) s with rrtn := t.rrtn } ∧
      (∀ d, destOf i = some d → slotOf t.rrtn d = some s.active.address) ∧
      (∀ r, destOf i ≠ some r → slotOf t.rrtn r = slotOf s.rrtn r)

/-- R221: SW in the MEM stage stores its data register, as it stands then, at the address computed before; nothing is
pushed, and every byte outside the stored word reads as before. -/
def Obligations.StoreInTheMemStage : Prop :=
  ∀ (s : State) (b rt : RegIdx) (o : Imm) (a : Word), Memory.wf s.mem = true → s.active.phase = .mem (some a) →
    validData s a = true →
    ∃ t, exec (.sw b rt o) s = .next t ∧ t = { s with mem := t.mem } ∧ memRead a t = .ok (readReg s rt) ∧
      ∀ n, (n < a.toNat ∨ a.toNat + 4 ≤ n) → Memory.readByte t.mem n = Memory.readByte s.mem n

/-- R222: LW in the MEM stage reads the word at the address computed before and pushes it into PostMEM. Data memory and
every register are unchanged. -/
def Obligations.LoadInTheMemStage : Prop :=
  ∀ (s : State) (b rt : RegIdx) (o : Imm) (a v : Word), s.active.phase = .mem (some a) → s.postMEM.entries = [] →
    memRead a s = .ok v →
    exec (.lw b rt o) s = .next (addPostMEM (entryOf s (.lw b rt o) (some v)) s)

/-- R64: which data addresses are valid, and that LW and SW raise `DataAddressFault` for every other address in the MEM
stage and not in the ALU stage. -/
def Obligations.InvalidAddressFaultsInTheMemStage : Prop :=
  ∀ (s : State) (b rt : RegIdx) (o : Imm) (a : Word),
    (validData s a = true ↔ a.toNat % 4 = 0 ∧ dataBase s ≤ a.toNat ∧ a.toNat < dataBase s + 4 * ndata s) ∧
    (s.active.phase = .mem (some a) → validData s a = false →
      exec (.sw b rt o) s = .next (aborted (.dataAddressFault a) s) ∧
      exec (.lw b rt o) s = .next (aborted (.dataAddressFault a) s)) ∧
    (s.active.phase = .alu → s.preMEM.entries = [] → ∀ i ∈ [Instr.sw b rt o, .lw b rt o],
      ∃ t, exec i s = .next t ∧ t.status = s.status)

/-- A J that a fetch slot reaches resolves in that cycle, in every state, to its absolute target (R300, R155). -/
def Obligations.JumpResolvesInEveryState : Prop :=
  ∀ (s : State) (target : Target) (slot : FetchSlot) (fd : Option RegIdx), s.active.phase = .fetch slot fd →
    exec (.j target) s =
      .next (resolvedTo (.j target) ((s.active.address &&& 0xF0000000#32) ||| (target.setWidth 32 <<< 2)) s)

/-- A BEQ that a fetch slot reaches waits while a source register is blocked, and otherwise resolves (R301, R150 to R153). -/
def Obligations.BranchEqualWaitsOrResolves : Prop :=
  ∀ (s : State) (rs rt : RegIdx) (o : Imm) (slot : FetchSlot) (fd : Option RegIdx), s.active.phase = .fetch slot fd →
    ((sourceBlocked s slot fd rs ∨ sourceBlocked s slot fd rt) →
      exec (.beq rs rt o) s = .next (waitingFor (.beq rs rt o) s)) ∧
    (¬(sourceBlocked s slot fd rs ∨ sourceBlocked s slot fd rt) →
      (readReg s rs = readReg s rt → exec (.beq rs rt o) s =
        .next (resolvedTo (.beq rs rt o) (s.active.address + 4#32 + (o.setWidth 32 <<< 2)) s)) ∧
      (readReg s rs ≠ readReg s rt → exec (.beq rs rt o) s =
        .next (resolvedTo (.beq rs rt o) (s.active.address + 4#32) s)))

/-- A BGTZ that a fetch slot reaches waits while its source register is blocked, and otherwise resolves: taken exactly
when the register, as two's complement, is greater than zero (R302, R150 to R153). -/
def Obligations.BranchGreaterThanZeroWaitsOrResolves : Prop :=
  ∀ (s : State) (rs : RegIdx) (o : Imm) (slot : FetchSlot) (fd : Option RegIdx), s.active.phase = .fetch slot fd →
    (sourceBlocked s slot fd rs → exec (.bgtz rs o) s = .next (waitingFor (.bgtz rs o) s)) ∧
    (¬sourceBlocked s slot fd rs →
      (0 < (readReg s rs).toInt → exec (.bgtz rs o) s =
        .next (resolvedTo (.bgtz rs o) (s.active.address + 4#32 + (o.setWidth 32 <<< 2)) s)) ∧
      ((readReg s rs).toInt ≤ 0 → exec (.bgtz rs o) s =
        .next (resolvedTo (.bgtz rs o) (s.active.address + 4#32) s)))

/-- A BREAK that a fetch slot reaches resolves in that cycle to `DATA_BASE`, which in a loaded program is the address of
the word after it (R303). Where `DATA_BASE` is 2^32 the program counter holds it modulo 2^32 (log 12). -/
def Obligations.BreakResolvesToDataBase : Prop :=
  ∀ (s : State) (slot : FetchSlot) (fd : Option RegIdx), s.active.phase = .fetch slot fd →
    exec .brk s = .next (resolvedTo .brk (BitVec.ofNat 32 (dataBase s)) s) ∧
    (ProgramLoaded s → inExec s s.active.address = true →
      recordAt s s.active.address = some ⟨s.active.address, .instr .brk⟩ → dataBase s = s.active.address.toNat + 4)

/-- ALU, MEM, Writeback and Fetch raise `OperandAbsent` for a record of a class they cannot handle, DATA and UNKNOWN
among them, and MEM and Writeback for an entry without the cached value they need (R149, R215, R223, R233, R330, R331,
R342). Issue tests no class and raises nothing (log 14). -/
def Obligations.StageRefusesClassesItCannotHandle : Prop :=
  ∀ (s : State) (r : Record) (c : Option Word) (slot : FetchSlot) (fd : Option RegIdx),
    (recordIsIssuable r = false →
      runRecord r .alu s = .next (aborted (.operandAbsent r.address) (activate r .alu s))) ∧
    ((recordIsMemory r = false ∨ c = none) →
      runRecord r (.mem c) s = .next (aborted (.operandAbsent r.address) (activate r (.mem c) s))) ∧
    ((recordDest r = none ∨ c = none) →
      runRecord r (.writeback c) s = .next (aborted (.operandAbsent r.address) (activate r (.writeback c) s))) ∧
    (recordIsData r = true →
      runRecord r (.fetch slot fd) s = .next (aborted (.operandAbsent r.address) (activate r (.fetch slot fd) s)))

/-! ## The stages -/

/-- ALU, MEM and each Writeback lane pop the head of their queue and run its record, whatever its class, and do nothing
on an empty queue; to run an instruction's record is `exec` of the instruction (R210, R220, R230). -/
def Obligations.BackEndStagesRunTheirHead : Prop :=
  ∀ (s : State) (r : Record) (c : Option Word) (es : List Entry),
    (s.preALU.entries = [] → aluStage s = .next s) ∧ (s.preMEM.entries = [] → memStage s = .next s) ∧
    (s.postMEM.entries = [] → commitLane .postMEM s = .next s) ∧
    (s.postALU.entries = [] → commitLane .postALU s = .next s) ∧
    (s.preALU.entries = ⟨r, c⟩ :: es → aluStage s =
      runRecord r .alu { s with preALU := { s.preALU with entries := es } }) ∧
    (s.preMEM.entries = ⟨r, c⟩ :: es → memStage s =
      runRecord r (.mem c) { s with preMEM := { s.preMEM with entries := es } }) ∧
    (s.postMEM.entries = ⟨r, c⟩ :: es → commitLane .postMEM s =
      runRecord r (.writeback c) { s with postMEM := { s.postMEM with entries := es } }) ∧
    (s.postALU.entries = ⟨r, c⟩ :: es → commitLane .postALU s =
      runRecord r (.writeback c) { s with postALU := { s.postALU with entries := es } }) ∧
    (∀ i p, r.body = .instr i → runRecord r p s = exec i { s with active := ⟨r.address, p⟩ })

/-- Writeback of two well-formed entries commits both lanes, PostMEM first, and leaves both queues empty (R230, R234). -/
def Obligations.WritebackCommitsBothLanes : Prop :=
  ∀ (s : State) (m a : Record) (dm da : RegIdx) (vm va : Word), s.status = .running →
    s.postMEM.entries = [⟨m, some vm⟩] → s.postALU.entries = [⟨a, some va⟩] →
    recordDest m = some dm → recordDest a = some da →
    ∃ t, writebackStage s = .next t ∧ readReg t da = va ∧ (dm ≠ da → readReg t dm = vm) ∧
      (∀ r, r ≠ dm → r ≠ da → readReg t r = readReg s r) ∧
      slotOf t.rrtn dm = none ∧ slotOf t.rrtn da = none ∧
      (∀ r, r ≠ dm → r ≠ da → slotOf t.rrtn r = slotOf s.rrtn r) ∧
      t = { s with
        x := t.x, rrtn := t.rrtn, active := t.active
        postMEM := { s.postMEM with entries := [] }, postALU := { s.postALU with entries := [] } }

/-- A queue that was full at the snapshot stops its producer for the whole cycle: Issue on PreALU (R190), Fetch on
PreIssue (R141). -/
def Obligations.FullLatchStopsTheProducer : Prop :=
  ∀ s : State, (s.preALU.lastFull = true → issueStage s = .next s) ∧
    (s.preIssue.lastFull = true → fetchStage s = .next s)

/-- Issue moves at most two entries in scan order into PreALU, reserves their destinations, and leaves the others sorted
stably by address (R191, R193, R198). -/
def Obligations.IssueMovesAtMostTwoAndSorts : Prop :=
  ∀ s : State, s.status = .running → s.preALU.lastFull = false →
    ∃ (t : State) (issued left : List Entry), issueStage s = .next t ∧
      issued.length ≤ 2 ∧ issued.Sublist s.preIssue.entries ∧ left.Sublist s.preIssue.entries ∧
      (issued ++ left).Perm s.preIssue.entries ∧
      t.preALU.entries = s.preALU.entries ++ issued.map (fun e => ⟨e.record, none⟩) ∧
      t.preIssue.entries.Perm left ∧
      t.preIssue.entries.Pairwise (fun e f => e.record.address.toNat ≤ f.record.address.toNat) ∧
      (∀ a, t.preIssue.entries.filter (fun e => e.record.address == a) =
        left.filter (fun e => e.record.address == a)) ∧
      (∀ e ∈ issued, ∀ d, recordDest e.record = some d → slotOf t.rrtn d = some e.record.address) ∧
      (∀ r, (∀ e ∈ issued, recordDest e.record ≠ some r) → slotOf t.rrtn r = slotOf s.rrtn r) ∧
      t = { s with
        preIssue := { s.preIssue with entries := t.preIssue.entries }
        preALU := { s.preALU with entries := t.preALU.entries }
        rrtn := t.rrtn
        active := t.active }

/-- An entry that issues has no hazard: its registers are free in the committed table, and no earlier-address entry that
stays behind writes or reads its destination, writes one of its sources, or is a store it must not pass; and two entries
that issue together are independent (R176, R180, R197, R201). -/
def Obligations.IssuedEntriesHaveNoHazard : Prop :=
  ∀ (s t : State) (issued : List Entry), s.status = .running → s.preALU.lastFull = false → issueStage s = .next t →
    t.preALU.entries = s.preALU.entries ++ issued →
    (∀ c ∈ issued, unreserved s c.record ∧
      ∀ e ∈ t.preIssue.entries, e.record.address.toNat < c.record.address.toNat → noHazard c.record e.record) ∧
    issued.Pairwise (fun c1 c2 => independent c1.record c2.record)

/-- An entry of PreIssue issues exactly when it meets the conditions of R192 at its turn of the scan, whether or not an
entry before it stayed behind; the entries that do not issue stay in PreIssue (R191, R192, R196, R197). -/
def Obligations.EntriesIssueExactlyWhenReady : Prop :=
  ∀ s : State, s.status = .running → s.preALU.lastFull = false →
    ∃ (t : State) (issued : List Nat), issueStage s = .next t ∧ issued.Pairwise (fun j k => j < k) ∧
      (∀ k ∈ issued, k < s.preIssue.entries.length) ∧
      t.preALU.entries =
        s.preALU.entries ++ (entriesAt s.preIssue.entries issued).map (fun e => ⟨e.record, none⟩) ∧
      t.preIssue.entries.Perm (entriesAt s.preIssue.entries
        ((List.range s.preIssue.entries.length).filter (fun k => decide (k ∉ issued)))) ∧
      ∀ k c, s.preIssue.entries[k]? = some c →
        (k ∈ issued ↔ readyToIssue s c.record (issued.filter (fun j => decide (j < k))))

/-- Fetch pushes at most two records, the ones at `pc` and at `pc + 4`, in that order, never a control-transfer, UNKNOWN
or DATA record, and never beyond the capacity; unless a control-transfer instruction resolves, `pc` moves by at most two
words (R142, R143, R146, R148, R33). -/
def Obligations.FetchPushesAtMostTwoInOrder : Prop :=
  ∀ (s t : State), s.status = .running → s.resolved = none → fetchStage s = .next t →
    ∃ pushed : List Record, t.preIssue.entries = s.preIssue.entries ++ pushed.map (fun r => ⟨r, none⟩) ∧
      pushed.length ≤ 2 ∧ (s.preIssue.entries.length ≤ 4 → t.preIssue.entries.length ≤ 4) ∧
      (∀ r ∈ pushed, recordIsIssuable r = true ∧
        ((inExec s s.pc = true ∧ recordAt s s.pc = some r) ∨
          (inExec s (s.pc + 4#32) = true ∧ recordAt s (s.pc + 4#32) = some r))) ∧
      (∀ r1 r2, pushed = [r1, r2] → recordAt s s.pc = some r1 ∧ recordAt s (s.pc + 4#32) = some r2) ∧
      (t.resolved = none → t.pc = s.pc ∨ t.pc = s.pc + 4#32 ∨ t.pc = s.pc + 4#32 + 4#32) ∧
      (∀ r, t.resolved = some r → recordIsControl r = true ∧
        (recordAt s s.pc = some r ∨ recordAt s (s.pc + 4#32) = some r))

/-- R147: an UNKNOWN word uses up its slot: `pc` advances, the notice is signalled, nothing is pushed and fetching goes on
with the next slot. Where the notice is kept is the model's choice (log 7). -/
def Obligations.UnknownWordIsPassedOver : Prop :=
  ∀ (s : State) (a : Word) (fd : Option RegIdx), s.status = .running → inExec s s.pc = true →
    recordAt s s.pc = some ⟨a, .unknown⟩ →
    (s.preIssue.lastFull = false → fetchStage s = fetchSecond none { s with
      pc := s.pc + 4#32, notices := s.notices ++ [.unknownOpcode a], active := ⟨a, .fetch .one none⟩ }) ∧
    fetchSecond fd s = .next { s with
      pc := s.pc + 4#32, notices := s.notices ++ [.unknownOpcode a], active := ⟨a, .fetch .two fd⟩ }

/-- What each stage writes, and that it writes nothing else (R129, last column), beside `status` when it raises and the
model's own `active` and `notices`. -/
def Obligations.EachStageWritesOnlyItsOwn : Prop :=
  ∀ s t : State, s.status = .running →
    (writebackStage s = .next t → t = { s with
      x := t.x, rrtn := t.rrtn, status := t.status, active := t.active
      postMEM := { s.postMEM with entries := t.postMEM.entries }
      postALU := { s.postALU with entries := t.postALU.entries } }) ∧
    (memStage s = .next t → t = { s with
      mem := t.mem, status := t.status, active := t.active
      preMEM := { s.preMEM with entries := t.preMEM.entries }
      postMEM := { s.postMEM with entries := t.postMEM.entries } }) ∧
    (aluStage s = .next t → t = { s with
      status := t.status, active := t.active
      preALU := { s.preALU with entries := t.preALU.entries }
      postALU := { s.postALU with entries := t.postALU.entries }
      preMEM := { s.preMEM with entries := t.preMEM.entries } }) ∧
    (issueStage s = .next t → t = { s with
      rrtn := t.rrtn, status := t.status, active := t.active
      preIssue := { s.preIssue with entries := t.preIssue.entries }
      preALU := { s.preALU with entries := t.preALU.entries } }) ∧
    (fetchStage s = .next t → t = { s with
      pc := t.pc, waiting := t.waiting, resolved := t.resolved
      status := t.status, active := t.active, notices := t.notices
      preIssue := { s.preIssue with entries := t.preIssue.entries } })

/-! ## The cycle -/

/-- R244: the six steps in their order, then the termination test. -/
def Obligations.CycleIsTheSixSteps : Prop :=
  ∀ s s2 s3 s4 s5 s6 : State, s.status = .running →
    writebackStage (snapshot { s with cycle := s.cycle + 1 }) = .next s2 → s2.status = .running →
    memStage s2 = .next s3 → s3.status = .running → aluStage s3 = .next s4 → s4.status = .running →
    issueStage s4 = .next s5 → s5.status = .running → fetchStage s5 = .next s6 → s6.status = .running →
    step s = .next (rest (if inExec s6 s6.pc then s6 else { s6 with status := .terminated }))

/-- A step runs the instruction at `pc`: with the back-end stages and Issue done, Fetch's first slot is `exec` of the
instruction whose record stands at `pc` (with the default decoder: the instruction that the word there decodes to),
followed, for an instruction that is no control transfer, by the second slot; then the cycle ends. The second slot is
nothing outside the executable region or for an ordinary instruction when PreIssue is full, and otherwise `exec` of the
instruction at the `pc` of then, after which the slots are used up (R142 to R146, R148, R151, R157, R244). `exec` and
`active` per stage are the model's (log 6). -/
def Obligations.StepRunsTheInstructionAtPc : Prop :=
  (∀ (s u : State) (a : Word) (i : Instr), s.status = .running → s.preIssue.entries.length < 4 →
    backEnd (beginCycle s) = .next u → u.status = .running →
    inExec s s.pc = true → recordAt s s.pc = some ⟨a, .instr i⟩ →
    step s = endOfCycle
      (if isControl i then exec i { u with active := ⟨a, .fetch .one none⟩ }
       else thenIfRunning (exec i { u with active := ⟨a, .fetch .one none⟩ }) (fetchSecond (destOf i)))) ∧
  (∀ (w a : Word) (i : Instr), decode w = .ok i → decodeRecord w a = ⟨a, .instr i⟩) ∧
  (∀ (s : State) (fd : Option RegIdx), inExec s s.pc = false → fetchSecond fd s = .next s) ∧
  (∀ (s : State) (fd : Option RegIdx) (a : Word) (i : Instr), inExec s s.pc = true →
    recordAt s s.pc = some ⟨a, .instr i⟩ →
    fetchSecond fd s =
      if isControl i = false ∧ 4 ≤ s.preIssue.entries.length then .next s
      else exec i { s with active := ⟨a, .fetch .two fd⟩ })

/-- R240 and R43: a cycle is performed only while RUNNING, nothing leads out of TERMINATED and ABORTED, and `cycle` is 0
after reset and counts the passes. Every state has a next state (log 8). -/
def Obligations.OnlyRunningMachinesCycle : Prop :=
  (∀ s : State, (s.status ≠ .running → step s = .next s) ∧
    (s.status = .running → ∃ t, step s = .next t ∧ t.cycle = s.cycle + 1)) ∧
  State.reset.cycle = 0

/-- The instruction record file and `INSTR_BASE` never change (R404), so neither do the regions. -/
def Obligations.ProgramNeverChanges : Prop :=
  ∀ s t : State, step s = .next t →
    t.imem = s.imem ∧ t.instrBase = s.instrBase ∧ dataBase t = dataBase s ∧ ndata t = ndata s

/-- R245: after a cycle that raised no fault the run is over exactly when `pc` is outside the executable region. -/
def Obligations.RunEndsExactlyOutsideTheRegion : Prop :=
  ∀ s t : State, s.status = .running → step s = .next t → NotAborted t →
    (t.status = .terminated ↔ ¬(s.instrBase.toNat ≤ t.pc.toNat ∧ t.pc.toNat < dataBase s)) ∧
    (t.status = .running ↔ s.instrBase.toNat ≤ t.pc.toNat ∧ t.pc.toNat < dataBase s)

/-- R156: a BREAK that a fetch slot reaches ends the run in that cycle: in the first slot, and in the second behind an
ordinary instruction or an UNKNOWN word (R303). The premise on `DATA_BASE` shuts out the one layout in which `DATA_BASE`
wraps to a base of 0 (log 12). -/
def Obligations.BreakEndsTheRun : Prop :=
  ∀ (s t : State) (a : Word), s.status = .running → s.preIssue.entries.length < 4 → inExec s s.pc = true →
    inExec s a = true → recordAt s a = some ⟨a, .instr .brk⟩ →
    (a = s.pc ∨ a = s.pc + 4#32 ∧
      ∃ r, recordAt s s.pc = some r ∧ (recordIsIssuable r = true ∨ r.body = .unknown)) →
    (dataBase s < 2 ^ 32 ∨ dataBase s = 2 ^ 32 ∧ s.instrBase ≠ 0#32) →
    step s = .next t → NotAborted t →
    t.pc = BitVec.ofNat 32 (dataBase s) ∧ t.status = .terminated ∧ t.resolved = some ⟨a, .instr .brk⟩ ∧
      t.waiting = none

/-- A bad address at the head of PreMEM aborts the cycle at MEM: Writeback has run, ALU, Issue and Fetch have not, and the
state keeps what it had (R343, R350, R248). -/
def Obligations.BadAddressAbortsTheCycleAtMem : Prop :=
  ∀ (s : State) (r : Record) (a : Word) (es : List Entry), s.status = .running → QueuesHoldTheirClasses s →
    s.preMEM.entries = ⟨r, some a⟩ :: es → validData s a = false →
    ∃ t, step s = .next t ∧ t.status = .aborted (.dataAddressFault a) ∧ t.cycle = s.cycle + 1 ∧ t.mem = s.mem ∧
      t.pc = s.pc ∧ t.waiting = s.waiting ∧ t.resolved = none ∧ t.preIssue.entries = s.preIssue.entries ∧
      t.preALU.entries = s.preALU.entries ∧ t.postMEM.entries = s.postMEM.entries.tail ∧
      t.postALU.entries = s.postALU.entries.tail ∧ step t = .next t

/-- What the next snapshot overwrites does not influence a cycle: the committed table, `LastPreIssue`, `resolved` and the
latches (R115, R120 to R123), and the model's own `active` and `notices` (log 6, log 7). -/
def Obligations.LatchedStateDoesNotInfluenceTheCycle : Prop :=
  ∀ s t : State, s.status = .running → sameBeforeSnapshot s t → step t = step s

/-- Only Writeback changes a register: one that differs after a cycle was the destination of the head of PostMEM or of
PostALU, and holds that entry's cached result (R23, R231). -/
def Obligations.OnlyWritebackChangesRegisters : Prop :=
  ∀ (s t : State) (r : RegIdx), step s = .next t → readReg t r ≠ readReg s r →
    ∃ e, (s.postMEM.entries.head? = some e ∨ s.postALU.entries.head? = some e) ∧ recordDest e.record = some r ∧
      e.cached = some (readReg t r)

/-- Only the store at the head of PreMEM changes data memory, and only the four bytes at its address (R68, R72). -/
def Obligations.OnlyTheStoreAtMemChangesMemory : Prop :=
  ∀ (s t : State) (n : Nat), step s = .next t → Memory.readByte t.mem n ≠ Memory.readByte s.mem n →
    ∃ e a, s.preMEM.entries.head? = some e ∧ recordIsStore e.record = true ∧ e.cached = some a ∧
      validData s a = true ∧ a.toNat ≤ n ∧ n < a.toNat + 4

/-! ## Invariants that every step keeps -/

/-- R46: no step takes a queue beyond its capacity, in any state. -/
def Obligations.QueueCapacitiesAreKept : Prop :=
  ∀ s t : State, QueuesBounded s → step s = .next t → QueuesBounded t

/-- Every queue keeps holding the classes and the cached results it may hold (R48, R30). -/
def Obligations.QueueClassesAreKept : Prop :=
  ∀ s t : State, QueuesHoldTheirClasses s → step s = .next t → QueuesHoldTheirClasses t

/-- R47: at most one outstanding writer per register, and the next-cycle table names exactly the outstanding writers. -/
def Obligations.OneOutstandingWriterIsKept : Prop :=
  ∀ s t : State, QueuesBounded s → QueuesHoldTheirClasses s → OneWriterPerRegister s → step s = .next t →
    NotAborted t → OneWriterPerRegister t

/-- `pc` stays a multiple of 4 in a loaded machine (R32, R306). -/
def Obligations.PcStaysAligned : Prop :=
  ∀ s t : State, ProgramLoaded s → PcAligned s → step s = .next t → PcAligned t

/-- Data memory keeps its canonical form and lists nothing outside the data region, so no store reaches the executable
region (R62, R64, R75, log 1, log 2). -/
def Obligations.DataMemoryStaysInItsRegion : Prop :=
  ∀ s t : State, s.instrBase.toNat % 4 = 0 → MemoryInRegion s → step s = .next t → MemoryInRegion t

/-- Every step keeps the machine's invariant. -/
def Obligations.EveryStepKeepsTheInvariant : Prop :=
  ∀ s t : State, CoreInvariant s → step s = .next t → CoreInvariant t

/-! ## Headline results -/

/-- From every state of the invariant a cycle is aborted exactly by an invalid address at the head of PreMEM: no
`QueueOverflow` and no `OperandAbsent` is ever raised (R340 to R343, R415). -/
def Obligations.AbortsExactlyOnABadAddress : Prop :=
  ∀ (s t : State) (f : Fault), CoreInvariant s → s.status = .running → step s = .next t →
    (t.status = .aborted f ↔
      ∃ e a, s.preMEM.entries.head? = some e ∧ e.cached = some a ∧ validData s a = false ∧ f = .dataAddressFault a)

/-- A branch resolves only when no writer of a register it reads is resident or in flight (R152). -/
def Obligations.BranchResolvesWithoutOutstandingWriter : Prop :=
  ∀ (s t : State) (r : Record), CoreInvariant s → s.status = .running → step s = .next t → NotAborted t →
    t.resolved = some r →
    ∀ q ∈ recordSrcs r, ∀ e ∈ inFlight t ++ t.preIssue.entries, recordDest e.record ≠ some q

/-- While a control-transfer instruction waits, nothing else is fetched: PreIssue only loses entries, and the cycle leaves
the instruction waiting at the same `pc` or resolves it (R153, R154). -/
def Obligations.WaitingInstructionHoldsFetch : Prop :=
  ∀ (s t : State) (w : Record), CoreInvariant s → s.status = .running → s.waiting = some w → step s = .next t →
    t.preIssue.entries.Subperm s.preIssue.entries ∧
      ((t.waiting = some w ∧ t.pc = s.pc ∧ t.resolved = none) ∨ (t.waiting = none ∧ t.resolved = some w))

/-- An arithmetic instruction at the head of PreALU writes its result, computed from the registers of the end of its ALU
cycle, into its destination in the cycle after (R210, R216, R231, R235, R271 to R277, R291 to R294). -/
def Obligations.ArithmeticReachesItsRegisterInTwoCycles : Prop :=
  ∀ (s t u : State) (a : Word) (i : Instr) (c : Option Word) (es : List Entry) (d : RegIdx) (v : Word),
    CoreInvariant s → s.preALU.entries = ⟨⟨a, .instr i⟩, c⟩ :: es → step s = .next t → t.status = .running →
    step t = .next u → destOf i = some d → aluResult i t = some v →
    readReg u d = v

/-- A load at the head of PreMEM with a valid address writes the word that stood there into its destination in the cycle
after (R220, R222, R231, R235). -/
def Obligations.LoadReachesItsRegisterInTwoCycles : Prop :=
  ∀ (s t u : State) (a ea v : Word) (b rt : RegIdx) (o : Imm) (es : List Entry),
    CoreInvariant s → s.preMEM.entries = ⟨⟨a, .instr (.lw b rt o)⟩, some ea⟩ :: es → memRead ea s = .ok v →
    step s = .next t → t.status = .running → step t = .next u →
    readReg u rt = v

/-- A store at the head of PreMEM with a valid address is performed in that cycle: the word reads as its data register
does at the end of the cycle, every other byte as before (R72, R216, R221). -/
def Obligations.StoreReachesMemoryInOneCycle : Prop :=
  ∀ (s t : State) (a ea : Word) (b rt : RegIdx) (o : Imm) (es : List Entry),
    CoreInvariant s → s.status = .running → s.preMEM.entries = ⟨⟨a, .instr (.sw b rt o)⟩, some ea⟩ :: es →
    validData s ea = true → step s = .next t →
    memRead ea t = .ok (readReg t rt) ∧
      ∀ n, (n < ea.toNat ∨ ea.toNat + 4 ≤ n) → Memory.readByte t.mem n = Memory.readByte s.mem n
end

