-- ==== Sys2Proof/Laws/State.lean ====
section
/-!
SUPPORT. One lemma per field per update of the state, true by rfl, so that no later proof unfolds a record update.
-/

namespace Sys2Proof.Machine

/-! ## raiseFault -/

@[simp] theorem raiseFault_instrBase (f : Fault) (s : State) : (raiseFault f s).instrBase = s.instrBase := rfl
@[simp] theorem raiseFault_pc (f : Fault) (s : State) : (raiseFault f s).pc = s.pc := rfl
@[simp] theorem raiseFault_x (f : Fault) (s : State) : (raiseFault f s).x = s.x := rfl
@[simp] theorem raiseFault_mem (f : Fault) (s : State) : (raiseFault f s).mem = s.mem := rfl
@[simp] theorem raiseFault_imem (f : Fault) (s : State) : (raiseFault f s).imem = s.imem := rfl
@[simp] theorem raiseFault_preIssue (f : Fault) (s : State) : (raiseFault f s).preIssue = s.preIssue := rfl
@[simp] theorem raiseFault_preALU (f : Fault) (s : State) : (raiseFault f s).preALU = s.preALU := rfl
@[simp] theorem raiseFault_postALU (f : Fault) (s : State) : (raiseFault f s).postALU = s.postALU := rfl
@[simp] theorem raiseFault_preMEM (f : Fault) (s : State) : (raiseFault f s).preMEM = s.preMEM := rfl
@[simp] theorem raiseFault_postMEM (f : Fault) (s : State) : (raiseFault f s).postMEM = s.postMEM := rfl
@[simp] theorem raiseFault_lastPreIssue (f : Fault) (s : State) : (raiseFault f s).lastPreIssue = s.lastPreIssue := rfl
@[simp] theorem raiseFault_rrtc (f : Fault) (s : State) : (raiseFault f s).rrtc = s.rrtc := rfl
@[simp] theorem raiseFault_rrtn (f : Fault) (s : State) : (raiseFault f s).rrtn = s.rrtn := rfl
@[simp] theorem raiseFault_waiting (f : Fault) (s : State) : (raiseFault f s).waiting = s.waiting := rfl
@[simp] theorem raiseFault_resolved (f : Fault) (s : State) : (raiseFault f s).resolved = s.resolved := rfl
@[simp] theorem raiseFault_cycle (f : Fault) (s : State) : (raiseFault f s).cycle = s.cycle := rfl
@[simp] theorem raiseFault_status (f : Fault) (s : State) : (raiseFault f s).status = .aborted f := rfl
@[simp] theorem raiseFault_notices (f : Fault) (s : State) : (raiseFault f s).notices = s.notices := rfl
@[simp] theorem raiseFault_active (f : Fault) (s : State) : (raiseFault f s).active = s.active := rfl

/-! ## signalNotice -/

@[simp] theorem signalNotice_instrBase (n : Notice) (s : State) : (signalNotice n s).instrBase = s.instrBase := rfl
@[simp] theorem signalNotice_pc (n : Notice) (s : State) : (signalNotice n s).pc = s.pc := rfl
@[simp] theorem signalNotice_x (n : Notice) (s : State) : (signalNotice n s).x = s.x := rfl
@[simp] theorem signalNotice_mem (n : Notice) (s : State) : (signalNotice n s).mem = s.mem := rfl
@[simp] theorem signalNotice_imem (n : Notice) (s : State) : (signalNotice n s).imem = s.imem := rfl
@[simp] theorem signalNotice_preIssue (n : Notice) (s : State) : (signalNotice n s).preIssue = s.preIssue := rfl
@[simp] theorem signalNotice_preALU (n : Notice) (s : State) : (signalNotice n s).preALU = s.preALU := rfl
@[simp] theorem signalNotice_postALU (n : Notice) (s : State) : (signalNotice n s).postALU = s.postALU := rfl
@[simp] theorem signalNotice_preMEM (n : Notice) (s : State) : (signalNotice n s).preMEM = s.preMEM := rfl
@[simp] theorem signalNotice_postMEM (n : Notice) (s : State) : (signalNotice n s).postMEM = s.postMEM := rfl
@[simp] theorem signalNotice_lastPreIssue (n : Notice) (s : State) : (signalNotice n s).lastPreIssue = s.lastPreIssue := rfl
@[simp] theorem signalNotice_rrtc (n : Notice) (s : State) : (signalNotice n s).rrtc = s.rrtc := rfl
@[simp] theorem signalNotice_rrtn (n : Notice) (s : State) : (signalNotice n s).rrtn = s.rrtn := rfl
@[simp] theorem signalNotice_waiting (n : Notice) (s : State) : (signalNotice n s).waiting = s.waiting := rfl
@[simp] theorem signalNotice_resolved (n : Notice) (s : State) : (signalNotice n s).resolved = s.resolved := rfl
@[simp] theorem signalNotice_cycle (n : Notice) (s : State) : (signalNotice n s).cycle = s.cycle := rfl
@[simp] theorem signalNotice_status (n : Notice) (s : State) : (signalNotice n s).status = s.status := rfl
@[simp] theorem signalNotice_notices (n : Notice) (s : State) : (signalNotice n s).notices = s.notices ++ [n] := rfl
@[simp] theorem signalNotice_active (n : Notice) (s : State) : (signalNotice n s).active = s.active := rfl

/-! ## writeReg -/

@[simp] theorem writeReg_instrBase (r : RegIdx) (v : Word) (s : State) : (writeReg r v s).instrBase = s.instrBase := rfl
@[simp] theorem writeReg_pc (r : RegIdx) (v : Word) (s : State) : (writeReg r v s).pc = s.pc := rfl
@[simp] theorem writeReg_x (r : RegIdx) (v : Word) (s : State) : (writeReg r v s).x = s.x.set r.toNat v r.isLt := rfl
@[simp] theorem writeReg_mem (r : RegIdx) (v : Word) (s : State) : (writeReg r v s).mem = s.mem := rfl
@[simp] theorem writeReg_imem (r : RegIdx) (v : Word) (s : State) : (writeReg r v s).imem = s.imem := rfl
@[simp] theorem writeReg_preIssue (r : RegIdx) (v : Word) (s : State) : (writeReg r v s).preIssue = s.preIssue := rfl
@[simp] theorem writeReg_preALU (r : RegIdx) (v : Word) (s : State) : (writeReg r v s).preALU = s.preALU := rfl
@[simp] theorem writeReg_postALU (r : RegIdx) (v : Word) (s : State) : (writeReg r v s).postALU = s.postALU := rfl
@[simp] theorem writeReg_preMEM (r : RegIdx) (v : Word) (s : State) : (writeReg r v s).preMEM = s.preMEM := rfl
@[simp] theorem writeReg_postMEM (r : RegIdx) (v : Word) (s : State) : (writeReg r v s).postMEM = s.postMEM := rfl
@[simp] theorem writeReg_lastPreIssue (r : RegIdx) (v : Word) (s : State) : (writeReg r v s).lastPreIssue = s.lastPreIssue := rfl
@[simp] theorem writeReg_rrtc (r : RegIdx) (v : Word) (s : State) : (writeReg r v s).rrtc = s.rrtc := rfl
@[simp] theorem writeReg_rrtn (r : RegIdx) (v : Word) (s : State) : (writeReg r v s).rrtn = s.rrtn := rfl
@[simp] theorem writeReg_waiting (r : RegIdx) (v : Word) (s : State) : (writeReg r v s).waiting = s.waiting := rfl
@[simp] theorem writeReg_resolved (r : RegIdx) (v : Word) (s : State) : (writeReg r v s).resolved = s.resolved := rfl
@[simp] theorem writeReg_cycle (r : RegIdx) (v : Word) (s : State) : (writeReg r v s).cycle = s.cycle := rfl
@[simp] theorem writeReg_status (r : RegIdx) (v : Word) (s : State) : (writeReg r v s).status = s.status := rfl
@[simp] theorem writeReg_notices (r : RegIdx) (v : Word) (s : State) : (writeReg r v s).notices = s.notices := rfl
@[simp] theorem writeReg_active (r : RegIdx) (v : Word) (s : State) : (writeReg r v s).active = s.active := rfl

/-! ## reserve -/

@[simp] theorem reserve_instrBase (r : RegIdx) (a : Word) (s : State) : (reserve r a s).instrBase = s.instrBase := rfl
@[simp] theorem reserve_pc (r : RegIdx) (a : Word) (s : State) : (reserve r a s).pc = s.pc := rfl
@[simp] theorem reserve_x (r : RegIdx) (a : Word) (s : State) : (reserve r a s).x = s.x := rfl
@[simp] theorem reserve_mem (r : RegIdx) (a : Word) (s : State) : (reserve r a s).mem = s.mem := rfl
@[simp] theorem reserve_imem (r : RegIdx) (a : Word) (s : State) : (reserve r a s).imem = s.imem := rfl
@[simp] theorem reserve_preIssue (r : RegIdx) (a : Word) (s : State) : (reserve r a s).preIssue = s.preIssue := rfl
@[simp] theorem reserve_preALU (r : RegIdx) (a : Word) (s : State) : (reserve r a s).preALU = s.preALU := rfl
@[simp] theorem reserve_postALU (r : RegIdx) (a : Word) (s : State) : (reserve r a s).postALU = s.postALU := rfl
@[simp] theorem reserve_preMEM (r : RegIdx) (a : Word) (s : State) : (reserve r a s).preMEM = s.preMEM := rfl
@[simp] theorem reserve_postMEM (r : RegIdx) (a : Word) (s : State) : (reserve r a s).postMEM = s.postMEM := rfl
@[simp] theorem reserve_lastPreIssue (r : RegIdx) (a : Word) (s : State) : (reserve r a s).lastPreIssue = s.lastPreIssue := rfl
@[simp] theorem reserve_rrtc (r : RegIdx) (a : Word) (s : State) : (reserve r a s).rrtc = s.rrtc := rfl
@[simp] theorem reserve_rrtn (r : RegIdx) (a : Word) (s : State) : (reserve r a s).rrtn = s.rrtn.set r.toNat (some a) r.isLt := rfl
@[simp] theorem reserve_waiting (r : RegIdx) (a : Word) (s : State) : (reserve r a s).waiting = s.waiting := rfl
@[simp] theorem reserve_resolved (r : RegIdx) (a : Word) (s : State) : (reserve r a s).resolved = s.resolved := rfl
@[simp] theorem reserve_cycle (r : RegIdx) (a : Word) (s : State) : (reserve r a s).cycle = s.cycle := rfl
@[simp] theorem reserve_status (r : RegIdx) (a : Word) (s : State) : (reserve r a s).status = s.status := rfl
@[simp] theorem reserve_notices (r : RegIdx) (a : Word) (s : State) : (reserve r a s).notices = s.notices := rfl
@[simp] theorem reserve_active (r : RegIdx) (a : Word) (s : State) : (reserve r a s).active = s.active := rfl

/-! ## release -/

@[simp] theorem release_instrBase (r : RegIdx) (s : State) : (release r s).instrBase = s.instrBase := rfl
@[simp] theorem release_pc (r : RegIdx) (s : State) : (release r s).pc = s.pc := rfl
@[simp] theorem release_x (r : RegIdx) (s : State) : (release r s).x = s.x := rfl
@[simp] theorem release_mem (r : RegIdx) (s : State) : (release r s).mem = s.mem := rfl
@[simp] theorem release_imem (r : RegIdx) (s : State) : (release r s).imem = s.imem := rfl
@[simp] theorem release_preIssue (r : RegIdx) (s : State) : (release r s).preIssue = s.preIssue := rfl
@[simp] theorem release_preALU (r : RegIdx) (s : State) : (release r s).preALU = s.preALU := rfl
@[simp] theorem release_postALU (r : RegIdx) (s : State) : (release r s).postALU = s.postALU := rfl
@[simp] theorem release_preMEM (r : RegIdx) (s : State) : (release r s).preMEM = s.preMEM := rfl
@[simp] theorem release_postMEM (r : RegIdx) (s : State) : (release r s).postMEM = s.postMEM := rfl
@[simp] theorem release_lastPreIssue (r : RegIdx) (s : State) : (release r s).lastPreIssue = s.lastPreIssue := rfl
@[simp] theorem release_rrtc (r : RegIdx) (s : State) : (release r s).rrtc = s.rrtc := rfl
@[simp] theorem release_rrtn (r : RegIdx) (s : State) : (release r s).rrtn = s.rrtn.set r.toNat none r.isLt := rfl
@[simp] theorem release_waiting (r : RegIdx) (s : State) : (release r s).waiting = s.waiting := rfl
@[simp] theorem release_resolved (r : RegIdx) (s : State) : (release r s).resolved = s.resolved := rfl
@[simp] theorem release_cycle (r : RegIdx) (s : State) : (release r s).cycle = s.cycle := rfl
@[simp] theorem release_status (r : RegIdx) (s : State) : (release r s).status = s.status := rfl
@[simp] theorem release_notices (r : RegIdx) (s : State) : (release r s).notices = s.notices := rfl
@[simp] theorem release_active (r : RegIdx) (s : State) : (release r s).active = s.active := rfl

/-! ## activate -/

@[simp] theorem activate_instrBase (r : Record) (p : Phase) (s : State) : (activate r p s).instrBase = s.instrBase := rfl
@[simp] theorem activate_pc (r : Record) (p : Phase) (s : State) : (activate r p s).pc = s.pc := rfl
@[simp] theorem activate_x (r : Record) (p : Phase) (s : State) : (activate r p s).x = s.x := rfl
@[simp] theorem activate_mem (r : Record) (p : Phase) (s : State) : (activate r p s).mem = s.mem := rfl
@[simp] theorem activate_imem (r : Record) (p : Phase) (s : State) : (activate r p s).imem = s.imem := rfl
@[simp] theorem activate_preIssue (r : Record) (p : Phase) (s : State) : (activate r p s).preIssue = s.preIssue := rfl
@[simp] theorem activate_preALU (r : Record) (p : Phase) (s : State) : (activate r p s).preALU = s.preALU := rfl
@[simp] theorem activate_postALU (r : Record) (p : Phase) (s : State) : (activate r p s).postALU = s.postALU := rfl
@[simp] theorem activate_preMEM (r : Record) (p : Phase) (s : State) : (activate r p s).preMEM = s.preMEM := rfl
@[simp] theorem activate_postMEM (r : Record) (p : Phase) (s : State) : (activate r p s).postMEM = s.postMEM := rfl
@[simp] theorem activate_lastPreIssue (r : Record) (p : Phase) (s : State) : (activate r p s).lastPreIssue = s.lastPreIssue := rfl
@[simp] theorem activate_rrtc (r : Record) (p : Phase) (s : State) : (activate r p s).rrtc = s.rrtc := rfl
@[simp] theorem activate_rrtn (r : Record) (p : Phase) (s : State) : (activate r p s).rrtn = s.rrtn := rfl
@[simp] theorem activate_waiting (r : Record) (p : Phase) (s : State) : (activate r p s).waiting = s.waiting := rfl
@[simp] theorem activate_resolved (r : Record) (p : Phase) (s : State) : (activate r p s).resolved = s.resolved := rfl
@[simp] theorem activate_cycle (r : Record) (p : Phase) (s : State) : (activate r p s).cycle = s.cycle := rfl
@[simp] theorem activate_status (r : Record) (p : Phase) (s : State) : (activate r p s).status = s.status := rfl
@[simp] theorem activate_notices (r : Record) (p : Phase) (s : State) : (activate r p s).notices = s.notices := rfl
@[simp] theorem activate_active (r : Record) (p : Phase) (s : State) : (activate r p s).active = ⟨r.address, p⟩ := rfl

/-! ## advancePc -/

@[simp] theorem advancePc_instrBase (s : State) : (advancePc s).instrBase = s.instrBase := rfl
@[simp] theorem advancePc_pc (s : State) : (advancePc s).pc = s.pc + 4 := rfl
@[simp] theorem advancePc_x (s : State) : (advancePc s).x = s.x := rfl
@[simp] theorem advancePc_mem (s : State) : (advancePc s).mem = s.mem := rfl
@[simp] theorem advancePc_imem (s : State) : (advancePc s).imem = s.imem := rfl
@[simp] theorem advancePc_preIssue (s : State) : (advancePc s).preIssue = s.preIssue := rfl
@[simp] theorem advancePc_preALU (s : State) : (advancePc s).preALU = s.preALU := rfl
@[simp] theorem advancePc_postALU (s : State) : (advancePc s).postALU = s.postALU := rfl
@[simp] theorem advancePc_preMEM (s : State) : (advancePc s).preMEM = s.preMEM := rfl
@[simp] theorem advancePc_postMEM (s : State) : (advancePc s).postMEM = s.postMEM := rfl
@[simp] theorem advancePc_lastPreIssue (s : State) : (advancePc s).lastPreIssue = s.lastPreIssue := rfl
@[simp] theorem advancePc_rrtc (s : State) : (advancePc s).rrtc = s.rrtc := rfl
@[simp] theorem advancePc_rrtn (s : State) : (advancePc s).rrtn = s.rrtn := rfl
@[simp] theorem advancePc_waiting (s : State) : (advancePc s).waiting = s.waiting := rfl
@[simp] theorem advancePc_resolved (s : State) : (advancePc s).resolved = s.resolved := rfl
@[simp] theorem advancePc_cycle (s : State) : (advancePc s).cycle = s.cycle := rfl
@[simp] theorem advancePc_status (s : State) : (advancePc s).status = s.status := rfl
@[simp] theorem advancePc_notices (s : State) : (advancePc s).notices = s.notices := rfl
@[simp] theorem advancePc_active (s : State) : (advancePc s).active = s.active := rfl

/-! ## rest -/

@[simp] theorem rest_instrBase (s : State) : (rest s).instrBase = s.instrBase := rfl
@[simp] theorem rest_pc (s : State) : (rest s).pc = s.pc := rfl
@[simp] theorem rest_x (s : State) : (rest s).x = s.x := rfl
@[simp] theorem rest_mem (s : State) : (rest s).mem = s.mem := rfl
@[simp] theorem rest_imem (s : State) : (rest s).imem = s.imem := rfl
@[simp] theorem rest_preIssue (s : State) : (rest s).preIssue = s.preIssue := rfl
@[simp] theorem rest_preALU (s : State) : (rest s).preALU = s.preALU := rfl
@[simp] theorem rest_postALU (s : State) : (rest s).postALU = s.postALU := rfl
@[simp] theorem rest_preMEM (s : State) : (rest s).preMEM = s.preMEM := rfl
@[simp] theorem rest_postMEM (s : State) : (rest s).postMEM = s.postMEM := rfl
@[simp] theorem rest_lastPreIssue (s : State) : (rest s).lastPreIssue = s.lastPreIssue := rfl
@[simp] theorem rest_rrtc (s : State) : (rest s).rrtc = s.rrtc := rfl
@[simp] theorem rest_rrtn (s : State) : (rest s).rrtn = s.rrtn := rfl
@[simp] theorem rest_waiting (s : State) : (rest s).waiting = s.waiting := rfl
@[simp] theorem rest_resolved (s : State) : (rest s).resolved = s.resolved := rfl
@[simp] theorem rest_cycle (s : State) : (rest s).cycle = s.cycle := rfl
@[simp] theorem rest_status (s : State) : (rest s).status = s.status := rfl
@[simp] theorem rest_notices (s : State) : (rest s).notices = s.notices := rfl
@[simp] theorem rest_active (s : State) : (rest s).active = .atRest s.pc := rfl

/-! ## wait -/

@[simp] theorem wait_instrBase (i : Instr) (s : State) : (wait i s).instrBase = s.instrBase := rfl
@[simp] theorem wait_pc (i : Instr) (s : State) : (wait i s).pc = s.pc := rfl
@[simp] theorem wait_x (i : Instr) (s : State) : (wait i s).x = s.x := rfl
@[simp] theorem wait_mem (i : Instr) (s : State) : (wait i s).mem = s.mem := rfl
@[simp] theorem wait_imem (i : Instr) (s : State) : (wait i s).imem = s.imem := rfl
@[simp] theorem wait_preIssue (i : Instr) (s : State) : (wait i s).preIssue = s.preIssue := rfl
@[simp] theorem wait_preALU (i : Instr) (s : State) : (wait i s).preALU = s.preALU := rfl
@[simp] theorem wait_postALU (i : Instr) (s : State) : (wait i s).postALU = s.postALU := rfl
@[simp] theorem wait_preMEM (i : Instr) (s : State) : (wait i s).preMEM = s.preMEM := rfl
@[simp] theorem wait_postMEM (i : Instr) (s : State) : (wait i s).postMEM = s.postMEM := rfl
@[simp] theorem wait_lastPreIssue (i : Instr) (s : State) : (wait i s).lastPreIssue = s.lastPreIssue := rfl
@[simp] theorem wait_rrtc (i : Instr) (s : State) : (wait i s).rrtc = s.rrtc := rfl
@[simp] theorem wait_rrtn (i : Instr) (s : State) : (wait i s).rrtn = s.rrtn := rfl
@[simp] theorem wait_waiting (i : Instr) (s : State) : (wait i s).waiting = some (activeRecord (.instr i) s) := rfl
@[simp] theorem wait_resolved (i : Instr) (s : State) : (wait i s).resolved = s.resolved := rfl
@[simp] theorem wait_cycle (i : Instr) (s : State) : (wait i s).cycle = s.cycle := rfl
@[simp] theorem wait_status (i : Instr) (s : State) : (wait i s).status = s.status := rfl
@[simp] theorem wait_notices (i : Instr) (s : State) : (wait i s).notices = s.notices := rfl
@[simp] theorem wait_active (i : Instr) (s : State) : (wait i s).active = s.active := rfl

/-! ## resolve -/

@[simp] theorem resolve_instrBase (i : Instr) (o : Word) (s : State) : (resolve i o s).instrBase = s.instrBase := rfl
@[simp] theorem resolve_pc (i : Instr) (o : Word) (s : State) : (resolve i o s).pc = o := rfl
@[simp] theorem resolve_x (i : Instr) (o : Word) (s : State) : (resolve i o s).x = s.x := rfl
@[simp] theorem resolve_mem (i : Instr) (o : Word) (s : State) : (resolve i o s).mem = s.mem := rfl
@[simp] theorem resolve_imem (i : Instr) (o : Word) (s : State) : (resolve i o s).imem = s.imem := rfl
@[simp] theorem resolve_preIssue (i : Instr) (o : Word) (s : State) : (resolve i o s).preIssue = s.preIssue := rfl
@[simp] theorem resolve_preALU (i : Instr) (o : Word) (s : State) : (resolve i o s).preALU = s.preALU := rfl
@[simp] theorem resolve_postALU (i : Instr) (o : Word) (s : State) : (resolve i o s).postALU = s.postALU := rfl
@[simp] theorem resolve_preMEM (i : Instr) (o : Word) (s : State) : (resolve i o s).preMEM = s.preMEM := rfl
@[simp] theorem resolve_postMEM (i : Instr) (o : Word) (s : State) : (resolve i o s).postMEM = s.postMEM := rfl
@[simp] theorem resolve_lastPreIssue (i : Instr) (o : Word) (s : State) : (resolve i o s).lastPreIssue = s.lastPreIssue := rfl
@[simp] theorem resolve_rrtc (i : Instr) (o : Word) (s : State) : (resolve i o s).rrtc = s.rrtc := rfl
@[simp] theorem resolve_rrtn (i : Instr) (o : Word) (s : State) : (resolve i o s).rrtn = s.rrtn := rfl
@[simp] theorem resolve_waiting (i : Instr) (o : Word) (s : State) : (resolve i o s).waiting = none := rfl
@[simp] theorem resolve_resolved (i : Instr) (o : Word) (s : State) : (resolve i o s).resolved = some (activeRecord (.instr i) s) := rfl
@[simp] theorem resolve_cycle (i : Instr) (o : Word) (s : State) : (resolve i o s).cycle = s.cycle := rfl
@[simp] theorem resolve_status (i : Instr) (o : Word) (s : State) : (resolve i o s).status = s.status := rfl
@[simp] theorem resolve_notices (i : Instr) (o : Word) (s : State) : (resolve i o s).notices = s.notices := rfl
@[simp] theorem resolve_active (i : Instr) (o : Word) (s : State) : (resolve i o s).active = s.active := rfl

/-! ## setEntries, by the queue's name -/

@[simp] theorem setEntries_preIssue_preIssue (es : List Entry) (s : State) : (setEntries .preIssue es s).preIssue = { s.preIssue with entries := es } := rfl
@[simp] theorem setEntries_preIssue_preALU (es : List Entry) (s : State) : (setEntries .preIssue es s).preALU = s.preALU := rfl
@[simp] theorem setEntries_preIssue_postALU (es : List Entry) (s : State) : (setEntries .preIssue es s).postALU = s.postALU := rfl
@[simp] theorem setEntries_preIssue_preMEM (es : List Entry) (s : State) : (setEntries .preIssue es s).preMEM = s.preMEM := rfl
@[simp] theorem setEntries_preIssue_postMEM (es : List Entry) (s : State) : (setEntries .preIssue es s).postMEM = s.postMEM := rfl
@[simp] theorem setEntries_preALU_preIssue (es : List Entry) (s : State) : (setEntries .preALU es s).preIssue = s.preIssue := rfl
@[simp] theorem setEntries_preALU_preALU (es : List Entry) (s : State) : (setEntries .preALU es s).preALU = { s.preALU with entries := es } := rfl
@[simp] theorem setEntries_preALU_postALU (es : List Entry) (s : State) : (setEntries .preALU es s).postALU = s.postALU := rfl
@[simp] theorem setEntries_preALU_preMEM (es : List Entry) (s : State) : (setEntries .preALU es s).preMEM = s.preMEM := rfl
@[simp] theorem setEntries_preALU_postMEM (es : List Entry) (s : State) : (setEntries .preALU es s).postMEM = s.postMEM := rfl
@[simp] theorem setEntries_postALU_preIssue (es : List Entry) (s : State) : (setEntries .postALU es s).preIssue = s.preIssue := rfl
@[simp] theorem setEntries_postALU_preALU (es : List Entry) (s : State) : (setEntries .postALU es s).preALU = s.preALU := rfl
@[simp] theorem setEntries_postALU_postALU (es : List Entry) (s : State) : (setEntries .postALU es s).postALU = { s.postALU with entries := es } := rfl
@[simp] theorem setEntries_postALU_preMEM (es : List Entry) (s : State) : (setEntries .postALU es s).preMEM = s.preMEM := rfl
@[simp] theorem setEntries_postALU_postMEM (es : List Entry) (s : State) : (setEntries .postALU es s).postMEM = s.postMEM := rfl
@[simp] theorem setEntries_preMEM_preIssue (es : List Entry) (s : State) : (setEntries .preMEM es s).preIssue = s.preIssue := rfl
@[simp] theorem setEntries_preMEM_preALU (es : List Entry) (s : State) : (setEntries .preMEM es s).preALU = s.preALU := rfl
@[simp] theorem setEntries_preMEM_postALU (es : List Entry) (s : State) : (setEntries .preMEM es s).postALU = s.postALU := rfl
@[simp] theorem setEntries_preMEM_preMEM (es : List Entry) (s : State) : (setEntries .preMEM es s).preMEM = { s.preMEM with entries := es } := rfl
@[simp] theorem setEntries_preMEM_postMEM (es : List Entry) (s : State) : (setEntries .preMEM es s).postMEM = s.postMEM := rfl
@[simp] theorem setEntries_postMEM_preIssue (es : List Entry) (s : State) : (setEntries .postMEM es s).preIssue = s.preIssue := rfl
@[simp] theorem setEntries_postMEM_preALU (es : List Entry) (s : State) : (setEntries .postMEM es s).preALU = s.preALU := rfl
@[simp] theorem setEntries_postMEM_postALU (es : List Entry) (s : State) : (setEntries .postMEM es s).postALU = s.postALU := rfl
@[simp] theorem setEntries_postMEM_preMEM (es : List Entry) (s : State) : (setEntries .postMEM es s).preMEM = s.preMEM := rfl
@[simp] theorem setEntries_postMEM_postMEM (es : List Entry) (s : State) : (setEntries .postMEM es s).postMEM = { s.postMEM with entries := es } := rfl

/-! ## setEntries, any queue: the fields that are no queue -/

@[simp] theorem setEntries_instrBase (q : QueueName) (es : List Entry) (s : State) : (setEntries q es s).instrBase = s.instrBase := by
  cases q <;> rfl
@[simp] theorem setEntries_pc (q : QueueName) (es : List Entry) (s : State) : (setEntries q es s).pc = s.pc := by
  cases q <;> rfl
@[simp] theorem setEntries_x (q : QueueName) (es : List Entry) (s : State) : (setEntries q es s).x = s.x := by
  cases q <;> rfl
@[simp] theorem setEntries_mem (q : QueueName) (es : List Entry) (s : State) : (setEntries q es s).mem = s.mem := by
  cases q <;> rfl
@[simp] theorem setEntries_imem (q : QueueName) (es : List Entry) (s : State) : (setEntries q es s).imem = s.imem := by
  cases q <;> rfl
@[simp] theorem setEntries_lastPreIssue (q : QueueName) (es : List Entry) (s : State) : (setEntries q es s).lastPreIssue = s.lastPreIssue := by
  cases q <;> rfl
@[simp] theorem setEntries_rrtc (q : QueueName) (es : List Entry) (s : State) : (setEntries q es s).rrtc = s.rrtc := by
  cases q <;> rfl
@[simp] theorem setEntries_rrtn (q : QueueName) (es : List Entry) (s : State) : (setEntries q es s).rrtn = s.rrtn := by
  cases q <;> rfl
@[simp] theorem setEntries_waiting (q : QueueName) (es : List Entry) (s : State) : (setEntries q es s).waiting = s.waiting := by
  cases q <;> rfl
@[simp] theorem setEntries_resolved (q : QueueName) (es : List Entry) (s : State) : (setEntries q es s).resolved = s.resolved := by
  cases q <;> rfl
@[simp] theorem setEntries_cycle (q : QueueName) (es : List Entry) (s : State) : (setEntries q es s).cycle = s.cycle := by
  cases q <;> rfl
@[simp] theorem setEntries_status (q : QueueName) (es : List Entry) (s : State) : (setEntries q es s).status = s.status := by
  cases q <;> rfl
@[simp] theorem setEntries_notices (q : QueueName) (es : List Entry) (s : State) : (setEntries q es s).notices = s.notices := by
  cases q <;> rfl
@[simp] theorem setEntries_active (q : QueueName) (es : List Entry) (s : State) : (setEntries q es s).active = s.active := by
  cases q <;> rfl

/-! ## snapshot -/

@[simp] theorem snapshot_instrBase (s : State) : (snapshot s).instrBase = s.instrBase := rfl
@[simp] theorem snapshot_pc (s : State) : (snapshot s).pc = s.pc := rfl
@[simp] theorem snapshot_x (s : State) : (snapshot s).x = s.x := rfl
@[simp] theorem snapshot_mem (s : State) : (snapshot s).mem = s.mem := rfl
@[simp] theorem snapshot_imem (s : State) : (snapshot s).imem = s.imem := rfl
@[simp] theorem snapshot_preIssue (s : State) : (snapshot s).preIssue = { s.preIssue with lastFull := isFull .preIssue s } := rfl
@[simp] theorem snapshot_preALU (s : State) : (snapshot s).preALU = { s.preALU with lastFull := isFull .preALU s } := rfl
@[simp] theorem snapshot_postALU (s : State) : (snapshot s).postALU = { s.postALU with lastFull := isFull .postALU s } := rfl
@[simp] theorem snapshot_preMEM (s : State) : (snapshot s).preMEM = { s.preMEM with lastFull := isFull .preMEM s } := rfl
@[simp] theorem snapshot_postMEM (s : State) : (snapshot s).postMEM = { s.postMEM with lastFull := isFull .postMEM s } := rfl
@[simp] theorem snapshot_lastPreIssue (s : State) : (snapshot s).lastPreIssue = s.preIssue.entries.map Entry.record := rfl
@[simp] theorem snapshot_rrtc (s : State) : (snapshot s).rrtc = s.rrtn := rfl
@[simp] theorem snapshot_rrtn (s : State) : (snapshot s).rrtn = s.rrtn := rfl
@[simp] theorem snapshot_waiting (s : State) : (snapshot s).waiting = s.waiting := rfl
@[simp] theorem snapshot_resolved (s : State) : (snapshot s).resolved = none := rfl
@[simp] theorem snapshot_cycle (s : State) : (snapshot s).cycle = s.cycle := rfl
@[simp] theorem snapshot_status (s : State) : (snapshot s).status = s.status := rfl
@[simp] theorem snapshot_notices (s : State) : (snapshot s).notices = [] := rfl
@[simp] theorem snapshot_active (s : State) : (snapshot s).active = s.active := rfl

/-! ## queueOf -/

@[simp] theorem queueOf_preIssue (s : State) : queueOf s .preIssue = s.preIssue := rfl
@[simp] theorem queueOf_preALU (s : State) : queueOf s .preALU = s.preALU := rfl
@[simp] theorem queueOf_postALU (s : State) : queueOf s .postALU = s.postALU := rfl
@[simp] theorem queueOf_preMEM (s : State) : queueOf s .preMEM = s.preMEM := rfl
@[simp] theorem queueOf_postMEM (s : State) : queueOf s .postMEM = s.postMEM := rfl

/-! ## capacity -/

@[simp] theorem capacity_preIssue : capacity .preIssue = 4 := rfl
@[simp] theorem capacity_preALU : capacity .preALU = 2 := rfl
@[simp] theorem capacity_postALU : capacity .postALU = 1 := rfl
@[simp] theorem capacity_preMEM : capacity .preMEM = 1 := rfl
@[simp] theorem capacity_postMEM : capacity .postMEM = 1 := rfl

end Sys2Proof.Machine
end

