-- ==== Sys2Proof/Laws/Ops.lean ====
section
/-!
SUPPORT. One lemma for each shared operation that says once everything it can do.
-/

namespace Sys2Proof.Machine

/-! ## Registers and tables -/

@[simp] theorem readReg_writeReg_same (r : RegIdx) (v : Word) (s : State) : readReg (writeReg r v s) r = v := by
  simp [readReg, writeReg]

theorem readReg_writeReg_ne {r q : RegIdx} (v : Word) (s : State) (h : q ≠ r) :
    readReg (writeReg r v s) q = readReg s q := by
  have hn : r.toNat ≠ q.toNat := fun e => h (BitVec.eq_of_toNat_eq e.symm)
  simp [readReg, writeReg, Vector.getElem_set_ne _ _ hn]

@[simp] theorem slotOf_reserve_same (r : RegIdx) (a : Word) (s : State) :
    slotOf (reserve r a s).rrtn r = some a := by
  simp [slotOf]

theorem slotOf_reserve_ne {r q : RegIdx} (a : Word) (s : State) (h : q ≠ r) :
    slotOf (reserve r a s).rrtn q = slotOf s.rrtn q := by
  have hn : r.toNat ≠ q.toNat := fun e => h (BitVec.eq_of_toNat_eq e.symm)
  simp [slotOf, Vector.getElem_set_ne _ _ hn]

@[simp] theorem slotOf_release_same (r : RegIdx) (s : State) : slotOf (release r s).rrtn r = none := by
  simp [slotOf]

theorem slotOf_release_ne {r q : RegIdx} (s : State) (h : q ≠ r) :
    slotOf (release r s).rrtn q = slotOf s.rrtn q := by
  have hn : r.toNat ≠ q.toNat := fun e => h (BitVec.eq_of_toNat_eq e.symm)
  simp [slotOf, Vector.getElem_set_ne _ _ hn]

/-! ## Queues -/

@[simp] theorem queueOf_setEntries_same (q : QueueName) (es : List Entry) (s : State) :
    queueOf (setEntries q es s) q = { queueOf s q with entries := es } := by
  cases q <;> rfl

theorem queueOf_setEntries_ne {q p : QueueName} (es : List Entry) (s : State) (h : p ≠ q) :
    queueOf (setEntries q es s) p = queueOf s p := by
  cases q <;> cases p <;> first | rfl | exact absurd rfl h

theorem isFull_iff {q : QueueName} {s : State} :
    isFull q s = true ↔ capacity q ≤ (queueOf s q).entries.length := by
  simp [isFull]

theorem not_isFull_iff {q : QueueName} {s : State} :
    isFull q s = false ↔ (queueOf s q).entries.length < capacity q := by
  simp [isFull]

/-- Everything `push(Q, e)` followed by `next` can do. -/
theorem pushThen_spec (q : QueueName) (e : Entry) (next : State → State) (s : State) :
    (capacity q ≤ (queueOf s q).entries.length ∧ pushThen q e next s = raiseFault (.queueOverflow q) s) ∨
    ((queueOf s q).entries.length < capacity q ∧
      pushThen q e next s = next (setEntries q ((queueOf s q).entries ++ [e]) s)) := by
  unfold pushThen
  by_cases h : isFull q s = true
  · exact .inl ⟨isFull_iff.mp h, by rw [if_pos h]⟩
  · simp only [Bool.not_eq_true] at h
    exact .inr ⟨not_isFull_iff.mp h, by rw [h]; rfl⟩

/-- Everything `push(Q, e)` can do. -/
theorem push_spec (q : QueueName) (e : Entry) (s : State) :
    (capacity q ≤ (queueOf s q).entries.length ∧ push q e s = raiseFault (.queueOverflow q) s) ∨
    ((queueOf s q).entries.length < capacity q ∧
      push q e s = setEntries q ((queueOf s q).entries ++ [e]) s) :=
  pushThen_spec q e (fun t => t) s

theorem push_of_room {q : QueueName} {e : Entry} {s : State} (h : (queueOf s q).entries.length < capacity q) :
    push q e s = setEntries q ((queueOf s q).entries ++ [e]) s := by
  rcases push_spec q e s with ⟨h', _⟩ | ⟨_, h'⟩
  · omega
  · exact h'

theorem pushThen_of_room {q : QueueName} {e : Entry} {next : State → State} {s : State}
    (h : (queueOf s q).entries.length < capacity q) :
    pushThen q e next s = next (setEntries q ((queueOf s q).entries ++ [e]) s) := by
  rcases pushThen_spec q e next s with ⟨h', _⟩ | ⟨_, h'⟩
  · omega
  · exact h'

/-- Everything `pop(Q)` can do. -/
theorem pop_spec (q : QueueName) (s : State) :
    ((queueOf s q).entries = [] ∧ pop q s = none) ∨
    ∃ e es, (queueOf s q).entries = e :: es ∧ pop q s = some (e, setEntries q es s) := by
  unfold pop
  cases h : (queueOf s q).entries with
  | nil => exact .inl ⟨rfl, rfl⟩
  | cons e es => exact .inr ⟨e, es, rfl, rfl⟩

theorem pop_of_nil {q : QueueName} {s : State} (h : (queueOf s q).entries = []) : pop q s = none := by
  unfold pop; rw [h]

theorem pop_of_cons {q : QueueName} {s : State} {e : Entry} {es : List Entry}
    (h : (queueOf s q).entries = e :: es) : pop q s = some (e, setEntries q es s) := by
  unfold pop; rw [h]

/-! ## Data memory -/

/-- Everything `MemRead` can do. -/
theorem memRead_spec (a : Word) (s : State) :
    (validData s a = true ∧ memRead a s = .ok (Memory.readWord s.mem a.toNat)) ∨
    (validData s a = false ∧ memRead a s = .error (.dataAddressFault a)) := by
  unfold memRead
  cases h : validData s a
  · exact .inr ⟨rfl, rfl⟩
  · exact .inl ⟨rfl, rfl⟩

/-- Everything `MemWrite` can do. -/
theorem memWrite_spec (a v : Word) (s : State) :
    (validData s a = true ∧ memWrite a v s = { s with mem := Memory.writeWord s.mem a.toNat v }) ∨
    (validData s a = false ∧ memWrite a v s = raiseFault (.dataAddressFault a) s) := by
  unfold memWrite
  cases h : validData s a
  · exact .inr ⟨rfl, rfl⟩
  · exact .inl ⟨rfl, rfl⟩

/-! ## The regions -/

theorem nexecOf_le_length (rs : List Record) : nexecOf rs ≤ rs.length := by
  induction rs with
  | nil => exact Nat.le_refl 0
  | cons r rs ih =>
    simp only [nexecOf, List.length_cons]
    split <;> omega

theorem inExec_iff {s : State} {a : Word} :
    inExec s a = true ↔ s.instrBase.toNat ≤ a.toNat ∧ a.toNat < dataBase s :=
  decide_eq_true_iff

theorem validData_iff {s : State} {a : Word} :
    validData s a = true ↔ a.toNat % 4 = 0 ∧ dataBase s ≤ a.toNat ∧ a.toNat < dataBase s + 4 * ndata s :=
  decide_eq_true_iff

/-- An address in the executable region has a record. -/
theorem recordAt_of_inExec {s : State} {a : Word} (h : inExec s a = true) : ∃ r, recordAt s a = some r := by
  obtain ⟨h1, h2⟩ := inExec_iff.mp h
  unfold dataBase at h2
  have := nexecOf_le_length s.imem
  have hlt : (a.toNat - s.instrBase.toNat) / 4 < s.imem.length := by omega
  exact ⟨s.imem[(a.toNat - s.instrBase.toNat) / 4], by simp [recordAt, hlt]⟩

end Sys2Proof.Machine
end

