-- ==== Sys2Proof/Laws/Exec.lean ====
section
/-!
SUPPORT. What an instruction, and a record of any class, can do in each stage: one inversion lemma per stage, so that no
proof above this file unfolds a meaning.
-/

namespace Sys2Proof.Machine

open Host (Outcome)

/-- Every meaning answers a next state; a fault is taken inside it. -/
theorem exec_next (i : Instr) (s : State) : ∃ t, exec i s = .next t := by
  cases i <;> exact ⟨_, rfl⟩

/-- Every record, of any class, answers a next state in every stage. -/
theorem runRecord_next (r : Record) (p : Phase) (s : State) : ∃ t, runRecord r p s = .next t := by
  unfold runRecord
  split
  · exact exec_next _ _
  · exact ⟨_, rfl⟩
  · exact ⟨_, rfl⟩

/-! ## Classes -/

/-- Of the thirteen issuable classes only SW has no destination. -/
theorem destOf_of_not_control {i : Instr} (h : isControl i = false) (hs : isStore i = false) :
    ∃ d, destOf i = some d := by
  cases i <;> first | exact ⟨_, rfl⟩ | exact Bool.noConfusion h | exact Bool.noConfusion hs

theorem destOf_control {i : Instr} (h : isControl i = true) : destOf i = none := by
  cases i <;> first | rfl | exact Bool.noConfusion h

theorem destOf_store {i : Instr} (h : isStore i = true) : destOf i = none := by
  cases i <;> first | rfl | exact Bool.noConfusion h

theorem isControl_store {i : Instr} (h : isStore i = true) : isControl i = false := by
  cases i <;> first | rfl | exact Bool.noConfusion h

theorem isControl_load {i : Instr} (h : isLoad i = true) : isControl i = false := by
  cases i <;> first | rfl | exact Bool.noConfusion h

/-! ## Fetch -/

/-- An ordinary instruction at Fetch (R146). -/
theorem exec_fetch_ordinary {i : Instr} {s : State} {slot : FetchSlot} {fd : Option RegIdx}
    (hp : s.active.phase = .fetch slot fd) (hc : isControl i = false) :
    exec i s = .next (enterPreIssue (.instr i) s) := by
  cases i <;> first
    | exact Bool.noConfusion hc
    | (simp only [exec, execAdd, execSub, execMul, execAnd, execOr, execXor, execNor, execAddi, execAndi, execOri,
        execXori, execSw, execLw, arithmetic, store, load, hp])

/-- `Outcome(i)` of a record (R300 to R303): where a control-transfer instruction sends `pc`. -/
def recordOutcome (s : State) (r : Record) : Word :=
  match r.body with
  | .instr (.j target) => jumpTarget r.address target
  | .instr (.beq rs rt offset) => branchTarget r.address (beqTaken s rs rt) offset
  | .instr (.bgtz rs offset) => branchTarget r.address (bgtzTaken s rs) offset
  | .instr .brk => BitVec.ofNat 32 (dataBase s)
  | _ => r.address

/-- A control-transfer instruction at Fetch: it waits or it resolves (R151 to R153). -/
theorem exec_fetch_control {i : Instr} {s : State} {slot : FetchSlot} {fd : Option RegIdx}
    (hp : s.active.phase = .fetch slot fd) (hc : isControl i = true) :
    exec i s =
      .next (if branchBlocked s (srcsOf i) slot fd then wait i s
        else resolve i (recordOutcome s (activeRecord (.instr i) s)) s) := by
  cases i <;> first
    | exact Bool.noConfusion hc
    | (simp only [exec, execJ, execBeq, execBgtz, execBrk, controlFlow, hp]; rfl)

/-! ## Issue -/

/-- Every instruction at Issue is moved on and its destination reserved (R193). -/
theorem exec_issue {i : Instr} {s : State} (hp : s.active.phase = .issue) :
    exec i s = .next (enterPreALU (.instr i) (destOf i) s) := by
  cases i <;> simp only [exec, execAdd, execSub, execMul, execAnd, execOr, execXor, execNor, execAddi, execAndi,
    execOri, execXori, execSw, execLw, execJ, execBeq, execBgtz, execBrk, arithmetic, store, load, controlFlow, hp, destOf]

theorem runRecord_issue (r : Record) (s : State) :
    runRecord r .issue s = .next (enterPreALU r.body (recordDest r) (activate r .issue s)) := by
  obtain ⟨a, b⟩ := r
  cases b with
  | instr i => exact exec_issue rfl
  | data v => rfl
  | unknown => rfl

/-! ## ALU -/

/-- What the ALU computes from the registers: a result (R271 to R277, R291 to R294) or an effective address (R321).
The control-transfer classes, which the ALU cannot handle, have a value here that nothing uses. -/
def recordAluOutput (s : State) (r : Record) : Word :=
  match r.body with
  | .instr (.add _ rs rt) => readReg s rs + readReg s rt
  | .instr (.sub _ rs rt) => readReg s rs - readReg s rt
  | .instr (.mul _ rs rt) => readReg s rs * readReg s rt
  | .instr (.and _ rs rt) => readReg s rs &&& readReg s rt
  | .instr (.or _ rs rt) => readReg s rs ||| readReg s rt
  | .instr (.xor _ rs rt) => readReg s rs ^^^ readReg s rt
  | .instr (.nor _ rs rt) => ~~~(readReg s rs ||| readReg s rt)
  | .instr (.addi _ rt imm) => readReg s rt + zext16 imm
  | .instr (.andi _ rt imm) => readReg s rt &&& zext16 imm
  | .instr (.ori _ rt imm) => readReg s rt ||| zext16 imm
  | .instr (.xori _ rt imm) => readReg s rt ^^^ zext16 imm
  | .instr (.sw base _ offset) => effectiveAddress s base offset
  | .instr (.lw base _ offset) => effectiveAddress s base offset
  | _ => r.address

/-- At ALU a control-transfer instruction is an operand fault, a memory instruction goes to PreMEM, and every other
one to PostALU (R211 to R215). -/
theorem exec_alu {i : Instr} {s : State} (hp : s.active.phase = .alu) :
    (isControl i = true ∧ exec i s = .next (operandAbsent s)) ∨
    ((isStore i || isLoad i) = true ∧ exec i s = .next (push .preMEM
      ⟨activeRecord (.instr i) s, some (recordAluOutput s (activeRecord (.instr i) s))⟩ s)) ∨
    (isControl i = false ∧ (isStore i || isLoad i) = false ∧ exec i s = .next (push .postALU
      ⟨activeRecord (.instr i) s, some (recordAluOutput s (activeRecord (.instr i) s))⟩ s)) := by
  cases i <;> simp only [exec, execAdd, execSub, execMul, execAnd, execOr, execXor, execNor, execAddi, execAndi,
    execOri, execXori, execSw, execLw, execJ, execBeq, execBgtz, execBrk, arithmetic, store, load, controlFlow, hp]
  case sw | lw => exact .inr (.inl ⟨rfl, rfl⟩)
  case j | beq | bgtz | brk => exact .inl ⟨rfl, by trivial⟩
  all_goals exact .inr (.inr ⟨rfl, rfl, rfl⟩)

/-! ## MEM -/

/-- What SW stores: its data register, as it stands (R221). Other classes have a value here that nothing uses. -/
def recordStoreData (s : State) (r : Record) : Word :=
  match r.body with
  | .instr (.sw _ rt _) => readReg s rt
  | _ => r.address

/-- At MEM an instruction that is not SW or LW, or an entry without an address, is an operand fault; SW stores; LW
reads and goes on to PostMEM (R221 to R223). -/
theorem exec_mem {i : Instr} {s : State} {c : Option Word} (hp : s.active.phase = .mem c) :
    ((isStore i || isLoad i) = false ∧ exec i s = .next (operandAbsent s)) ∨
    (c = none ∧ exec i s = .next (operandAbsent s)) ∨
    (isStore i = true ∧ ∃ a, c = some a ∧
      exec i s = .next (memWrite a (recordStoreData s (activeRecord (.instr i) s)) s)) ∨
    (isLoad i = true ∧ ∃ a, c = some a ∧
      exec i s = .next (match memRead a s with
        | .error f => raiseFault f s
        | .ok v => push .postMEM ⟨activeRecord (.instr i) s, some v⟩ s)) := by
  cases c <;> cases i <;> simp only [exec, execAdd, execSub, execMul, execAnd, execOr, execXor, execNor, execAddi,
    execAndi, execOri, execXori, execSw, execLw, execJ, execBeq, execBgtz, execBrk, arithmetic, store, load, controlFlow, hp]
  case some.sw => exact .inr (.inr (.inl ⟨rfl, _, rfl, rfl⟩))
  case some.lw => exact .inr (.inr (.inr ⟨rfl, _, rfl, rfl⟩))
  case none.sw | none.lw => exact .inr (.inl ⟨by trivial, by trivial⟩)
  all_goals exact .inl ⟨rfl, by trivial⟩

/-! ## Writeback -/

/-- At Writeback an instruction without a destination is an operand fault, and every other one commits (R231, R233). -/
theorem exec_writeback {i : Instr} {s : State} {c : Option Word} (hp : s.active.phase = .writeback c) :
    exec i s = .next (match destOf i with
      | none => operandAbsent s
      | some d => commit d c s) := by
  cases i <;> simp only [exec, execAdd, execSub, execMul, execAnd, execOr, execXor, execNor, execAddi, execAndi,
    execOri, execXori, execSw, execLw, execJ, execBeq, execBgtz, execBrk, arithmetic, store, load, controlFlow, hp, destOf]

theorem runRecord_writeback (r : Record) (c : Option Word) (s : State) :
    runRecord r (.writeback c) s = .next (match recordDest r with
      | none => operandAbsent (activate r (.writeback c) s)
      | some d => commit d c (activate r (.writeback c) s)) := by
  obtain ⟨a, b⟩ := r
  cases b with
  | instr i => exact exec_writeback rfl
  | data v => rfl
  | unknown => rfl

end Sys2Proof.Machine
end

