-- ==== Sys2Proof/Laws/Stages.lean ====
section
/-!
SUPPORT. What each stage controller can do, once: later proofs cite these cases and unfold no stage.
-/

namespace Sys2Proof.Machine

open Host (Outcome)

/-! ## Going on unless a fault was raised -/

theorem thenIfRunning_next {o : Outcome State Fault Refusal} {f : State → Outcome State Fault Refusal}
    (ho : ∃ u, o = .next u) (hf : ∀ u, ∃ t, f u = .next t) : ∃ t, thenIfRunning o f = .next t := by
  obtain ⟨u, rfl⟩ := ho
  unfold thenIfRunning
  by_cases h : u.status = .running
  · simpa [h] using hf u
  · exact ⟨u, by simp [h]⟩

/-- Where the answer of a sequence comes from: the second part, or the first if it raised. -/
theorem thenIfRunning_cases {o : Outcome State Fault Refusal} {f : State → Outcome State Fault Refusal} {t : State}
    (h : thenIfRunning o f = .next t) :
    ∃ u, o = .next u ∧ ((u.status = .running ∧ f u = .next t) ∨ (u.status ≠ .running ∧ t = u)) := by
  unfold thenIfRunning at h
  split at h
  · rename_i u
    refine ⟨u, rfl, ?_⟩
    split at h
    · exact .inl ⟨‹_›, h⟩
    · exact .inr ⟨‹_›, by cases h; rfl⟩
  · cases h
  · cases h

theorem thenIfRunning_of_running {u : State} {f : State → Outcome State Fault Refusal} (h : u.status = .running) :
    thenIfRunning (.next u) f = f u := by
  simp [thenIfRunning, h]

/-! ## Writeback -/

theorem commitLane_next (q : QueueName) (s : State) : ∃ t, commitLane q s = .next t := by
  unfold commitLane
  rcases pop_spec q s with ⟨_, h⟩ | ⟨e, es, _, h⟩
  · rw [h]; exact ⟨s, rfl⟩
  · rw [h]; exact runRecord_next _ _ _

theorem writebackStage_next (s : State) : ∃ t, writebackStage s = .next t :=
  thenIfRunning_next (commitLane_next _ _) (commitLane_next _)

/-- One lane of Writeback: nothing to do, an operand fault, or a commit. -/
theorem commitLane_cases {q : QueueName} {s t : State} (h : commitLane q s = .next t) :
    ((queueOf s q).entries = [] ∧ t = s) ∨
    ∃ e es, (queueOf s q).entries = e :: es ∧
      (((recordDest e.record = none ∨ e.cached = none) ∧
          t = operandAbsent (activate e.record (.writeback e.cached) (setEntries q es s))) ∨
        ∃ d v, recordDest e.record = some d ∧ e.cached = some v ∧
          t = release d (writeReg d v (activate e.record (.writeback e.cached) (setEntries q es s)))) := by
  unfold commitLane at h
  rcases pop_spec q s with ⟨hq, hp⟩ | ⟨e, es, hq, hp⟩
  · rw [hp] at h; exact .inl ⟨hq, by cases h; rfl⟩
  · rw [hp] at h
    simp only [runRecord_writeback, Outcome.next.injEq] at h
    refine .inr ⟨e, es, hq, ?_⟩
    cases hd : recordDest e.record with
    | none => rw [hd] at h; exact .inl ⟨.inl rfl, h.symm⟩
    | some d =>
      rw [hd] at h
      cases hc : e.cached with
      | none => rw [hc] at h; exact .inl ⟨.inr rfl, h.symm⟩
      | some v => rw [hc] at h; exact .inr ⟨d, v, rfl, rfl, h.symm⟩

/-! ## MEM -/

theorem memStage_next (s : State) : ∃ t, memStage s = .next t := by
  unfold memStage
  rcases pop_spec .preMEM s with ⟨_, h⟩ | ⟨e, es, _, h⟩
  · rw [h]; exact ⟨s, rfl⟩
  · rw [h]; exact runRecord_next _ _ _

/-- MEM: nothing to do, a fault, a store, or a load that goes on to PostMEM. -/
theorem memStage_cases {s t : State} (h : memStage s = .next t) :
    (s.preMEM.entries = [] ∧ t = s) ∨
    ∃ e es, s.preMEM.entries = e :: es ∧
      ((∃ f, t = raiseFault f (activate e.record (.mem e.cached) (setEntries .preMEM es s)) ∧
          ((f = .operandAbsent e.record.address ∧ (recordIsMemory e.record = false ∨ e.cached = none)) ∨
            (∃ a, f = .dataAddressFault a ∧ e.cached = some a ∧ recordIsMemory e.record = true ∧
              validData s a = false) ∨
            (f = .queueOverflow .postMEM ∧ recordIsLoad e.record = true ∧ 1 ≤ s.postMEM.entries.length ∧
              ∃ a, e.cached = some a ∧ validData s a = true))) ∨
        (∃ a, e.cached = some a ∧ recordIsStore e.record = true ∧ validData s a = true ∧
          t = { activate e.record (.mem e.cached) (setEntries .preMEM es s) with
            mem := Memory.writeWord s.mem a.toNat (recordStoreData s e.record) }) ∨
        (∃ a, e.cached = some a ∧ recordIsLoad e.record = true ∧ validData s a = true ∧
          s.postMEM.entries = [] ∧
          t = setEntries .postMEM [⟨e.record, some (Memory.readWord s.mem a.toNat)⟩]
            (activate e.record (.mem e.cached) (setEntries .preMEM es s)))) := by
  unfold memStage at h
  rcases pop_spec .preMEM s with ⟨hq, hp⟩ | ⟨e, es, hq, hp⟩
  · rw [hp] at h; exact .inl ⟨hq, by cases h; rfl⟩
  · rw [hp] at h
    refine .inr ⟨e, es, hq, ?_⟩
    obtain ⟨⟨a, b⟩, c⟩ := e
    simp only [runRecord] at h
    cases b with
    | data v => exact .inl ⟨_, by cases h; rfl, .inl ⟨rfl, .inl rfl⟩⟩
    | unknown => exact .inl ⟨_, by cases h; rfl, .inl ⟨rfl, .inl rfl⟩⟩
    | instr i =>
      dsimp only at h ⊢
      generalize hu : activate (⟨a, .instr i⟩ : Record) (.mem c) (setEntries .preMEM es s) = u at h ⊢
      have hphase : u.active.phase = .mem c := by rw [← hu]; rfl
      have haddr : u.active.address = a := by rw [← hu]; rfl
      have hvd : ∀ a, validData u a = validData s a := by intro a; rw [← hu]; rfl
      have hmem : u.mem = s.mem := by rw [← hu]; rfl
      have hpost : u.postMEM = s.postMEM := by rw [← hu]; rfl
      have hdata : recordStoreData u (activeRecord (.instr i) u) = recordStoreData s ⟨a, .instr i⟩ := by
        rw [← hu]; cases i <;> rfl
      rcases exec_mem hphase with ⟨hm, he⟩ | ⟨hc, he⟩ | ⟨hs, ea, hc, he⟩ | ⟨hl, ea, hc, he⟩
      · rw [he] at h
        exact .inl ⟨_, (Outcome.next.inj h).symm, .inl ⟨by rw [haddr], .inl hm⟩⟩
      · rw [he] at h
        exact .inl ⟨_, (Outcome.next.inj h).symm, .inl ⟨by rw [haddr], .inr hc⟩⟩
      · rw [he] at h
        rcases memWrite_spec ea (recordStoreData u (activeRecord (.instr i) u)) u with ⟨hv, hw⟩ | ⟨hv, hw⟩
        · rw [hw] at h
          refine .inr (.inl ⟨ea, hc, hs, by rw [← hvd]; exact hv, ?_⟩)
          rw [← Outcome.next.inj h, hmem, hdata]
        · rw [hw] at h
          refine .inl ⟨_, (Outcome.next.inj h).symm, .inr (.inl ⟨ea, rfl, hc, ?_, by rw [← hvd]; exact hv⟩)⟩
          simp [recordIsMemory, hs]
      · rw [he] at h
        rcases memRead_spec ea u with ⟨hv, hr⟩ | ⟨hv, hr⟩
        · rw [hr] at h
          rcases push_spec .postMEM ⟨activeRecord (.instr i) u, some (Memory.readWord u.mem ea.toNat)⟩ u with
            ⟨hlen, hpush⟩ | ⟨hlen, hpush⟩
          · dsimp only at h
            rw [hpush] at h
            refine .inl ⟨_, (Outcome.next.inj h).symm, .inr (.inr ⟨rfl, hl, ?_, ea, hc, by rw [← hvd]; exact hv⟩)⟩
            simpa [queueOf, capacity, hpost] using hlen
          · dsimp only at h
            rw [hpush] at h
            have hnil : s.postMEM.entries = [] := by
              simpa [queueOf, capacity, hpost] using hlen
            refine .inr (.inr ⟨ea, hc, hl, by rw [← hvd]; exact hv, hnil, ?_⟩)
            rw [← Outcome.next.inj h]
            simp [queueOf, hpost, hnil, hmem, activeRecord, haddr]
        · rw [hr] at h
          refine .inl ⟨_, (Outcome.next.inj h).symm, .inr (.inl ⟨ea, rfl, hc, ?_, by rw [← hvd]; exact hv⟩)⟩
          simp [recordIsMemory, hl]

/-! ## ALU -/

theorem aluStage_next (s : State) : ∃ t, aluStage s = .next t := by
  unfold aluStage
  rcases pop_spec .preALU s with ⟨_, h⟩ | ⟨e, es, _, h⟩
  · rw [h]; exact ⟨s, rfl⟩
  · rw [h]; exact runRecord_next _ _ _

/-- ALU: nothing to do, a fault, a memory instruction that goes on to PreMEM, or a result that goes on to PostALU. -/
theorem aluStage_cases {s t : State} (h : aluStage s = .next t) :
    (s.preALU.entries = [] ∧ t = s) ∨
    ∃ e es, s.preALU.entries = e :: es ∧
      ((∃ f, t = raiseFault f (activate e.record .alu (setEntries .preALU es s)) ∧
          ((f = .operandAbsent e.record.address ∧ recordIsIssuable e.record = false) ∨
            (f = .queueOverflow .preMEM ∧ recordIsMemory e.record = true ∧ 1 ≤ s.preMEM.entries.length) ∨
            (f = .queueOverflow .postALU ∧ recordIsMemory e.record = false ∧ 1 ≤ s.postALU.entries.length))) ∨
        (recordIsMemory e.record = true ∧ s.preMEM.entries = [] ∧
          t = setEntries .preMEM [⟨e.record, some (recordAluOutput s e.record)⟩]
            (activate e.record .alu (setEntries .preALU es s))) ∨
        (recordIsIssuable e.record = true ∧ recordIsMemory e.record = false ∧ s.postALU.entries = [] ∧
          t = setEntries .postALU [⟨e.record, some (recordAluOutput s e.record)⟩]
            (activate e.record .alu (setEntries .preALU es s)))) := by
  unfold aluStage at h
  rcases pop_spec .preALU s with ⟨hq, hp⟩ | ⟨e, es, hq, hp⟩
  · rw [hp] at h; exact .inl ⟨hq, by cases h; rfl⟩
  · rw [hp] at h
    refine .inr ⟨e, es, hq, ?_⟩
    obtain ⟨⟨a, b⟩, c⟩ := e
    simp only [runRecord] at h
    cases b with
    | data v => exact .inl ⟨_, by cases h; rfl, .inl ⟨rfl, rfl⟩⟩
    | unknown => exact .inl ⟨_, by cases h; rfl, .inl ⟨rfl, rfl⟩⟩
    | instr i =>
      dsimp only at h ⊢
      generalize hu : activate (⟨a, .instr i⟩ : Record) .alu (setEntries .preALU es s) = u at h ⊢
      have hphase : u.active.phase = .alu := by rw [← hu]; rfl
      have haddr : u.active.address = a := by rw [← hu]; rfl
      have hpm : u.preMEM = s.preMEM := by rw [← hu]; rfl
      have hpa : u.postALU = s.postALU := by rw [← hu]; rfl
      have hout : recordAluOutput u (activeRecord (.instr i) u) = recordAluOutput s ⟨a, .instr i⟩ := by
        rw [← hu]; cases i <;> rfl
      rcases exec_alu hphase with ⟨hc, he⟩ | ⟨hm, he⟩ | ⟨hc, hm, he⟩
      all_goals try rw [hout] at he
      · rw [he] at h
        refine .inl ⟨_, (Outcome.next.inj h).symm, .inl ⟨by rw [haddr], ?_⟩⟩
        simp [recordIsIssuable, hc]
      · rw [he] at h
        rcases push_spec .preMEM ⟨activeRecord (.instr i) u, some (recordAluOutput s ⟨a, .instr i⟩)⟩ u with ⟨hlen, hpush⟩ | ⟨hlen, hpush⟩
        · rw [hpush] at h
          refine .inl ⟨_, (Outcome.next.inj h).symm, .inr (.inl ⟨rfl, hm, ?_⟩)⟩
          simpa [queueOf, capacity, hpm] using hlen
        · rw [hpush] at h
          have hnil : s.preMEM.entries = [] := by simpa [queueOf, capacity, hpm] using hlen
          refine .inr (.inl ⟨hm, hnil, ?_⟩)
          rw [← Outcome.next.inj h]
          simp [queueOf, hpm, hnil, activeRecord, haddr]
      · rw [he] at h
        rcases push_spec .postALU ⟨activeRecord (.instr i) u, some (recordAluOutput s ⟨a, .instr i⟩)⟩ u with ⟨hlen, hpush⟩ | ⟨hlen, hpush⟩
        · rw [hpush] at h
          refine .inl ⟨_, (Outcome.next.inj h).symm, .inr (.inr ⟨rfl, hm, ?_⟩)⟩
          simpa [queueOf, capacity, hpa] using hlen
        · rw [hpush] at h
          have hnil : s.postALU.entries = [] := by simpa [queueOf, capacity, hpa] using hlen
          refine .inr (.inr ⟨?_, hm, hnil, ?_⟩)
          · simp [recordIsIssuable, hc]
          · rw [← Outcome.next.inj h]
            simp [queueOf, hpa, hnil, activeRecord, haddr]

/-! ## Issue -/

theorem issueScan_next (kept : List Entry) (issued : List Record) (es : List Entry) (s : State) :
    ∃ t, issueScan kept issued es s = .next t := by
  induction es generalizing kept issued s with
  | nil => exact ⟨_, rfl⟩
  | cons c es ih =>
    unfold issueScan
    split
    · exact thenIfRunning_next (runRecord_next _ _ _) fun u => ih _ _ u
    · exact ih _ _ s

theorem issueStage_next (s : State) : ∃ t, issueStage s = .next t := by
  unfold issueStage
  split
  · exact ⟨s, rfl⟩
  · exact issueScan_next _ _ _ s

/-- The four conditions of R192. -/
theorem mayIssue_iff {s : State} {c : Record} {p issued : List Record} :
    mayIssue s c p issued = true ↔
      issued.length < 2 ∧ s.preALU.entries.length < 2 ∧ issueBlocked s c p = false ∧
        ∀ c1, issued.head? = some c1 → pairConflict c1 c = false := by
  have hroom : isFull .preALU s = false ↔ s.preALU.entries.length < 2 := not_isFull_iff
  cases issued <;> simp [mayIssue, hroom, Config.issueWidth, and_assoc]

theorem insertByAddress_perm (e : Entry) (es : List Entry) : (insertByAddress e es).Perm (e :: es) := by
  induction es with
  | nil => exact .refl _
  | cons f fs ih =>
    unfold insertByAddress
    split
    · exact .refl _
    · exact (ih.cons f).trans (.swap e f fs)

/-- The sort loses and adds nothing (R198). -/
theorem sortByAddress_perm (es : List Entry) : (sortByAddress es).Perm es := by
  induction es with
  | nil => exact .refl _
  | cons e es ih => exact (insertByAddress_perm e _).trans (ih.cons e)

theorem insertByAddress_pairwise (e : Entry) {es : List Entry}
    (h : es.Pairwise fun a b => a.record.address.toNat ≤ b.record.address.toNat) :
    (insertByAddress e es).Pairwise fun a b => a.record.address.toNat ≤ b.record.address.toNat := by
  induction es with
  | nil => simp [insertByAddress]
  | cons f fs ih =>
    unfold insertByAddress
    obtain ⟨hf, hfs⟩ := List.pairwise_cons.mp h
    split
    · rename_i hle
      refine List.pairwise_cons.mpr ⟨fun b hb => ?_, h⟩
      obtain rfl | hb := List.mem_cons.mp hb
      · exact hle
      · exact Nat.le_trans hle (hf b hb)
    · refine List.pairwise_cons.mpr ⟨fun b hb => ?_, ih hfs⟩
      obtain rfl | hb := List.mem_cons.mp ((insertByAddress_perm e fs).subset hb)
      · omega
      · exact hf b hb

/-- The sort leaves addresses ascending (R198). -/
theorem sortByAddress_pairwise (es : List Entry) :
    (sortByAddress es).Pairwise fun a b => a.record.address.toNat ≤ b.record.address.toNat := by
  induction es with
  | nil => exact .nil
  | cons e es ih => exact insertByAddress_pairwise e ih

/-- A candidate that may issue does: PreALU has room, so nothing is raised. -/
theorem runRecord_issue_of_room {r : Record} {s : State} (h : isFull .preALU s = false) :
    runRecord r .issue s = .next
      (reserveDest (recordDest r) r.address
        (setEntries .preALU (s.preALU.entries ++ [⟨r, none⟩]) (activate r .issue s))) := by
  rw [runRecord_issue]
  unfold enterPreALU
  rw [pushThen_of_room (by simpa using not_isFull_iff.mp h)]
  rfl

/-- One step of the scan. -/
theorem issueScan_cons (kept : List Entry) (issued : List Record) (c : Entry) (rest : List Entry) (s : State)
    (hr : s.status = .running) :
    issueScan kept issued (c :: rest) s =
      if mayIssue s c.record ((kept ++ rest).map Entry.record) issued then
        issueScan kept (issued ++ [c.record]) rest
          (reserveDest (recordDest c.record) c.record.address
            (setEntries .preALU (s.preALU.entries ++ [⟨c.record, none⟩])
              (activate c.record .issue (setEntries .preIssue (kept ++ rest) s))))
      else issueScan (kept ++ [c]) issued rest s := by
  rw [issueScan]
  split
  · rename_i hm
    have hroom : isFull .preALU (setEntries .preIssue (kept ++ rest) s) = false := by
      simp only [mayIssue, Bool.and_eq_true, Bool.not_eq_true'] at hm
      exact hm.1.1.2
    rw [runRecord_issue_of_room hroom, thenIfRunning_of_running]
    · rfl
    · cases recordDest c.record <;> exact hr
  · rfl

/-! ## Fetch -/

theorem fetchSlot_next {slot : FetchSlot} {fd : Option RegIdx}
    {next : Option RegIdx → State → Outcome State Fault Refusal} (hn : ∀ d u, ∃ t, next d u = .next t) (s : State) :
    ∃ t, fetchSlot slot fd next s = .next t := by
  unfold fetchSlot
  split
  · split
    · exact ⟨s, rfl⟩
    · split
      · split
        · exact runRecord_next _ _ _
        · split
          · exact ⟨s, rfl⟩
          · exact thenIfRunning_next (runRecord_next _ _ _) (hn _)
      · exact thenIfRunning_next (runRecord_next _ _ _) (hn _)
      · exact runRecord_next _ _ _
  · exact ⟨s, rfl⟩

theorem fetchStage_next (s : State) : ∃ t, fetchStage s = .next t := by
  unfold fetchStage
  split
  · exact ⟨s, rfl⟩
  · exact fetchSlot_next (fun d u => fetchSlot_next (fun _ v => ⟨v, rfl⟩) u) s

/-- One fetch slot: outside the region, a blocked or a resolved control-transfer instruction, a full PreIssue, a pushed
instruction and the next slot, an UNKNOWN word and the next slot, or the fault of a DATA record. -/
theorem fetchSlot_cases {slot : FetchSlot} {fd : Option RegIdx}
    {next : Option RegIdx → State → Outcome State Fault Refusal} {s t : State} (hs : s.status = .running)
    (h : fetchSlot slot fd next s = .next t) :
    (inExec s s.pc = false ∧ t = s) ∨
    ∃ r, inExec s s.pc = true ∧ recordAt s s.pc = some r ∧
      ((recordIsControl r = true ∧ branchBlocked s (recordSrcs r) slot fd = true ∧
          t = { activate r (.fetch slot fd) s with waiting := some r }) ∨
        (recordIsControl r = true ∧ branchBlocked s (recordSrcs r) slot fd = false ∧
          t = { activate r (.fetch slot fd) s with
            pc := recordOutcome s r, resolved := some r, waiting := none }) ∨
        (recordIsIssuable r = true ∧ isFull .preIssue s = true ∧ t = s) ∨
        (recordIsIssuable r = true ∧ isFull .preIssue s = false ∧
          next (recordDest r) (advancePc (setEntries .preIssue (s.preIssue.entries ++ [⟨r, none⟩])
            (activate r (.fetch slot fd) s))) = .next t) ∨
        (r.body = .unknown ∧
          next fd (advancePc (signalNotice (.unknownOpcode r.address) (activate r (.fetch slot fd) s))) = .next t) ∨
        (recordIsData r = true ∧ t = operandAbsent (activate r (.fetch slot fd) s))) := by
  unfold fetchSlot at h
  by_cases hin : inExec s s.pc = true
  · rw [if_pos hin] at h
    obtain ⟨r, hr⟩ := recordAt_of_inExec hin
    rw [hr] at h
    refine .inr ⟨r, hin, hr, ?_⟩
    obtain ⟨a, b⟩ := r
    cases b with
    | data v =>
      refine .inr (.inr (.inr (.inr (.inr ⟨rfl, ?_⟩))))
      exact (Outcome.next.inj h).symm
    | unknown =>
      refine .inr (.inr (.inr (.inr (.inl ⟨rfl, ?_⟩))))
      dsimp only [runRecord, runUnknown, activate] at h
      rw [thenIfRunning_of_running (by exact hs)] at h
      exact h
    | instr i =>
      dsimp only at h
      by_cases hc : isControl i = true
      · rw [if_pos hc] at h
        have hp : (activate (⟨a, .instr i⟩ : Record) (.fetch slot fd) s).active.phase = .fetch slot fd := rfl
        have he := exec_fetch_control hp hc
        dsimp only [runRecord] at h
        rw [he] at h
        by_cases hb : branchBlocked s (srcsOf i) slot fd = true
        · refine .inl ⟨hc, hb, ?_⟩
          have hb' : branchBlocked (activate (⟨a, .instr i⟩ : Record) (.fetch slot fd) s) (srcsOf i) slot fd = true := hb
          rw [if_pos hb'] at h
          exact (Outcome.next.inj h).symm
        · simp only [Bool.not_eq_true] at hb
          refine .inr (.inl ⟨hc, hb, ?_⟩)
          have hb' : branchBlocked (activate (⟨a, .instr i⟩ : Record) (.fetch slot fd) s) (srcsOf i) slot fd = false := hb
          rw [hb'] at h
          exact (Outcome.next.inj h).symm
      · rw [if_neg hc] at h
        simp only [Bool.not_eq_true] at hc
        by_cases hf : isFull .preIssue s = true
        · rw [if_pos hf] at h
          refine .inr (.inr (.inl ⟨by simp [recordIsIssuable, hc], hf, ?_⟩))
          exact (Outcome.next.inj h).symm
        · rw [if_neg hf] at h
          simp only [Bool.not_eq_true] at hf
          refine .inr (.inr (.inr (.inl ⟨by simp [recordIsIssuable, hc], hf, ?_⟩)))
          dsimp only [runRecord] at h
          have hroom : (queueOf (activate (⟨a, .instr i⟩ : Record) (.fetch slot fd) s) .preIssue).entries.length <
              capacity .preIssue := not_isFull_iff.mp hf
          rw [exec_fetch_ordinary (slot := slot) (fd := fd) rfl hc, enterPreIssue, pushThen_of_room hroom,
            thenIfRunning_of_running (by exact hs)] at h
          exact h
  · rw [if_neg hin] at h
    exact .inl ⟨by simpa using hin, (Outcome.next.inj h).symm⟩

end Sys2Proof.Machine
end

