-- ==== Sys2Proof/Laws/Cycle.lean ====
section
/-!
SUPPORT. What a cycle and a step can do, once: the stages in their order, each stopping the cycle if it raised.
-/

namespace Sys2Proof.Machine

open Host (Outcome)

/-- A cycle answers what its last stage left, with the termination test made only if no stage raised. -/
inductive CycleEnd : State → State → Prop where
  | writeback {s u t : State} : writebackStage (beginCycle s) = .next u → u.status ≠ .running → t = u → CycleEnd s t
  | mem {s u v t : State} : writebackStage (beginCycle s) = .next u → u.status = .running →
      memStage u = .next v → v.status ≠ .running → t = v → CycleEnd s t
  | alu {s u v w t : State} : writebackStage (beginCycle s) = .next u → u.status = .running →
      memStage u = .next v → v.status = .running → aluStage v = .next w → w.status ≠ .running → t = w → CycleEnd s t
  | issue {s u v w a t : State} : writebackStage (beginCycle s) = .next u → u.status = .running →
      memStage u = .next v → v.status = .running → aluStage v = .next w → w.status = .running →
      issueStage w = .next a → a.status ≠ .running → t = a → CycleEnd s t
  | fetch {s u v w a b t : State} : writebackStage (beginCycle s) = .next u → u.status = .running →
      memStage u = .next v → v.status = .running → aluStage v = .next w → w.status = .running →
      issueStage w = .next a → a.status = .running → fetchStage a = .next b → b.status ≠ .running → t = b →
      CycleEnd s t
  | complete {s u v w a b t : State} : writebackStage (beginCycle s) = .next u → u.status = .running →
      memStage u = .next v → v.status = .running → aluStage v = .next w → w.status = .running →
      issueStage w = .next a → a.status = .running → fetchStage a = .next b → b.status = .running →
      t = terminationTest b → CycleEnd s t

/-- Everything a cycle can do. -/
theorem cycleOnce_cases {s t : State} (h : cycleOnce s = .next t) : CycleEnd s t := by
  unfold cycleOnce backEnd at h
  obtain ⟨b, hb, h⟩ := thenIfRunning_cases h
  obtain ⟨a, ha, hb⟩ := thenIfRunning_cases hb
  obtain ⟨w, hw, ha⟩ := thenIfRunning_cases ha
  obtain ⟨v, hv, hw⟩ := thenIfRunning_cases hw
  obtain ⟨u, hu, hv⟩ := thenIfRunning_cases hv
  rcases hv with ⟨ru, hv⟩ | ⟨nu, rfl⟩
  · rcases hw with ⟨rv, hw⟩ | ⟨nv, rfl⟩
    · rcases ha with ⟨rw, ha⟩ | ⟨nw, rfl⟩
      · rcases hb with ⟨ra, hb⟩ | ⟨na, rfl⟩
        · rcases h with ⟨rb, h⟩ | ⟨nb, rfl⟩
          · exact .complete hu ru hv rv hw rw ha ra hb rb (Outcome.next.inj h).symm
          · exact .fetch hu ru hv rv hw rw ha ra hb nb rfl
        · rcases h with ⟨rb, _⟩ | ⟨_, rfl⟩
          · exact absurd rb na
          · exact .issue hu ru hv rv hw rw ha na rfl
      · rcases hb with ⟨ra, _⟩ | ⟨_, rfl⟩
        · exact absurd ra nw
        · rcases h with ⟨rb, _⟩ | ⟨_, rfl⟩
          · exact absurd rb nw
          · exact .alu hu ru hv rv hw nw rfl
    · rcases ha with ⟨rw, _⟩ | ⟨_, rfl⟩
      · exact absurd rw nv
      · rcases hb with ⟨ra, _⟩ | ⟨_, rfl⟩
        · exact absurd ra nv
        · rcases h with ⟨rb, _⟩ | ⟨_, rfl⟩
          · exact absurd rb nv
          · exact .mem hu ru hv nv rfl
  · rcases hw with ⟨rv, _⟩ | ⟨_, rfl⟩
    · exact absurd rv nu
    · rcases ha with ⟨rw, _⟩ | ⟨_, rfl⟩
      · exact absurd rw nu
      · rcases hb with ⟨ra, _⟩ | ⟨_, rfl⟩
        · exact absurd ra nu
        · rcases h with ⟨rb, _⟩ | ⟨_, rfl⟩
          · exact absurd rb nu
          · exact .writeback hu nu rfl

theorem cycleOnce_next (s : State) : ∃ t, cycleOnce s = .next t := by
  unfold cycleOnce backEnd
  exact thenIfRunning_next (thenIfRunning_next (thenIfRunning_next (thenIfRunning_next (thenIfRunning_next
    (writebackStage_next _) memStage_next) aluStage_next) issueStage_next) fetchStage_next) fun u => ⟨_, rfl⟩

/-- Everything a step can do: nothing at all when not RUNNING, otherwise a cycle. -/
theorem step_cases {s t : State} (h : step s = .next t) :
    (s.status ≠ .running ∧ t = s) ∨ (s.status = .running ∧ ∃ u, CycleEnd s u ∧ t = rest u) := by
  unfold step clockEdge at h
  by_cases hs : s.status = .running
  · rw [if_pos hs] at h
    obtain ⟨u, hu⟩ := cycleOnce_next s
    rw [hu] at h
    exact .inr ⟨hs, u, cycleOnce_cases hu, (Outcome.next.inj h).symm⟩
  · rw [if_neg hs] at h
    exact .inl ⟨hs, (Outcome.next.inj h).symm⟩

/-- What every stage keeps, a step keeps. -/
theorem step_keeps {P : State → Prop} (hbegin : ∀ s, P s → P (beginCycle s))
    (hwriteback : ∀ s t, P s → writebackStage s = .next t → P t) (hmem : ∀ s t, P s → memStage s = .next t → P t)
    (halu : ∀ s t, P s → aluStage s = .next t → P t)
    (hissue : ∀ s t, s.status = .running → P s → issueStage s = .next t → P t)
    (hfetch : ∀ s t, s.status = .running → P s → fetchStage s = .next t → P t)
    (htest : ∀ s, P s → P (terminationTest s)) (hrest : ∀ s, P s → P (rest s)) {s t : State} (hs : P s)
    (h : step s = .next t) : P t := by
  rcases step_cases h with ⟨_, rfl⟩ | ⟨_, u, hc, rfl⟩
  · exact hs
  · apply hrest
    cases hc with
    | writeback h1 _ e => subst e; exact hwriteback _ _ (hbegin _ hs) h1
    | mem h1 _ h2 _ e => subst e; exact hmem _ _ (hwriteback _ _ (hbegin _ hs) h1) h2
    | alu h1 _ h2 _ h3 _ e => subst e; exact halu _ _ (hmem _ _ (hwriteback _ _ (hbegin _ hs) h1) h2) h3
    | issue h1 _ h2 _ h3 r3 h4 _ e =>
      subst e; exact hissue _ _ r3 (halu _ _ (hmem _ _ (hwriteback _ _ (hbegin _ hs) h1) h2) h3) h4
    | fetch h1 _ h2 _ h3 r3 h4 r4 h5 _ e =>
      subst e
      exact hfetch _ _ r4 (hissue _ _ r3 (halu _ _ (hmem _ _ (hwriteback _ _ (hbegin _ hs) h1) h2) h3) h4) h5
    | complete h1 _ h2 _ h3 r3 h4 r4 h5 _ e =>
      subst e
      exact htest _ (hfetch _ _ r4 (hissue _ _ r3 (halu _ _ (hmem _ _ (hwriteback _ _ (hbegin _ hs) h1) h2) h3) h4) h5)

end Sys2Proof.Machine
end

