-- ==== Sys2Proof/Laws/Hazards.lean ====
section
/-!
SUPPORT. What each decision of the Hazard Detector says, as a proposition, so that no later proof unfolds a predicate.
-/

namespace Sys2Proof.Machine

theorem reserved_iff {s : State} {r : RegIdx} : reserved s r = true ↔ slotOf s.rrtc r ≠ none := by
  simp [reserved, Option.isSome_iff_ne_none]

theorem reserved_eq_false_iff {s : State} {r : RegIdx} : reserved s r = false ↔ slotOf s.rrtc r = none := by
  simp [reserved]

theorem mem_earlier_iff {c e : Record} {p : List Record} :
    e ∈ earlier c p ↔ e ∈ p ∧ e.address.toNat < c.address.toNat := by
  simp [earlier]

theorem waw_eq_false_iff {s : State} {c : Record} {p : List Record} :
    waw s c p = false ↔
      ∀ d, recordDest c = some d → slotOf s.rrtc d = none ∧ ∀ e ∈ earlier c p, recordDest e ≠ some d := by
  unfold waw
  cases recordDest c <;> simp [reserved_eq_false_iff]

theorem raw_eq_false_iff {s : State} {c : Record} {p : List Record} :
    raw s c p = false ↔
      ∀ r ∈ recordSrcs c, slotOf s.rrtc r = none ∧ ∀ e ∈ earlier c p, recordDest e ≠ some r := by
  simp [raw, reserved_eq_false_iff]

theorem war_eq_false_iff {c : Record} {p : List Record} :
    war c p = false ↔ ∀ d, recordDest c = some d → ∀ e ∈ earlier c p, d ∉ recordSrcs e := by
  unfold war
  cases recordDest c <;> simp

theorem memOrder_eq_false_iff {c : Record} {p : List Record} :
    memOrder c p = false ↔ (recordIsMemory c = true → ∀ e ∈ earlier c p, recordIsStore e = false) := by
  unfold memOrder
  cases recordIsMemory c <;> simp

theorem issueBlocked_eq_false_iff {s : State} {c : Record} {p : List Record} :
    issueBlocked s c p = false ↔
      waw s c p = false ∧ raw s c p = false ∧ war c p = false ∧ memOrder c p = false := by
  simp [issueBlocked, and_assoc]

theorem pairConflict_eq_false_iff {c1 c2 : Record} :
    pairConflict c1 c2 = false ↔
      (∀ d, recordDest c1 = some d → recordDest c2 ≠ some d ∧ d ∉ recordSrcs c2) ∧
        (∀ d, recordDest c2 = some d → d ∉ recordSrcs c1) := by
  unfold pairConflict
  cases recordDest c1 <;> cases recordDest c2 <;> simp

theorem branchBlocked_iff {s : State} {srcs : List RegIdx} {slot : FetchSlot} {fd : Option RegIdx} :
    branchBlocked s srcs slot fd = true ↔
      ∃ r ∈ srcs, slotOf s.rrtc r ≠ none ∨ (∃ e ∈ s.lastPreIssue, recordDest e = some r) ∨
        (slot = .two ∧ fd = some r) := by
  cases slot <;> simp [branchBlocked, firstSlotWrites, reserved, Option.isSome_iff_ne_none, or_assoc]

end Sys2Proof.Machine
end

