-- ==== Sys2Proof/Laws/Memory.lean ====
section
/-!
SUPPORT. The laws of data memory: the canonical form is kept, a byte written is read back, the others are left alone.
-/

namespace Sys2Proof.Machine

@[simp] theorem Memory.readByte_nil (a : Nat) : Memory.readByte [] a = Memory.unlisted := rfl

theorem Memory.wf_tail {c : Host.Cell} {m : Memory} (h : Memory.wf (c :: m) = true) : Memory.wf m = true := by
  obtain ⟨a, b⟩ := c
  cases m with
  | nil => rfl
  | cons c' m =>
    obtain ⟨a', b'⟩ := c'
    simp only [Memory.wf, Bool.and_eq_true] at h
    exact h.2

theorem Memory.wf_head_ne {a : Nat} {b : Byte} {m : Memory} (h : Memory.wf ((a, b) :: m) = true) :
    b ≠ Memory.unlisted := by
  cases m with
  | nil => simpa [Memory.wf] using h
  | cons c' m =>
    obtain ⟨a', b'⟩ := c'
    simp only [Memory.wf, Bool.and_eq_true, bne_iff_ne] at h
    exact h.1.1

/-- The canonical form, said by its head: the head is listed for a reason, and every later address is larger. -/
theorem Memory.wf_cons_iff {a : Nat} {b : Byte} {m : Memory} :
    Memory.wf ((a, b) :: m) = true ↔
      b ≠ Memory.unlisted ∧ (∀ c ∈ m, a < c.1) ∧ Memory.wf m = true := by
  induction m generalizing a b with
  | nil => simp [Memory.wf]
  | cons c' m ih =>
    obtain ⟨a', b'⟩ := c'
    constructor
    · intro h
      simp only [Memory.wf, Bool.and_eq_true, bne_iff_ne, decide_eq_true_eq] at h
      obtain ⟨⟨hb, ha⟩, hm⟩ := h
      refine ⟨hb, ?_, hm⟩
      intro c hc
      rcases List.mem_cons.mp hc with rfl | hc
      · exact ha
      · exact Nat.lt_trans ha ((ih.mp hm).2.1 c hc)
    · rintro ⟨hb, ha, hm⟩
      simp only [Memory.wf, Bool.and_eq_true, bne_iff_ne, decide_eq_true_eq]
      exact ⟨⟨hb, ha (a', b') (by simp)⟩, hm⟩

/-- An address below every listed one reads as unlisted. -/
theorem Memory.readByte_below {m : Memory} {a : Nat} (h : ∀ c ∈ m, a < c.1) :
    Memory.readByte m a = Memory.unlisted := by
  induction m with
  | nil => rfl
  | cons c m ih =>
    obtain ⟨k, b⟩ := c
    have hk : a < k := h (k, b) (by simp)
    simp only [Memory.readByte]
    rw [if_neg (by omega)]
    exact ih fun c hc => h c (by simp [hc])

/-- Where the cells of a written memory come from. -/
theorem Memory.mem_writeByte {m : Memory} {a : Nat} {v : Byte} {c : Host.Cell}
    (h : c ∈ Memory.writeByte m a v) : c ∈ m ∨ c = (a, v) := by
  induction m with
  | nil => simp only [Memory.writeByte] at h; split at h <;> simp_all
  | cons d m ih =>
    obtain ⟨k, b⟩ := d
    simp only [Memory.writeByte] at h
    split at h
    · split at h <;> simp_all
      tauto
    · split at h
      · split at h <;> simp_all
        tauto
      · rcases List.mem_cons.mp h with rfl | h
        · simp
        · rcases ih h with h | h <;> simp [h]

/-- A byte write keeps the canonical form. -/
theorem Memory.wf_writeByte {m : Memory} (h : Memory.wf m = true) (a : Nat) (v : Byte) :
    Memory.wf (Memory.writeByte m a v) = true := by
  induction m with
  | nil => simp only [Memory.writeByte]; split <;> simp_all [Memory.wf]
  | cons c m ih =>
    obtain ⟨k, b⟩ := c
    obtain ⟨hb, hlt, hm⟩ := Memory.wf_cons_iff.mp h
    simp only [Memory.writeByte]
    split
    · rename_i hak
      split
      · exact h
      · rename_i hv
        refine Memory.wf_cons_iff.mpr ⟨hv, ?_, h⟩
        intro c hc
        rcases List.mem_cons.mp hc with rfl | hc
        · exact hak
        · exact Nat.lt_trans hak (hlt c hc)
    · split
      · rename_i hak
        subst hak
        split
        · exact hm
        · rename_i hv
          exact Memory.wf_cons_iff.mpr ⟨hv, hlt, hm⟩
      · refine Memory.wf_cons_iff.mpr ⟨hb, ?_, ih hm⟩
        intro c hc
        rcases Memory.mem_writeByte hc with hc | rfl
        · exact hlt c hc
        · show k < a
          omega

/-- The byte written is read back, in a memory of canonical form. -/
theorem Memory.readByte_writeByte_same {m : Memory} (h : Memory.wf m = true) (a : Nat) (v : Byte) :
    Memory.readByte (Memory.writeByte m a v) a = v := by
  induction m with
  | nil => simp only [Memory.writeByte]; split <;> simp_all [Memory.readByte]
  | cons c m ih =>
    obtain ⟨k, b⟩ := c
    obtain ⟨hb, hlt, hm⟩ := Memory.wf_cons_iff.mp h
    simp only [Memory.writeByte]
    split
    · rename_i hak
      split
      · rename_i hv
        rw [hv]
        apply Memory.readByte_below
        intro c hc
        rcases List.mem_cons.mp hc with rfl | hc
        · exact hak
        · exact Nat.lt_trans hak (hlt c hc)
      · simp [Memory.readByte]
    · split
      · rename_i hak
        subst hak
        split
        · rename_i hv
          rw [hv]
          exact Memory.readByte_below hlt
        · simp [Memory.readByte]
      · rename_i h1 h2
        simp only [Memory.readByte]
        rw [if_neg (by omega)]
        exact ih hm

/-- Every other byte is left alone. -/
theorem Memory.readByte_writeByte_ne (m : Memory) {a b : Nat} (v : Byte) (h : b ≠ a) :
    Memory.readByte (Memory.writeByte m a v) b = Memory.readByte m b := by
  induction m with
  | nil =>
    simp only [Memory.writeByte]
    split
    · rfl
    · simp only [Memory.readByte]; rw [if_neg (Ne.symm h)]
  | cons c m ih =>
    obtain ⟨k, d⟩ := c
    simp only [Memory.writeByte]
    split
    · split
      · rfl
      · simp only [Memory.readByte]; rw [if_neg (Ne.symm h)]
    · split
      · rename_i hak
        subst hak
        split
        · simp only [Memory.readByte]; rw [if_neg (Ne.symm h)]
        · simp only [Memory.readByte]; rw [if_neg (Ne.symm h), if_neg (Ne.symm h)]
      · simp only [Memory.readByte, ih]

/-- A word write keeps the canonical form. -/
theorem Memory.wf_writeWord {m : Memory} (h : Memory.wf m = true) (a : Nat) (v : Word) :
    Memory.wf (Memory.writeWord m a v) = true :=
  Memory.wf_writeByte (Memory.wf_writeByte (Memory.wf_writeByte (Memory.wf_writeByte h _ _) _ _) _ _) _ _

/-- The cells of a memory after a word write: the old ones, or one of the four bytes of the word. -/
theorem Memory.mem_writeWord {m : Memory} {a : Nat} {v : Word} {c : Host.Cell}
    (h : c ∈ Memory.writeWord m a v) : c ∈ m ∨ (a ≤ c.1 ∧ c.1 < a + 4) := by
  unfold Memory.writeWord at h
  rcases Memory.mem_writeByte h with h | rfl
  · rcases Memory.mem_writeByte h with h | rfl
    · rcases Memory.mem_writeByte h with h | rfl
      · rcases Memory.mem_writeByte h with h | rfl
        · exact .inl h
        · right; dsimp only; omega
      · right; dsimp only; omega
    · right; dsimp only; omega
  · right; dsimp only; omega

/-- `MemWrite` keeps the canonical form, whether it stores or raises. -/
theorem memWrite_wf (a v : Word) {s : State} (h : Memory.wf s.mem = true) :
    Memory.wf (memWrite a v s).mem = true := by
  unfold memWrite
  split
  · exact Memory.wf_writeWord h _ _
  · exact h

/-- The memory after reset is in canonical form. -/
theorem reset_memory_wf : Memory.wf State.reset.mem = true := rfl

end Sys2Proof.Machine
end

