-- ==== Sys2Proof/Laws/Load.lean ====
section
/-!
SUPPORT. The laws of program load, over any decoder: what a load that succeeds answers, the records it makes, its data
memory in canonical form; and reset as the load of the empty program.
-/

namespace Sys2Proof.Machine

/-- Filling data memory from the records keeps the canonical form. -/
theorem wf_loadMemory {m : Memory} (h : Memory.wf m = true) (rs : List Record) :
    Memory.wf (loadMemory m rs) = true := by
  induction rs generalizing m with
  | nil => exact h
  | cons r rs ih =>
    unfold loadMemory
    split
    · exact ih (Memory.wf_writeWord h _ _)
    · exact ih h
    · exact ih h

/-- The default decoder meets what CORE relies on (R12, R82, R84). -/
theorem wellFormedDecoder_decodeRecord : wellFormedDecoder decodeRecord := by
  intro w a
  unfold decodeRecord
  split
  · exact ⟨rfl, fun v h => Body.noConfusion h⟩
  · exact ⟨rfl, fun v h => Body.noConfusion h⟩

/-- Everything a load can do: it answers the tabled reset state with the program in place, exactly inside the domain. -/
theorem loadProgram_spec (decoder : Decoder) (base : Word) (program : List Word) :
    (loadable base program = true ∧ loadProgram decoder base program = some { State.reset with
      instrBase := base
      pc := base
      imem := loadRecords decoder base program
      mem := loadMemory [] (loadRecords decoder base program)
      status := resetStatus base (loadRecords decoder base program)
      active := .atRest base }) ∨
    (loadable base program = false ∧ loadProgram decoder base program = none) := by
  unfold loadProgram
  cases h : loadable base program
  · exact .inr ⟨rfl, rfl⟩
  · exact .inl ⟨rfl, rfl⟩

/-- A loaded machine's data memory has the canonical form. -/
theorem loadProgram_memory_wf {decoder : Decoder} {base : Word} {program : List Word} {s : State}
    (h : loadProgram decoder base program = some s) : Memory.wf s.mem = true := by
  rcases loadProgram_spec decoder base program with ⟨_, hl⟩ | ⟨_, hl⟩
  · rw [hl] at h; cases h; exact wf_loadMemory rfl _
  · rw [hl] at h; cases h

/-- The host's one-word load leaves data memory empty, which has the canonical form. -/
theorem withFetchWord_memory_wf (s : State) (nbits w : Nat) :
    Memory.wf (s.withFetchWord nbits w).mem = true := rfl

/-- `State.reset` is the load of the empty program at the reference base, with any decoder (R403, log 4). -/
theorem reset_eq_loadProgram_nil (decoder : Decoder) :
    loadProgram decoder Config.instrBase [] = some State.reset := rfl

@[simp] theorem length_loadData (a : Word) (ws : List Word) : (loadData a ws).length = ws.length := by
  induction ws generalizing a with
  | nil => rfl
  | cons w ws ih => simp [loadData, ih]

@[simp] theorem length_loadRecords (decoder : Decoder) (a : Word) (ws : List Word) :
    (loadRecords decoder a ws).length = ws.length := by
  induction ws generalizing a with
  | nil => rfl
  | cons w ws ih => unfold loadRecords; split <;> simp [ih]

theorem addressesFrom_loadData (a : Word) (ws : List Word) : addressesFrom a (loadData a ws) = true := by
  induction ws generalizing a with
  | nil => rfl
  | cons w ws ih => simp [loadData, addressesFrom, ih]

/-- `IMEM[k].address = INSTR_BASE + 4*k` (R31), for every decoder that CORE may be given. -/
theorem addressesFrom_loadRecords {decoder : Decoder} (h : wellFormedDecoder decoder) (a : Word) (ws : List Word) :
    addressesFrom a (loadRecords decoder a ws) = true := by
  induction ws generalizing a with
  | nil => rfl
  | cons w ws ih =>
    unfold loadRecords
    split
    · simp [addressesFrom, (h w a).1, addressesFrom_loadData]
    · simp [addressesFrom, (h w a).1, ih]

end Sys2Proof.Machine
end

