-- ==== Sys2Proof/Laws/PerInstr.lean ====
section
/-!
SUPPORT. A statement about every instruction as syntax, proved one constructor at a time: "returns 0, 1, or 2 registers
this instruction reads", and only an instruction that enters the pipeline has a destination
(spec/10_state.md R27, R28).
-/

namespace Sys2Proof.Laws.Sources

open Sys2Proof.Machine

/-- At most two source registers; a control-transfer instruction or a store writes none, every other one writes one. -/
def Statement (i : Instr) : Prop :=
  (srcsOf i).length ≤ 2 ∧ (destOf i).isNone = (isControl i || isStore i)

theorem j (target : Target) : Statement (.j target) := by
  simp [Statement, srcsOf, destOf, isControl, isStore]

theorem beq (rs rt : RegIdx) (offset : Imm) : Statement (.beq rs rt offset) := by
  simp [Statement, srcsOf, destOf, isControl, isStore]

theorem bgtz (rs : RegIdx) (offset : Imm) : Statement (.bgtz rs offset) := by
  simp [Statement, srcsOf, destOf, isControl, isStore]

theorem brk : Statement .brk := by
  simp [Statement, srcsOf, destOf, isControl, isStore]

theorem sw (base rt : RegIdx) (offset : Imm) : Statement (.sw base rt offset) := by
  simp [Statement, srcsOf, destOf, isControl, isStore]

theorem lw (base rt : RegIdx) (offset : Imm) : Statement (.lw base rt offset) := by
  simp [Statement, srcsOf, destOf, isControl, isStore]

theorem add (rd rs rt : RegIdx) : Statement (.add rd rs rt) := by
  simp [Statement, srcsOf, destOf, isControl, isStore]

theorem sub (rd rs rt : RegIdx) : Statement (.sub rd rs rt) := by
  simp [Statement, srcsOf, destOf, isControl, isStore]

theorem mul (rd rs rt : RegIdx) : Statement (.mul rd rs rt) := by
  simp [Statement, srcsOf, destOf, isControl, isStore]

theorem and (rd rs rt : RegIdx) : Statement (.and rd rs rt) := by
  simp [Statement, srcsOf, destOf, isControl, isStore]

theorem or (rd rs rt : RegIdx) : Statement (.or rd rs rt) := by
  simp [Statement, srcsOf, destOf, isControl, isStore]

theorem xor (rd rs rt : RegIdx) : Statement (.xor rd rs rt) := by
  simp [Statement, srcsOf, destOf, isControl, isStore]

theorem nor (rd rs rt : RegIdx) : Statement (.nor rd rs rt) := by
  simp [Statement, srcsOf, destOf, isControl, isStore]

theorem addi (rs rt : RegIdx) (imm : Imm) : Statement (.addi rs rt imm) := by
  simp [Statement, srcsOf, destOf, isControl, isStore]

theorem andi (rs rt : RegIdx) (imm : Imm) : Statement (.andi rs rt imm) := by
  simp [Statement, srcsOf, destOf, isControl, isStore]

theorem ori (rs rt : RegIdx) (imm : Imm) : Statement (.ori rs rt imm) := by
  simp [Statement, srcsOf, destOf, isControl, isStore]

theorem xori (rs rt : RegIdx) (imm : Imm) : Statement (.xori rs rt imm) := by
  simp [Statement, srcsOf, destOf, isControl, isStore]

end Sys2Proof.Laws.Sources
end

