-- ==== Sys2Proof/Tests/Slice0.lean ====
section
/-!
SUPPORT. Small tests with results from spec/30_encoding.md R101, spec/95_test_vectors.md and hand calculation, and for
every statement with hypotheses a witness that its hypotheses can be met.
-/

namespace Sys2Proof.Tests

open Sys2Proof Sys2Proof.Machine Sys2Proof.Statements
open Host (Outcome)

/-! ## WellFormed: what each check refuses -/

/-- A record whose address is not word-aligned (R24). -/
theorem test_wellFormed_misaligned_refused : Record.wellFormed ⟨130#32, .instr (.add 1 2 3)⟩ = false := by decide
theorem test_wellFormed_aligned_accepted : Record.wellFormed ⟨132#32, .instr (.add 1 2 3)⟩ = true := by decide
/-- A record file with a gap (R31). -/
theorem test_addressesFrom_gap_refused :
    addressesFrom 128 [⟨128#32, .unknown⟩, ⟨136#32, .unknown⟩] = false := by decide
theorem test_addressesFrom_run_accepted :
    addressesFrom 128 [⟨128#32, .unknown⟩, ⟨132#32, .unknown⟩] = true := by decide
/-- A base that is not word-aligned, and a program that passes the end of the address space (R10). -/
theorem test_loadable_misaligned_base_refused : loadable 129 [] = false := by decide
theorem test_loadable_too_long_refused : loadable 0xFFFFFFFC [0#32, 0#32] = false := by decide
theorem test_loadable_to_the_end_accepted : loadable 0xFFFFFFFC [0#32] = true := by decide
theorem test_loadProgram_refuses_outside_domain : loadProgram decodeRecord 129 [] = none := by decide

/-! ## Decoding: words written out from the encoding tables (R85 to R97) -/

theorem test_decode_j : decode 0b00000000000000000000000000100100#32 = .ok (.j 36) := by decide
theorem test_decode_beq : decode 0b00001000001000100000000000000010#32 = .ok (.beq 1 2 2) := by decide
theorem test_decode_bgtz : decode 0b00010000001000000000000000000001#32 = .ok (.bgtz 1 1) := by decide
theorem test_decode_break : decode 0b00010100000000000000000000001101#32 = .ok .brk := by decide
theorem test_decode_sw : decode 0b00011000001000110000000000000000#32 = .ok (.sw 1 3 0) := by decide
theorem test_decode_lw : decode 0b00011100010001000000000000000000#32 = .ok (.lw 2 4 0) := by decide
theorem test_decode_add : decode 0b11000010000110000000100000000000#32 = .ok (.add 1 2 3) := by decide
theorem test_decode_sub : decode 0b11000001001010010010000000000000#32 = .ok (.sub 4 1 5) := by decide
theorem test_decode_mul : decode 0b11011111000010101111100000000000#32 = .ok (.mul 31 31 1) := by decide
theorem test_decode_and : decode 0b11000010000110110000100000000000#32 = .ok (.and 1 2 3) := by decide
theorem test_decode_or : decode 0b11000010000111000000100000000000#32 = .ok (.or 1 2 3) := by decide
theorem test_decode_xor : decode 0b11000010000111010000100000000000#32 = .ok (.xor 1 2 3) := by decide
theorem test_decode_nor : decode 0b11000010000111100000100000000000#32 = .ok (.nor 1 2 3) := by decide
theorem test_decode_addi : decode 0b11100001000000000000000010011000#32 = .ok (.addi 1 0 152) := by decide
theorem test_decode_andi : decode 0b11100001000100010000000011111111#32 = .ok (.andi 1 2 255) := by decide
theorem test_decode_ori : decode 0b11100001000100101111111111111111#32 = .ok (.ori 1 2 65535) := by decide
theorem test_decode_xori : decode 0b11111111000000111000000000000000#32 = .ok (.xori 31 0 32768) := by decide

/-- One word for each pattern of R96. -/
theorem test_decode_unknown_category : decode 0x20000000#32 = .error (.category 1) := by decide
theorem test_decode_unknown_category_five : decode 0xA0000000#32 = .error (.category 5) := by decide
theorem test_decode_unknown_opcode1 : decode 0x04000000#32 = .error (.opcode1 1) := by decide
theorem test_decode_unknown_opcode1_three : decode 0x0C000000#32 = .error (.opcode1 3) := by decide
theorem test_decode_unknown_opcode2 : decode 0xC0070000#32 = .error (.opcode2 7) := by decide
theorem test_decode_unknown_opcode3 : decode 0xE0040000#32 = .error (.opcode3 4) := by decide

/-- Ignored bits set (R97). -/
theorem test_decode_bgtz_ignored : decode 0x103F0001#32 = .ok (.bgtz 1 1) := by decide
theorem test_decode_break_ignored : decode 0x17FFFFFF#32 = .ok .brk := by decide
theorem test_decode_add_ignored : decode 0xC2180FFF#32 = .ok (.add 1 2 3) := by decide

/-- The words of R101, from the encoder's side. -/
theorem test_encode_add : encode (.add 1 2 3) = 0xC2180800#32 := by decide
theorem test_encode_addi : encode (.addi 1 0 152) = 0xE1000098#32 := by decide
theorem test_encode_sw : encode (.sw 1 3 0) = 0x18230000#32 := by decide
theorem test_encode_bgtz : encode (.bgtz 1 1) = 0x10200001#32 := by decide
theorem test_encode_j : encode (.j 36) = 0x00000024#32 := by decide

theorem test_decodeTableWord_add : decodeTableWord 32 0xC2180800 = some (.add 1 2 3) := by decide
theorem test_decodeTableWord_unknown : decodeTableWord 32 0xC0070000 = none := by decide

/-! ## A loaded program and states built on it -/

/-- ADD R1, R2, R3; BEQ R1, R2, #8; an undecodable word; BREAK; two data words. -/
def demoWords : List Word :=
  [0xC2180800#32, 0x08220002#32, 0xFFFFFFFF#32, 0x1400000D#32, 0x00000007#32, 0xFFFFFFFF#32]

/-- That program loaded at 128: the executable region is 128 to 143, the data region 144 to 151. -/
def demo : State := (loadProgram decodeRecord 128 demoWords).getD State.reset

/-- The one-word program BREAK, loaded at 128. -/
def breakOnly : State := (loadProgram decodeRecord 128 [0x1400000D#32]).getD State.reset

/-- `demo` with `x[2] = 7`, `x[3] = 5` and a stage running the record at 128. -/
def ready (p : Phase) : State := { writeReg 2 7 (writeReg 3 5 demo) with active := ⟨128#32, p⟩ }

def addEntry : Entry := ⟨⟨128#32, .instr (.add 1 2 3)⟩, none⟩
def subEntry : Entry := ⟨⟨132#32, .instr (.sub 4 1 5)⟩, none⟩
def swEntry (ea : Word) : Entry := ⟨⟨132#32, .instr (.sw 2 3 0)⟩, some ea⟩
def lwEntry (ea : Word) : Entry := ⟨⟨132#32, .instr (.lw 2 4 0)⟩, some ea⟩

/-- ADD at the head of PreALU, its destination reserved. -/
def adding : State := { ready (.fetch .one none) with preALU := ⟨[addEntry], false⟩, rrtn := (reserve 1 128 demo).rrtn }

/-- LW at the head of PreMEM, its destination reserved. -/
def loading (ea : Word) : State :=
  { ready (.fetch .one none) with preMEM := ⟨[lwEntry ea], false⟩, rrtn := (reserve 4 132 demo).rrtn }

/-- SW at the head of PreMEM. -/
def storing (ea : Word) : State := { ready (.fetch .one none) with preMEM := ⟨[swEntry ea], false⟩ }

/-- Writeback about to commit ADD from PostALU and LW from PostMEM. -/
def committing : State :=
  { demo with
    postALU := ⟨[{ addEntry with cached := some 12#32 }], false⟩
    postMEM := ⟨[lwEntry 9#32], false⟩
    rrtn := (reserve 4 132 (reserve 1 128 demo)).rrtn }

/-- ADD and the SUB that reads its result, both in PreIssue. -/
def queued : State := { demo with preIssue := ⟨[addEntry, subEntry], false⟩ }

/-- The state a step goes to. -/
def after (s : State) : State :=
  match step s with
  | .next t => t
  | .fault _ => s
  | .refused _ => s

/-- The state an instruction goes to. -/
def ran (i : Instr) (s : State) : State :=
  match exec i s with
  | .next t => t
  | .fault _ => s
  | .refused _ => s

theorem step_after (s : State) : step s = .next (after s) := by
  unfold after step clockEdge
  obtain ⟨t, h⟩ := cycleOnce_next s
  split <;> simp [h]

/-! ## Load and reset -/

theorem test_load_regions : nexecOf demo.imem = 4 ∧ dataBase demo = 144 ∧ ndata demo = 2 := by decide
theorem test_load_data : dmemWord demo 0 = 7#32 ∧ dmemWord demo 1 = 0xFFFFFFFF#32 := by decide
/-- A canonical byte order has one effect on the stored cells only; the word is whole (R63). -/
theorem test_load_cells : demo.mem = [(144, 7), (148, 0xFF), (149, 0xFF), (150, 0xFF), (151, 0xFF)] := by decide
theorem test_load_status : demo.status = .running ∧ demo.pc = 128#32 ∧ demo.cycle = 0 := by decide
/-- UNKNOWN does not change the loader's mode (R402). -/
theorem test_load_unknown : demo.imem[2]? = some ⟨136#32, .unknown⟩ := by decide
/-- A decoder other than the default one, which R12 allows: the word 0 is BREAK, every other word is UNKNOWN. -/
def zeroIsBreak : Decoder := fun w a => if w = 0 then ⟨a, .instr .brk⟩ else ⟨a, .unknown⟩

theorem test_zeroIsBreak_wellFormed : wellFormedDecoder zeroIsBreak := by
  intro w a
  unfold zeroIsBreak
  split <;> exact ⟨rfl, fun v h => Body.noConfusion h⟩

/-- With that decoder the canonical BREAK word does not end the executable region, and the word 0 does. -/
theorem test_load_other_decoder :
    ((loadProgram zeroIsBreak 128 [0x1400000D#32, 0#32, 0xC2180800#32]).map fun s => (dataBase s, dmemWord s 0)) =
      some (136, 0xC2180800#32) := by decide
theorem test_reset_status : State.reset.status = .terminated ∧ State.reset.pc = 128#32 := by decide

/-! ## The instructions in the stage that computes (V-ALU-R, V-ALU-I, V-CT, V-EA) -/

/-- What stands in PostALU after the ALU has run `i` with `x[2] = a`, `x[3] = b`. -/
def aluOf (i : Instr) (a b : Word) : List (Option Word) :=
  (ran i { writeReg 2 a (writeReg 3 b demo) with active := ⟨128#32, .alu⟩ }).postALU.entries.map Entry.cached

theorem test_add_wraps : aluOf (.add 1 2 3) 0x7FFFFFFF 0x00000001 = [some 0x80000000#32] := by decide
theorem test_sub_order : aluOf (.sub 1 2 3) 0x00000002 0x0000000C = [some 0xFFFFFFF6#32] := by decide
theorem test_mul_low : aluOf (.mul 1 2 3) 0xFFFFFFFE 0x00000003 = [some 0xFFFFFFFA#32] := by decide
theorem test_and : aluOf (.and 1 2 3) 0x0000FF0F 0x00000FF0 = [some 0x00000F00#32] := by decide
theorem test_or : aluOf (.or 1 2 3) 0x0000FF00 0x000000FF = [some 0x0000FFFF#32] := by decide
theorem test_xor : aluOf (.xor 1 2 3) 0x0000FF0F 0x00000FF0 = [some 0x0000F0FF#32] := by decide
theorem test_nor : aluOf (.nor 1 2 3) 0xF0F0F0F0 0x0F0F0000 = [some 0x00000F0F#32] := by decide
theorem test_addi_unsigned : aluOf (.addi 1 2 0xFFFF) 0x00000064 0 = [some 0x00010063#32] := by decide
theorem test_andi_clears_high : aluOf (.andi 1 2 0xFFFF) 0xFFFFFFFF 0 = [some 0x0000FFFF#32] := by decide
theorem test_ori_fills_low : aluOf (.ori 1 2 0xFFFF) 0x12340000 0 = [some 0x1234FFFF#32] := by decide
theorem test_xori_low_only : aluOf (.xori 1 2 0xFFFF) 0xFFFFFFFF 0 = [some 0xFFFF0000#32] := by decide

/-- V-CT: `pc` after Fetch has run `i` at `a` with `x[2] = u`, `x[3] = v`. -/
def fetchOf (i : Instr) (a u v : Word) : Word :=
  (ran i { writeReg 2 u (writeReg 3 v demo) with active := ⟨a, .fetch .one none⟩ }).pc

theorem test_j_keeps_top_bits : fetchOf (.j 36) 0x10000080 0 0 = 0x10000090#32 := by decide
theorem test_beq_taken : fetchOf (.beq 2 3 2) 132 4 4 = 144#32 := by decide
theorem test_beq_not_taken : fetchOf (.beq 2 3 2) 132 4 5 = 136#32 := by decide
theorem test_bgtz_zero_not_taken : fetchOf (.bgtz 2 0xFFFF) 132 0 0 = 136#32 := by decide
theorem test_bgtz_negative_not_taken : fetchOf (.bgtz 2 1) 132 0x80000000 0 = 136#32 := by decide
theorem test_bgtz_unsigned_offset : fetchOf (.bgtz 2 0xFFFF) 132 1 0 = 262276#32 := by decide
theorem test_break_to_data_base : fetchOf .brk 140 0 0 = 144#32 := by decide
theorem test_beq_waits :
    (ran (.beq 1 2 2) { demo with rrtc := (reserve 1 128 demo).rrtn, active := ⟨132#32, .fetch .one none⟩ }).waiting =
      some ⟨132#32, .instr (.beq 1 2 2)⟩ := by decide

theorem test_lw_effective_address :
    (ran (.lw 2 4 0xFFFF) { writeReg 2 100 demo with active := ⟨128#32, .alu⟩ }).preMEM.entries.map Entry.cached =
      [some 65635#32] := by decide
theorem test_sw_stores :
    (memRead 148 (ran (.sw 2 3 0) (ready (.mem (some 148#32))))).toOption = some 5#32 := by decide
theorem test_lw_loads :
    (ran (.lw 2 4 0) (ready (.mem (some 144#32)))).postMEM.entries.map Entry.cached = [some 7#32] := by decide
theorem test_lw_outside_faults :
    (ran (.lw 2 4 0) (ready (.mem (some 152#32)))).status = .aborted (.dataAddressFault 152) := by decide
theorem test_sw_executable_region_faults :
    (ran (.sw 2 3 0) (ready (.mem (some 140#32)))).status = .aborted (.dataAddressFault 140) := by decide
/-- Register 0 is written like any other (R22). -/
theorem test_writeback_register_zero :
    readReg (ran (.add 0 2 3) (ready (.writeback (some 12#32)))) 0 = 12#32 := by decide

/-! ## Cycles -/

/-- S1: ADD issues, the SUB that reads its result does not. -/
theorem test_issue_pair_conflict :
    (after queued).preALU.entries = [addEntry] ∧ (after queued).preIssue.entries = [subEntry, addEntry] := by decide
/-- S4: the branch behind the writer of its source waits. -/
theorem test_branch_waits_behind_writer :
    (after demo).preIssue.entries = [addEntry] ∧ (after demo).pc = 132#32 ∧
      (after demo).waiting = some ⟨132#32, .instr (.beq 1 2 2)⟩ := by decide
/-- S5: BREAK ends the run in the cycle it resolves. -/
theorem test_break_terminates :
    (after breakOnly).status = .terminated ∧ (after breakOnly).pc = 132#32 ∧ (after breakOnly).cycle = 1 := by decide
/-- What the host asks of one opcode-table row: the first step runs the word. -/
theorem test_withFetchWord_add :
    (after (State.reset.withFetchWord 32 0xC2180800)).preIssue.entries = [addEntry] := by decide
theorem test_withFetchWord_unknown :
    (after (State.reset.withFetchWord 32 0xC0070000)).notices = [.unknownOpcode 128] := by decide
theorem test_step_terminated : after State.reset = State.reset := by decide

/-! ## Witnesses: the hypotheses of every statement that has some can be met -/

/-- What a table holds after a reservation. -/
theorem slotOf_reserve_cases {d r : RegIdx} {a b : Word} {s : State} (h : slotOf (reserve d a s).rrtn r = some b) :
    (r = d ∧ b = a) ∨ slotOf s.rrtn r = some b := by
  by_cases hr : r = d
  · subst hr
    rw [slotOf_reserve_same] at h
    exact .inl ⟨rfl, (Option.some.inj h).symm⟩
  · exact .inr (by rwa [slotOf_reserve_ne a s hr] at h)

theorem demo_free (r : RegIdx) : slotOf demo.rrtn r = none := by
  have h : demo.rrtn = ReservationTable.free := by decide
  simp [h, slotOf, ReservationTable.free]

theorem demo_free_committed (r : RegIdx) : slotOf demo.rrtc r = none := by
  have h : demo.rrtc = ReservationTable.free := by decide
  simp [h, slotOf, ReservationTable.free]

/-- The invariant in decidable clauses, but for the reservations. -/
theorem coreInvariant_of {s : State}
    (htable : ∀ r a, slotOf s.rrtn r = some a → ∃ e ∈ inFlight s, recordDest e.record = some r ∧ e.record.address = a)
    (h : (s.preIssue.entries.length ≤ 4 ∧ s.preALU.entries.length ≤ 2 ∧ s.postALU.entries.length ≤ 1 ∧
        s.preMEM.entries.length ≤ 1 ∧ s.postMEM.entries.length ≤ 1) ∧
      ((∀ e ∈ s.preIssue.entries, recordIsIssuable e.record = true ∧ e.cached = none) ∧
        (∀ e ∈ s.preALU.entries, recordIsIssuable e.record = true ∧ e.cached = none) ∧
        (∀ e ∈ s.postALU.entries,
          (recordDest e.record).isSome = true ∧ recordIsLoad e.record = false ∧ e.cached.isSome = true) ∧
        (∀ e ∈ s.preMEM.entries, recordIsMemory e.record = true ∧ e.cached.isSome = true) ∧
        (∀ e ∈ s.postMEM.entries, recordIsLoad e.record = true ∧ e.cached.isSome = true)) ∧
      (((inFlight s).filterMap fun e => recordDest e.record).Nodup ∧
        (∀ e ∈ inFlight s, ∀ r ∈ recordDest e.record, slotOf s.rrtn r = some e.record.address)) ∧
      (s.instrBase.toNat % 4 = 0 ∧ s.instrBase.toNat + 4 * s.imem.length ≤ 2 ^ 32 ∧
        addressesFrom s.instrBase s.imem = true ∧
        (∀ r ∈ s.imem.take (nexecOf s.imem), recordIsData r = false) ∧
        (∀ r ∈ s.imem.drop (nexecOf s.imem), recordIsData r = true)) ∧
      s.pc.toNat % 4 = 0 ∧
      ((∀ w ∈ s.waiting, w.address = s.pc ∧ recordIsControl w = true ∧ recordAt s s.pc = some w) ∧
        (s.waiting = none ∨ s.resolved = none)) ∧
      ((s.status = .running → inExec s s.pc = true) ∧ (s.status = .terminated → inExec s s.pc = false)) ∧
      (Memory.wf s.mem = true ∧ ∀ c ∈ s.mem, dataBase s ≤ c.1 ∧ c.1 < dataBase s + 4 * ndata s)) :
    CoreInvariant s :=
  ⟨h.1, h.2.1, fun _ => ⟨h.2.2.1.1, h.2.2.1.2, htable⟩, h.2.2.2.1, h.2.2.2.2.1, h.2.2.2.2.2.1, h.2.2.2.2.2.2.1,
    h.2.2.2.2.2.2.2⟩

theorem demo_invariant : CoreInvariant demo :=
  coreInvariant_of (fun r a h => by simp [demo_free] at h) (by decide)

theorem adding_invariant : CoreInvariant adding := by
  refine coreInvariant_of (fun r a h => ?_) (by decide)
  obtain ⟨rfl, rfl⟩ | h := slotOf_reserve_cases (s := demo) h
  · exact ⟨addEntry, by decide, by decide, by decide⟩
  · simp [demo_free] at h

theorem loading_table (ea : Word) (r : RegIdx) (a : Word) (h : slotOf (loading ea).rrtn r = some a) :
    ∃ e ∈ inFlight (loading ea), recordDest e.record = some r ∧ e.record.address = a := by
  obtain ⟨rfl, rfl⟩ | h := slotOf_reserve_cases (s := demo) h
  · exact ⟨lwEntry ea, by simp [inFlight, loading], rfl, rfl⟩
  · simp [demo_free] at h

theorem loading_invariant : CoreInvariant (loading 148) := coreInvariant_of (loading_table _) (by decide)

theorem faulting_invariant : CoreInvariant (loading 152) := coreInvariant_of (loading_table _) (by decide)

theorem storing_invariant : CoreInvariant (storing 144) :=
  coreInvariant_of (fun r a h => by rw [show (storing 144).rrtn = demo.rrtn from rfl, demo_free] at h; cases h)
    (by decide)

/-- `demo` at its branch, with an unrelated SUB in flight. -/
def branching : State :=
  { demo with pc := 132#32, preALU := ⟨[⟨⟨128#32, .instr (.sub 4 1 5)⟩, none⟩], false⟩, rrtn := (reserve 4 128 demo).rrtn }

theorem branching_invariant : CoreInvariant branching := by
  refine coreInvariant_of (fun r a h => ?_) (by decide)
  obtain ⟨rfl, rfl⟩ | h := slotOf_reserve_cases (s := demo) h
  · exact ⟨⟨⟨128#32, .instr (.sub 4 1 5)⟩, none⟩, by decide, by decide, by decide⟩
  · simp [demo_free] at h

/-- `demo` waiting at its branch. -/
def stalled : State := { demo with pc := 132#32, waiting := some ⟨132#32, .instr (.beq 1 2 2)⟩ }

theorem stalled_invariant : CoreInvariant stalled :=
  coreInvariant_of (fun r a h => by rw [show stalled.rrtn = demo.rrtn from rfl, demo_free] at h; cases h) (by decide)

theorem notAborted_of_running {s : State} (h : s.status = .running) : NotAborted s := by
  intro f hf; simp [h] at hf

theorem notAborted_of_terminated {s : State} (h : s.status = .terminated) : NotAborted s := by
  intro f hf; simp [h] at hf

/-! ### Encoding and memory -/

theorem test_witness_IgnoredBitsDoNotMatter :
    ((0x103F0001#32).extractLsb' 26 6 = 0b000100#6 ∧ 0x10200001#32 &&& 0xFFE0FFFF#32 = 0x103F0001#32 &&& 0xFFE0FFFF#32) ∧
    ((0x17FFFFFF#32).extractLsb' 26 6 = 0b000101#6 ∧ 0x1400000D#32 &&& 0xFC000000#32 = 0x17FFFFFF#32 &&& 0xFC000000#32) ∧
    ((0xC2180FFF#32).extractLsb' 29 3 = 0b110#3 ∧ 0xC2180800#32 &&& 0xFFFFF800#32 = 0xC2180FFF#32 &&& 0xFFFFF800#32) ∧
    Instr.j 36 ≠ .brk := by decide

theorem test_witness_WordWriteReadsBackAndLeavesOtherBytes :
    Memory.wf demo.mem = true ∧ (143 < 144 ∨ 144 + 4 ≤ 143) ∧ (148 < 144 ∨ 144 + 4 ≤ 148) := by decide

/-- The first and the last valid address, and the addresses next to the region. -/
theorem test_witness_MemReadAndMemWriteReachOneWord :
    Memory.wf demo.mem = true ∧ demo.instrBase.toNat % 4 = 0 ∧ dataBase demo = 144 ∧ ndata demo = 2 ∧
    (144 % 4 = 0 ∧ 144 ≤ 144 ∧ 144 < 144 + 4 * 2) ∧ (148 % 4 = 0 ∧ 144 ≤ 148 ∧ 148 < 144 + 4 * 2) ∧
    ¬(140 % 4 = 0 ∧ 144 ≤ 140 ∧ 140 < 144 + 4 * 2) ∧ ¬(145 % 4 = 0 ∧ 144 ≤ 145 ∧ 145 < 144 + 4 * 2) ∧
    ¬(152 % 4 = 0 ∧ 144 ≤ 152 ∧ 152 < 144 + 4 * 2) := by decide

/-! ### Load and reset -/

theorem test_witness_inDomain :
    inDomain 128 demoWords ∧ inDomain 0xFFFFFFFC [0x1400000D#32] ∧ inDomain 0 [] := by
  unfold inDomain; decide

/-- Two decoders, a program whose first BREAK is its last executable word, and programs without one. -/
theorem test_witness_ProgramLoadFollowsTheTwoModes :
    wellFormedDecoder decodeRecord ∧ wellFormedDecoder zeroIsBreak ∧ inDomain 128 demoWords ∧
      firstBreakAt decodeRecord 128 demoWords 3 ∧ firstBreakAt zeroIsBreak 128 [0#32] 0 ∧
      (∀ k, ¬breakAt decodeRecord 128 [0xC2180800#32] k) ∧ ∀ k, ¬breakAt zeroIsBreak 128 [0x1400000D#32] k := by
  refine ⟨wellFormedDecoder_decodeRecord, test_zeroIsBreak_wellFormed, test_witness_inDomain.1,
    ⟨⟨0x1400000D#32, by decide, by decide⟩, ?_⟩,
    ⟨⟨0#32, by decide, by decide⟩, fun j hj => absurd hj (Nat.not_lt_zero j)⟩, ?_, ?_⟩
  · rintro j hj ⟨w, hw, hb⟩
    interval_cases j <;> simp [demoWords] at hw <;> subst hw <;> exact absurd hb (by decide)
  · rintro k ⟨w, hw, hb⟩
    cases k <;> simp at hw
    subst hw; exact absurd hb (by decide)
  · rintro k ⟨w, hw, hb⟩
    cases k <;> simp at hw
    subst hw; exact absurd hb (by decide)

theorem test_witness_ResetLeavesTheTabledValues :
    wellFormedDecoder decodeRecord ∧ inDomain 128 demoWords ∧ 0 < nexecOf demo.imem ∧ inDomain 0 [] ∧
      nexecOf State.reset.imem = 0 :=
  ⟨wellFormedDecoder_decodeRecord, test_witness_inDomain.1, by decide, test_witness_inDomain.2.2, by decide⟩

theorem test_witness_EmptyProgramRunsNoCycle : (0xFFFFFFFC#32).toNat % 4 = 0 := by decide

theorem test_witness_EveryLoadEstablishesTheInvariant :
    wellFormedDecoder decodeRecord ∧ wellFormedDecoder zeroIsBreak ∧ inDomain 128 demoWords :=
  ⟨wellFormedDecoder_decodeRecord, test_zeroIsBreak_wellFormed, test_witness_inDomain.1⟩

/-! ### Queues and snapshot -/

/-- Every queue at its capacity. -/
def crowded : State :=
  { demo with
    preIssue := ⟨[addEntry, addEntry, addEntry, addEntry], false⟩
    preALU := ⟨[addEntry, addEntry], false⟩
    postALU := ⟨[addEntry], false⟩
    preMEM := ⟨[addEntry], false⟩
    postMEM := ⟨[addEntry], false⟩ }

theorem test_witness_PushAppendsOrRaisesOverflow :
    (∀ q ∈ [QueueName.preIssue, .preALU, .postALU, .preMEM, .postMEM],
      (queueOf crowded q).entries.length = capacity q ∧ (queueOf demo q).entries.length < capacity q) := by decide

theorem test_witness_SnapshotLatchesItsFourParts : QueuesBounded crowded ∧ QueuesBounded demo := by
  unfold QueuesBounded; decide

/-! ### The instructions -/

theorem test_witness_RegisterArithmeticInTheAluStage :
    (ready .alu).active.phase = .alu ∧ (ready .alu).postALU.entries = [] := by decide

theorem test_witness_ImmediateArithmeticInTheAluStage :
    (ready .alu).active.phase = .alu ∧ (ready .alu).postALU.entries = [] := by decide

theorem test_witness_EffectiveAddressInTheAluStage :
    (ready .alu).active.phase = .alu ∧ (ready .alu).preMEM.entries = [] := by decide

theorem test_witness_WritebackCommitsAnyDestination :
    (ready (.writeback (some 12))).active.phase = .writeback (some 12) ∧ destOf (.add 0 2 3) = some 0 ∧
      destOf (.lw 2 31 0) = some 31 := by decide

theorem test_witness_OrdinaryInstructionEntersPreIssue :
    (ready (.fetch .two (some 1))).active.phase = .fetch .two (some 1) ∧ isControl (.sw 2 3 0) = false ∧
      ({ ready (.fetch .two (some 1)) with preIssue := ⟨[addEntry, addEntry, addEntry], false⟩ } : State).preIssue.entries.length
        < 4 := by decide

theorem test_witness_IssuedInstructionReservesItsDestination :
    (ready .issue).active.phase = .issue ∧ isControl (.sw 2 3 0) = false ∧ isControl (.lw 2 4 0) = false ∧
      (adding.preALU.entries.length < 2) := by decide

theorem test_witness_StoreInTheMemStage :
    Memory.wf (ready (.mem (some 148))).mem = true ∧ (ready (.mem (some 148))).active.phase = .mem (some 148) ∧
      validData (ready (.mem (some 144))) 144 = true ∧ validData (ready (.mem (some 148))) 148 = true := by decide

theorem test_witness_LoadInTheMemStage :
    (ready (.mem (some 148))).active.phase = .mem (some 148) ∧ (ready (.mem (some 148))).postMEM.entries = [] ∧
      memRead 148 (ready (.mem (some 148))) = .ok 0xFFFFFFFF#32 := by decide

theorem test_witness_InvalidAddressFaultsInTheMemStage :
    ((ready (.mem (some 152))).active.phase = .mem (some 152) ∧ validData (ready (.mem (some 152))) 152 = false ∧
      validData (ready (.mem (some 140))) 140 = false ∧ validData (ready (.mem (some 145))) 145 = false) ∧
    (ready .alu).active.phase = .alu ∧ (ready .alu).preMEM.entries = [] := by decide

theorem test_witness_JumpResolvesInEveryState :
    (ready (.fetch .one none)).active.phase = .fetch .one none := by decide

/-- Each clause of BranchBlocked alone, and none. -/
theorem test_witness_sourceBlocked :
    sourceBlocked { demo with rrtc := (reserve 1 128 demo).rrtn } .one none 1 ∧
    sourceBlocked { demo with lastPreIssue := [addEntry.record] } .one none 1 ∧
    sourceBlocked demo .two (some 1) 1 ∧ ¬sourceBlocked demo .one (some 1) 1 ∧ ¬sourceBlocked demo .two (some 1) 2 := by
  unfold sourceBlocked; decide

theorem test_witness_BranchEqualWaitsOrResolves :
    (ready (.fetch .two (some 1))).active.phase = .fetch .two (some 1) ∧
    (sourceBlocked (ready (.fetch .two (some 1))) .two (some 1) 1 ∨
      sourceBlocked (ready (.fetch .two (some 1))) .two (some 1) 2) ∧
    ¬(sourceBlocked (ready (.fetch .two (some 1))) .two (some 1) 2 ∨
      sourceBlocked (ready (.fetch .two (some 1))) .two (some 1) 3) ∧
    readReg (ready (.fetch .two (some 1))) 2 ≠ readReg (ready (.fetch .two (some 1))) 3 ∧
    readReg (ready (.fetch .two (some 1))) 2 = readReg (ready (.fetch .two (some 1))) 2 := by
  unfold sourceBlocked; decide

/-- Zero and the two ends of the signed range. -/
theorem test_witness_BranchGreaterThanZeroWaitsOrResolves :
    (ready (.fetch .two (some 1))).active.phase = .fetch .two (some 1) ∧
    sourceBlocked (ready (.fetch .two (some 1))) .two (some 1) 1 ∧
    ¬sourceBlocked (ready (.fetch .two (some 1))) .two (some 1) 2 ∧
    0 < (readReg (ready (.fetch .two (some 1))) 2).toInt ∧
    0 < (readReg (writeReg 2 0x7FFFFFFF demo) 2).toInt ∧ (readReg (writeReg 2 0 demo) 2).toInt ≤ 0 ∧
    (readReg (writeReg 2 0x80000000 demo) 2).toInt ≤ 0 := by
  unfold sourceBlocked; decide

theorem test_witness_BreakResolvesToDataBase :
    ProgramLoaded demo ∧ ∃ s, s = { demo with active := ⟨140#32, .fetch .one none⟩ } ∧
      s.active.phase = .fetch .one none ∧ inExec s s.active.address = true ∧
      recordAt s s.active.address = some ⟨s.active.address, .instr .brk⟩ :=
  ⟨demo_invariant.2.2.2.1, _, rfl, by decide, by decide, by decide⟩

/-- Each class a stage cannot handle, and each entry without its cached value. -/
theorem test_witness_StageRefusesClassesItCannotHandle :
    (∀ b ∈ [Body.instr .brk, .data 7, .unknown], recordIsIssuable ⟨128#32, b⟩ = false) ∧
    (∀ b ∈ [Body.instr (.add 1 2 3), .data 7, .unknown], recordIsMemory ⟨128#32, b⟩ = false) ∧
    (∀ b ∈ [Body.instr (.sw 2 3 0), .data 7, .unknown], recordDest ⟨128#32, b⟩ = none) ∧
    recordIsData ⟨128#32, .data 7⟩ = true ∧
    recordIsMemory ⟨128#32, .instr (.lw 2 4 0)⟩ = true ∧ recordDest ⟨128#32, .instr (.lw 2 4 0)⟩ = some 4 := by decide

/-- UNKNOWN in the ALU stage and DATA in MEM. -/
theorem test_unknown_in_alu_faults :
    ∃ t, runRecord ⟨136#32, .unknown⟩ .alu demo = .next t ∧ t.status = .aborted (.operandAbsent 136) :=
  ⟨_, rfl, by decide⟩
theorem test_data_in_mem_faults :
    ∃ t, runRecord ⟨144#32, .data 7⟩ (.mem (some 144#32)) demo = .next t ∧ t.status = .aborted (.operandAbsent 144) :=
  ⟨_, rfl, by decide⟩

/-! ### The stages -/

theorem test_witness_BackEndStagesRunTheirHead :
    demo.preALU.entries = [] ∧ demo.preMEM.entries = [] ∧ demo.postMEM.entries = [] ∧ demo.postALU.entries = [] ∧
      adding.preALU.entries = [⟨⟨128#32, .instr (.add 1 2 3)⟩, none⟩] ∧
      (loading 144).preMEM.entries = [⟨⟨132#32, .instr (.lw 2 4 0)⟩, some 144#32⟩] ∧
      committing.postMEM.entries = [⟨⟨132#32, .instr (.lw 2 4 0)⟩, some 9#32⟩] ∧
      committing.postALU.entries = [⟨⟨128#32, .instr (.add 1 2 3)⟩, some 12#32⟩] ∧
      (⟨128#32, .instr (.add 1 2 3)⟩ : Record).body = .instr (.add 1 2 3) := by decide

theorem test_witness_WritebackCommitsBothLanes :
    committing.status = .running ∧ committing.postMEM.entries = [⟨⟨132#32, .instr (.lw 2 4 0)⟩, some 9#32⟩] ∧
      committing.postALU.entries = [⟨⟨128#32, .instr (.add 1 2 3)⟩, some 12#32⟩] ∧
      recordDest ⟨132#32, .instr (.lw 2 4 0)⟩ = some 4 ∧ recordDest ⟨128#32, .instr (.add 1 2 3)⟩ = some 1 := by decide

theorem test_witness_FullLatchStopsTheProducer :
    (snapshot crowded).preALU.lastFull = true ∧ (snapshot crowded).preIssue.lastFull = true := by decide

theorem test_witness_IssueMovesAtMostTwoAndSorts :
    queued.status = .running ∧ queued.preALU.lastFull = false := by decide

theorem test_witness_IssuedEntriesHaveNoHazard :
    ∃ t, queued.status = .running ∧ queued.preALU.lastFull = false ∧ issueStage queued = .next t ∧
      t.preALU.entries = queued.preALU.entries ++ [addEntry] :=
  ⟨_, by decide, by decide, rfl, by decide⟩

/-- PreIssue with the later SUB at its head, blocked by the earlier ADD behind it, and a third entry that is free. -/
def scrambled : State :=
  { demo with preIssue := ⟨[subEntry, addEntry, ⟨⟨136#32, .instr (.add 6 7 8)⟩, none⟩], false⟩ }

/-- The two entries behind the blocked head issue in the same scan, in scan order (R191, R192, R197). -/
theorem test_issue_past_blocked_head :
    ∃ t, issueStage scrambled = .next t ∧ t.preIssue.entries = [subEntry] ∧
      t.preALU.entries = [addEntry, ⟨⟨136#32, .instr (.add 6 7 8)⟩, none⟩] :=
  ⟨_, rfl, by decide, by decide⟩

/-- An entry that is ready at its turn, and one that is not. -/
theorem test_witness_EntriesIssueExactlyWhenReady :
    scrambled.status = .running ∧ scrambled.preALU.lastFull = false ∧ scrambled.preIssue.entries[0]? = some subEntry ∧
      scrambled.preIssue.entries[1]? = some addEntry ∧ ¬readyToIssue scrambled subEntry.record [] ∧
      readyToIssue scrambled addEntry.record [] := by
  refine ⟨by decide, by decide, by decide, by decide, fun h => ?_, by decide, by decide,
    ⟨fun d _ => demo_free_committed d, fun r _ => demo_free_committed r⟩, fun j e he _ hlt => ?_,
    fun e he => absurd he (List.not_mem_nil)⟩
  · exact (h.2.2.2.1 1 addEntry (by decide) (by decide) (by decide)).2.1 1 (by decide) (by decide)
  · match j with
    | 0 => cases Option.some.inj he; exact absurd hlt (by decide)
    | 1 => cases Option.some.inj he; exact absurd hlt (by decide)
    | 2 => cases Option.some.inj he; exact absurd hlt (by decide)
    | j + 3 => exact absurd he (by simp [scrambled])

theorem test_witness_FetchPushesAtMostTwoInOrder :
    demo.status = .running ∧ demo.resolved = none ∧ ∃ t, fetchStage demo = .next t :=
  ⟨by decide, by decide, fetchStage_next demo⟩

theorem test_witness_UnknownWordIsPassedOver :
    ∃ s : State, s = { demo with pc := 136#32 } ∧ s.status = .running ∧ inExec s s.pc = true ∧
      recordAt s s.pc = some ⟨136#32, .unknown⟩ ∧ s.preIssue.lastFull = false :=
  ⟨_, rfl, by decide, by decide, by decide, by decide⟩

theorem test_witness_EachStageWritesOnlyItsOwn :
    demo.status = .running ∧ (∃ t, writebackStage demo = .next t) ∧ (∃ t, memStage demo = .next t) ∧
      (∃ t, aluStage demo = .next t) ∧ (∃ t, issueStage demo = .next t) ∧ (∃ t, fetchStage demo = .next t) :=
  ⟨by decide, writebackStage_next demo, memStage_next demo, aluStage_next demo, issueStage_next demo,
    fetchStage_next demo⟩

/-! ### The cycle -/

theorem test_witness_CycleIsTheSixSteps :
    ∃ s2 s3 s4 s5 s6 : State, demo.status = .running ∧
      writebackStage (snapshot { demo with cycle := demo.cycle + 1 }) = .next s2 ∧ s2.status = .running ∧
      memStage s2 = .next s3 ∧ s3.status = .running ∧ aluStage s3 = .next s4 ∧ s4.status = .running ∧
      issueStage s4 = .next s5 ∧ s5.status = .running ∧ fetchStage s5 = .next s6 ∧ s6.status = .running :=
  ⟨_, _, _, _, _, by decide, rfl, by decide, rfl, by decide, rfl, by decide, rfl, by decide, rfl, by decide⟩

/-- Slot 1: an ordinary instruction and a control transfer. Slot 2: outside the region (an address below it and the first
above it), an ordinary instruction with and without live room, and a control transfer at the last address inside. -/
theorem test_witness_StepRunsTheInstructionAtPc :
    (∃ u, demo.status = .running ∧ demo.preIssue.entries.length < 4 ∧ backEnd (beginCycle demo) = .next u ∧
      u.status = .running ∧ inExec demo demo.pc = true ∧
      recordAt demo demo.pc = some ⟨128#32, .instr (.add 1 2 3)⟩ ∧ decode 0xC2180800#32 = .ok (.add 1 2 3)) ∧
    (∃ u, breakOnly.status = .running ∧ breakOnly.preIssue.entries.length < 4 ∧
      backEnd (beginCycle breakOnly) = .next u ∧ u.status = .running ∧ inExec breakOnly breakOnly.pc = true ∧
      recordAt breakOnly breakOnly.pc = some ⟨128#32, .instr .brk⟩ ∧ decode 0x1400000D#32 = .ok .brk) ∧
    (inExec demo 124#32 = false ∧ inExec demo 144#32 = false) ∧
    (¬4 ≤ demo.preIssue.entries.length ∧ 4 ≤ crowded.preIssue.entries.length ∧ inExec crowded crowded.pc = true ∧
      recordAt crowded crowded.pc = some ⟨128#32, .instr (.add 1 2 3)⟩) ∧
    inExec demo 140#32 = true ∧ recordAt demo 140#32 = some ⟨140#32, .instr .brk⟩ ∧ isControl .brk = true :=
  ⟨⟨_, by decide, by decide, rfl, by decide, by decide, by decide, by decide⟩,
    ⟨_, by decide, by decide, rfl, by decide, by decide, by decide, by decide⟩, by decide, by decide, by decide,
    by decide, by decide⟩

theorem test_witness_OnlyRunningMachinesCycle :
    State.reset.status ≠ .running ∧ (aborted (.dataAddressFault 152) demo).status ≠ .running ∧
      demo.status = .running := by decide

theorem test_witness_ProgramNeverChanges : ∃ t, step demo = .next t := ⟨_, step_after demo⟩

theorem test_witness_RunEndsExactlyOutsideTheRegion :
    (demo.status = .running ∧ step demo = .next (after demo) ∧ NotAborted (after demo)) ∧
      breakOnly.status = .running ∧ step breakOnly = .next (after breakOnly) ∧ NotAborted (after breakOnly) :=
  ⟨⟨by decide, step_after demo, notAborted_of_running (by decide)⟩, by decide, step_after breakOnly,
    notAborted_of_terminated (by decide)⟩

/-- `demo` at the UNKNOWN word, with BREAK behind it. -/
def ending : State := { demo with pc := 136#32 }

/-- BREAK in the first slot, and in the second. -/
theorem test_witness_BreakEndsTheRun :
    (breakOnly.status = .running ∧ breakOnly.preIssue.entries.length < 4 ∧ inExec breakOnly breakOnly.pc = true ∧
      recordAt breakOnly breakOnly.pc = some ⟨breakOnly.pc, .instr .brk⟩ ∧
      (dataBase breakOnly < 2 ^ 32 ∨ dataBase breakOnly = 2 ^ 32 ∧ breakOnly.instrBase ≠ 0#32) ∧
      step breakOnly = .next (after breakOnly) ∧ NotAborted (after breakOnly)) ∧
    ending.status = .running ∧ ending.preIssue.entries.length < 4 ∧ inExec ending ending.pc = true ∧
      inExec ending 140#32 = true ∧ recordAt ending 140#32 = some ⟨140#32, .instr .brk⟩ ∧ 140#32 = ending.pc + 4#32 ∧
      (∃ r, recordAt ending ending.pc = some r ∧ (recordIsIssuable r = true ∨ r.body = .unknown)) ∧
      step ending = .next (after ending) ∧ NotAborted (after ending) :=
  ⟨⟨by decide, by decide, by decide, by decide, by decide, step_after breakOnly, notAborted_of_terminated (by decide)⟩,
    by decide, by decide, by decide, by decide, by decide, by decide, ⟨⟨136#32, .unknown⟩, by decide, .inr rfl⟩,
    step_after ending, notAborted_of_terminated (by decide)⟩

theorem test_witness_BadAddressAbortsTheCycleAtMem :
    (loading 152).status = .running ∧ QueuesHoldTheirClasses (loading 152) ∧
      (loading 152).preMEM.entries = [⟨⟨132#32, .instr (.lw 2 4 0)⟩, some 152#32⟩] ∧
      validData (loading 152) 152 = false :=
  ⟨by decide, faulting_invariant.2.1, by decide, by decide⟩

theorem test_witness_LatchedStateDoesNotInfluenceTheCycle :
    ∃ t : State, t = { demo with
        rrtc := (reserve 1 128 demo).rrtn, lastPreIssue := [addEntry.record], resolved := some ⟨128#32, .instr .brk⟩
        preIssue := ⟨[], true⟩, preALU := ⟨[], true⟩, notices := [.unknownOpcode 0], active := ⟨0, .alu⟩ } ∧
      t ≠ demo ∧ demo.status = .running ∧ sameBeforeSnapshot demo t := by
  refine ⟨_, rfl, fun h => ?_, by decide, rfl, rfl, rfl, rfl, rfl, rfl, rfl, rfl, rfl, rfl, rfl, rfl, rfl, rfl⟩
  exact absurd (congrArg (fun s => s.active.phase) h) (by decide)

theorem test_witness_OnlyWritebackChangesRegisters :
    step committing = .next (after committing) ∧ readReg (after committing) 1 ≠ readReg committing 1 ∧
      readReg (after committing) 4 ≠ readReg committing 4 :=
  ⟨step_after committing, by decide, by decide⟩

theorem test_witness_OnlyTheStoreAtMemChangesMemory :
    step (storing 144) = .next (after (storing 144)) ∧
      Memory.readByte (after (storing 144)).mem 144 ≠ Memory.readByte (storing 144).mem 144 :=
  ⟨step_after _, by decide⟩

/-! ### Invariants and headline results -/

theorem test_witness_QueueCapacitiesAreKept : QueuesBounded crowded ∧ ∃ t, step crowded = .next t :=
  ⟨test_witness_SnapshotLatchesItsFourParts.1, _, step_after crowded⟩

theorem test_witness_QueueClassesAreKept : QueuesHoldTheirClasses adding ∧ ∃ t, step adding = .next t :=
  ⟨adding_invariant.2.1, _, step_after adding⟩

theorem test_witness_OneOutstandingWriterIsKept :
    QueuesBounded adding ∧ QueuesHoldTheirClasses adding ∧ OneWriterPerRegister adding ∧
      step adding = .next (after adding) ∧ NotAborted (after adding) :=
  ⟨adding_invariant.1, adding_invariant.2.1, adding_invariant.2.2.1 (notAborted_of_running (by decide)),
    step_after adding, notAborted_of_running (by decide)⟩

theorem test_witness_PcStaysAligned : ProgramLoaded demo ∧ PcAligned demo ∧ ∃ t, step demo = .next t :=
  ⟨demo_invariant.2.2.2.1, demo_invariant.2.2.2.2.1, _, step_after demo⟩

theorem test_witness_DataMemoryStaysInItsRegion :
    (storing 144).instrBase.toNat % 4 = 0 ∧ MemoryInRegion (storing 144) ∧ ∃ t, step (storing 144) = .next t :=
  ⟨by decide, storing_invariant.2.2.2.2.2.2.2, _, step_after _⟩

theorem test_witness_EveryStepKeepsTheInvariant : CoreInvariant adding ∧ ∃ t, step adding = .next t :=
  ⟨adding_invariant, _, step_after adding⟩

theorem test_witness_AbortsExactlyOnABadAddress :
    CoreInvariant (loading 152) ∧ (loading 152).status = .running ∧ step (loading 152) = .next (after (loading 152)) ∧
      (after (loading 152)).status = .aborted (.dataAddressFault 152) :=
  ⟨faulting_invariant, by decide, step_after _, by decide⟩

theorem test_witness_BranchResolvesWithoutOutstandingWriter :
    CoreInvariant branching ∧ branching.status = .running ∧ step branching = .next (after branching) ∧
      NotAborted (after branching) ∧ (after branching).resolved = some ⟨132#32, .instr (.beq 1 2 2)⟩ ∧
      inFlight (after branching) ≠ [] :=
  ⟨branching_invariant, by decide, step_after _, notAborted_of_terminated (by decide), by decide, by decide⟩

theorem test_witness_WaitingInstructionHoldsFetch :
    CoreInvariant stalled ∧ stalled.status = .running ∧ stalled.waiting = some ⟨132#32, .instr (.beq 1 2 2)⟩ ∧
      ∃ t, step stalled = .next t :=
  ⟨stalled_invariant, by decide, by decide, _, step_after stalled⟩

theorem test_witness_ArithmeticReachesItsRegisterInTwoCycles :
    CoreInvariant adding ∧ adding.preALU.entries = [⟨⟨128#32, .instr (.add 1 2 3)⟩, none⟩] ∧
      step adding = .next (after adding) ∧ (after adding).status = .running ∧
      step (after adding) = .next (after (after adding)) ∧ destOf (.add 1 2 3) = some 1 ∧
      aluResult (.add 1 2 3) (after adding) = some 12#32 :=
  ⟨adding_invariant, by decide, step_after _, by decide, step_after _, by decide, by decide⟩

theorem test_witness_LoadReachesItsRegisterInTwoCycles :
    CoreInvariant (loading 148) ∧ (loading 148).preMEM.entries = [⟨⟨132#32, .instr (.lw 2 4 0)⟩, some 148#32⟩] ∧
      memRead 148 (loading 148) = .ok 0xFFFFFFFF#32 ∧ step (loading 148) = .next (after (loading 148)) ∧
      (after (loading 148)).status = .running ∧
      step (after (loading 148)) = .next (after (after (loading 148))) :=
  ⟨loading_invariant, by decide, by decide, step_after _, by decide, step_after _⟩

theorem test_witness_StoreReachesMemoryInOneCycle :
    CoreInvariant (storing 144) ∧ (storing 144).status = .running ∧
      (storing 144).preMEM.entries = [⟨⟨132#32, .instr (.sw 2 3 0)⟩, some 144#32⟩] ∧
      validData (storing 144) 144 = true ∧ ∃ t, step (storing 144) = .next t :=
  ⟨storing_invariant, by decide, by decide, by decide, _, step_after _⟩

end Sys2Proof.Tests
end

section
/-!
PROOFS. Every load establishes the machine's invariant (O12). Two facts about the instruction record file carry it: the
loader makes DATA records exactly behind the first BREAK, and the k-th record stands at `INSTR_BASE + 4*k`.
-/

open Sys2Proof Sys2Proof.Machine Sys2Proof.Statements

namespace Sys2Proof.Machine

/-! ## The two modes of the loader (R401) -/

theorem recordIsData_of_decoder {decoder : Decoder} (h : wellFormedDecoder decoder) (w a : Word) :
    recordIsData (decoder w a) = false := by
  obtain ⟨-, hnd⟩ := h w a
  unfold recordIsData
  split
  next v hv => exact absurd hv (hnd v)
  all_goals rfl

theorem recordIsData_of_mem_loadData {a : Word} {ws : List Word} {r : Record} (h : r ∈ loadData a ws) :
    recordIsData r = true := by
  induction ws generalizing a with
  | nil => cases h
  | cons w ws ih =>
    rcases List.mem_cons.mp h with rfl | h
    · rfl
    · exact ih h

/-- The records of the executable region are decoded ones. -/
theorem recordIsData_of_mem_take_loadRecords {decoder : Decoder} (hd : wellFormedDecoder decoder) {a : Word}
    {ws : List Word} {r : Record}
    (h : r ∈ (loadRecords decoder a ws).take (nexecOf (loadRecords decoder a ws))) : recordIsData r = false := by
  induction ws generalizing a with
  | nil => cases h
  | cons w ws ih =>
    cases hb : isBreak (decoder w a) <;> simp only [loadRecords, nexecOf, hb, Bool.false_eq_true, ↓reduceIte,
      List.take_succ_cons, List.take_zero] at h
    case true =>
      obtain rfl := List.mem_singleton.mp h
      exact recordIsData_of_decoder hd w a
    case false =>
      rcases List.mem_cons.mp h with rfl | h
      · exact recordIsData_of_decoder hd w a
      · exact ih h

/-- The records behind the executable region are DATA records. -/
theorem recordIsData_of_mem_drop_loadRecords {decoder : Decoder} {a : Word} {ws : List Word} {r : Record}
    (h : r ∈ (loadRecords decoder a ws).drop (nexecOf (loadRecords decoder a ws))) : recordIsData r = true := by
  induction ws generalizing a with
  | nil => cases h
  | cons w ws ih =>
    cases hb : isBreak (decoder w a) <;> simp only [loadRecords, nexecOf, hb, Bool.false_eq_true, ↓reduceIte,
      List.drop_succ_cons, List.drop_zero] at h
    case true => exact recordIsData_of_mem_loadData h
    case false => exact ih h

/-! ## Where the records stand (R31) -/

theorem address_of_addressesFrom {a : Word} {rs : List Record} (h : addressesFrom a rs = true) {k : Nat} {r : Record}
    (hk : rs[k]? = some r) : r.address = a + BitVec.ofNat 32 (4 * k) := by
  induction rs generalizing a k with
  | nil => simp at hk
  | cons r' rs ih =>
    simp only [addressesFrom, Bool.and_eq_true, beq_iff_eq] at h
    obtain ⟨hr', hrs⟩ := h
    cases k with
    | zero =>
      obtain rfl : r' = r := by simpa using hk
      simpa using hr'
    | succ k =>
      have := ih hrs hk
      bv_omega

/-- In a loaded program the address arithmetic of R31 does not wrap. -/
theorem ProgramLoaded.toNat_address {s : State} (h : ProgramLoaded s) {k : Nat} {r : Record}
    (hk : s.imem[k]? = some r) : r.address.toNat = s.instrBase.toNat + 4 * k := by
  obtain ⟨-, hfit, haddr, -, -⟩ := h
  obtain ⟨hlt, -⟩ := List.getElem?_eq_some_iff.mp hk
  rw [address_of_addressesFrom haddr hk]
  bv_omega

/-- A DATA record of a loaded program stands, with all its four bytes, in the data region. -/
theorem ProgramLoaded.data_record_in_region {s : State} (h : ProgramLoaded s) {r : Record} (hr : r ∈ s.imem)
    (hdata : recordIsData r = true) :
    dataBase s ≤ r.address.toNat ∧ r.address.toNat + 4 ≤ dataBase s + 4 * ndata s := by
  obtain ⟨k, hk⟩ := List.mem_iff_getElem?.mp hr
  have haddr := h.toNat_address hk
  obtain ⟨hlt, hget⟩ := List.getElem?_eq_some_iff.mp hk
  obtain ⟨-, -, -, hexec, -⟩ := h
  have hbehind : nexecOf s.imem ≤ k := by
    by_contra hk'
    have hmem : r ∈ s.imem.take (nexecOf s.imem) :=
      List.mem_take_iff_getElem.mpr ⟨k, by omega, hget⟩
    simp [hexec r hmem] at hdata
  unfold dataBase ndata
  omega

/-! ## What the loader writes into data memory -/

/-- Every cell the loader lists belongs to a DATA record. -/
theorem mem_loadMemory {m : Memory} {rs : List Record} {c : Host.Cell} (h : c ∈ loadMemory m rs) :
    c ∈ m ∨ ∃ r ∈ rs, recordIsData r = true ∧ r.address.toNat ≤ c.1 ∧ c.1 < r.address.toNat + 4 := by
  induction rs generalizing m with
  | nil => exact .inl h
  | cons r rs ih =>
    unfold loadMemory at h
    split at h
    next v hv =>
      rcases ih h with h | ⟨r', hr', hcell⟩
      · rcases Memory.mem_writeWord h with h | hcell
        · exact .inl h
        · exact .inr ⟨r, by simp, by simp [recordIsData, hv], hcell⟩
      · exact .inr ⟨r', by simp [hr'], hcell⟩
    all_goals
      rcases ih h with h | ⟨r', hr', hcell⟩
      · exact .inl h
      · exact .inr ⟨r', by simp [hr'], hcell⟩

/-! ## The loaded state, clause by clause -/

/-- What `loadProgram` answers inside the domain (`loadProgram_of_inDomain`). -/
def loadedState (decoder : Decoder) (base : Word) (program : List Word) : State :=
  { State.reset with
    instrBase := base
    pc := base
    imem := loadRecords decoder base program
    mem := loadMemory [] (loadRecords decoder base program)
    status := resetStatus base (loadRecords decoder base program)
    active := .atRest base }

theorem loadable_iff_inDomain {base : Word} {program : List Word} :
    loadable base program = true ↔ inDomain base program := by
  simp [loadable, inDomain]

theorem loadProgram_of_inDomain (decoder : Decoder) {base : Word} {program : List Word} (h : inDomain base program) :
    loadProgram decoder base program = some (loadedState decoder base program) := by
  rcases loadProgram_spec decoder base program with ⟨-, hl⟩ | ⟨hno, -⟩
  · exact hl
  · rw [loadable_iff_inDomain.mpr h] at hno
    cases hno

section
variable (decoder : Decoder) (base : Word) (program : List Word)

/-- R390, read in the loaded state itself. -/
theorem loadedState_status : (loadedState decoder base program).status =
    if inExec (loadedState decoder base program) base then .running else .terminated := rfl

theorem loadedState_queuesBounded : QueuesBounded (loadedState decoder base program) := by
  simp [QueuesBounded, loadedState, State.reset, BoundedQueue.empty]

theorem loadedState_queuesHoldTheirClasses : QueuesHoldTheirClasses (loadedState decoder base program) := by
  simp [QueuesHoldTheirClasses, loadedState, State.reset, BoundedQueue.empty]

theorem inFlight_loadedState : inFlight (loadedState decoder base program) = [] := rfl

theorem slotOf_rrtn_loadedState (r : RegIdx) : slotOf (loadedState decoder base program).rrtn r = none := by
  simp [loadedState, State.reset, ReservationTable.free, slotOf]

theorem loadedState_oneWriterPerRegister : OneWriterPerRegister (loadedState decoder base program) := by
  simp [OneWriterPerRegister, inFlight_loadedState, slotOf_rrtn_loadedState]

theorem loadedState_fetchStallConsistent : FetchStallConsistent (loadedState decoder base program) := by
  simp [FetchStallConsistent, loadedState, State.reset]

theorem loadedState_statusMatchesRegion : StatusMatchesRegion (loadedState decoder base program) := by
  have hpc : (loadedState decoder base program).pc = base := rfl
  unfold StatusMatchesRegion
  rw [loadedState_status, hpc]
  split <;> simp_all

end

section
variable {decoder : Decoder} {base : Word} {program : List Word}

theorem loadedState_programLoaded (hd : wellFormedDecoder decoder) (hdom : inDomain base program) :
    ProgramLoaded (loadedState decoder base program) := by
  obtain ⟨halign, hfit⟩ := hdom
  exact ⟨halign, by simpa [loadedState] using hfit, addressesFrom_loadRecords hd base program,
    fun _ => recordIsData_of_mem_take_loadRecords hd, fun _ => recordIsData_of_mem_drop_loadRecords⟩

theorem loadedState_memoryInRegion (hd : wellFormedDecoder decoder) (hdom : inDomain base program) :
    MemoryInRegion (loadedState decoder base program) := by
  refine ⟨wf_loadMemory rfl _, fun c hc => ?_⟩
  rcases mem_loadMemory hc with hnil | ⟨r, hr, hdata, hlo, hhi⟩
  · cases hnil
  · have hregion := (loadedState_programLoaded hd hdom).data_record_in_region hr hdata
    omega

theorem loadedState_coreInvariant (hd : wellFormedDecoder decoder) (hdom : inDomain base program) :
    CoreInvariant (loadedState decoder base program) :=
  ⟨loadedState_queuesBounded decoder base program, loadedState_queuesHoldTheirClasses decoder base program,
    fun _ => loadedState_oneWriterPerRegister decoder base program, loadedState_programLoaded hd hdom, hdom.1,
    loadedState_fetchStallConsistent decoder base program, loadedState_statusMatchesRegion decoder base program,
    loadedState_memoryInRegion hd hdom⟩

end

/-- Settles O12: the loaded state meets the invariant clause by clause, its data memory because the DATA records lie
behind the executable region. -/
theorem everyLoadEstablishesTheInvariant : Obligations.EveryLoadEstablishesTheInvariant :=
  ⟨fun decoder _ _ hd hdom => ⟨_, loadProgram_of_inDomain decoder hdom, loadedState_coreInvariant hd hdom⟩,
    wellFormedDecoder_decodeRecord⟩

end Sys2Proof.Machine
end

section
/-!
PROOFS. The state's invariants over a step (O6, O19, O47, O49 to O52, O54). The layer underneath says once, as an
inductive relation each, what the scan of Issue and the slots of Fetch can do, and which components each stage leaves
alone; an invariant is then one short argument per stage.
-/

open Sys2Proof Sys2Proof.Machine Sys2Proof.Statements
open Host (Outcome)

namespace Sys2Proof.Machine

/-! ## What the scan of Issue can do (R191, R193, R198) -/

/-- The state right after candidate `c` has issued, with `left` what PreIssue still holds. -/
def afterIssue (c : Record) (left : List Entry) (s : State) : State :=
  reserveDest (recordDest c) c.address
    (setEntries .preALU (s.preALU.entries ++ [⟨c, none⟩]) (activate c .issue (setEntries .preIssue left s)))

theorem afterIssue_frame (c : Record) (left : List Entry) (s : State) :
    afterIssue c left s = { s with
      rrtn := (afterIssue c left s).rrtn, active := (afterIssue c left s).active
      preIssue := { s.preIssue with entries := left }
      preALU := { s.preALU with entries := s.preALU.entries ++ [⟨c, none⟩] } } := by
  unfold afterIssue
  cases recordDest c <;> rfl

@[simp] theorem afterIssue_status (c : Record) (left : List Entry) (s : State) :
    (afterIssue c left s).status = s.status := by rw [afterIssue_frame]

/-- `IssueRun left issued s t`: from `s`, with the entries `left` in PreIssue and the records `issued` gone in this
scan, Issue ends in `t`. -/
inductive IssueRun : List Entry → List Record → State → State → Prop where
  | done {left : List Entry} {issued : List Record} {s : State} :
      IssueRun left issued s (setEntries .preIssue (sortByAddress left) s)
  | issue {kept rest : List Entry} {c : Entry} {issued : List Record} {s t : State} :
      mayIssue s c.record ((kept ++ rest).map Entry.record) issued = true →
      IssueRun (kept ++ rest) (issued ++ [c.record]) (afterIssue c.record (kept ++ rest) s) t →
      IssueRun (kept ++ c :: rest) issued s t

theorem issueScan_run {kept rest : List Entry} {issued : List Record} {s t : State} (hs : s.status = .running)
    (h : issueScan kept issued rest s = .next t) : IssueRun (kept ++ rest) issued s t := by
  induction rest generalizing kept issued s with
  | nil =>
    obtain rfl := Outcome.next.inj h
    simpa using IssueRun.done
  | cons c rest ih =>
    rw [issueScan_cons _ _ _ _ _ hs] at h
    split at h
    next hm => exact .issue hm (ih (by simpa using hs) h)
    next => simpa using ih hs h

/-- Everything Issue can do: nothing behind a full latch (R190), otherwise one scan. -/
theorem issueStage_cases {s t : State} (hs : s.status = .running) (h : issueStage s = .next t) :
    (s.preALU.lastFull = true ∧ t = s) ∨
      (s.preALU.lastFull = false ∧ IssueRun s.preIssue.entries [] s t) := by
  unfold issueStage at h
  split at h
  next hfull => exact .inl ⟨hfull, (Outcome.next.inj h).symm⟩
  next hroom => exact .inr ⟨by simpa using hroom, issueScan_run hs h⟩

/-! ## What the slots of Fetch can do (R142 to R153) -/

/-- `FetchRun slots fd s t`: from `s`, with the fetch slots `slots` not yet used and `fd` the `first_dest` the next of
them sees, Fetch ends in `t`. -/
inductive FetchRun : List FetchSlot → Option RegIdx → State → State → Prop where
  | used {fd : Option RegIdx} {s : State} : FetchRun [] fd s s
  | outside {slot : FetchSlot} {slots : List FetchSlot} {fd : Option RegIdx} {s : State} :
      inExec s s.pc = false → FetchRun (slot :: slots) fd s s
  | full {slot : FetchSlot} {slots : List FetchSlot} {fd : Option RegIdx} {s : State} {r : Record} :
      inExec s s.pc = true → recordAt s s.pc = some r → recordIsIssuable r = true → isFull .preIssue s = true →
      FetchRun (slot :: slots) fd s s
  | wait {slot : FetchSlot} {slots : List FetchSlot} {fd : Option RegIdx} {s : State} {r : Record} :
      inExec s s.pc = true → recordAt s s.pc = some r → recordIsControl r = true →
      branchBlocked s (recordSrcs r) slot fd = true →
      FetchRun (slot :: slots) fd s { activate r (.fetch slot fd) s with waiting := some r }
  | resolve {slot : FetchSlot} {slots : List FetchSlot} {fd : Option RegIdx} {s : State} {r : Record} :
      inExec s s.pc = true → recordAt s s.pc = some r → recordIsControl r = true →
      branchBlocked s (recordSrcs r) slot fd = false →
      FetchRun (slot :: slots) fd s
        { activate r (.fetch slot fd) s with pc := recordOutcome s r, resolved := some r, waiting := none }
  | push {slot : FetchSlot} {slots : List FetchSlot} {fd : Option RegIdx} {s t : State} {r : Record} :
      inExec s s.pc = true → recordAt s s.pc = some r → recordIsIssuable r = true → isFull .preIssue s = false →
      FetchRun slots (recordDest r) (advancePc (setEntries .preIssue (s.preIssue.entries ++ [⟨r, none⟩])
        (activate r (.fetch slot fd) s))) t →
      FetchRun (slot :: slots) fd s t
  | pass {slot : FetchSlot} {slots : List FetchSlot} {fd : Option RegIdx} {s t : State} {r : Record} :
      inExec s s.pc = true → recordAt s s.pc = some r → r.body = .unknown →
      FetchRun slots fd (advancePc (signalNotice (.unknownOpcode r.address) (activate r (.fetch slot fd) s))) t →
      FetchRun (slot :: slots) fd s t
  | fault {slot : FetchSlot} {slots : List FetchSlot} {fd : Option RegIdx} {s : State} {r : Record} :
      inExec s s.pc = true → recordAt s s.pc = some r → recordIsData r = true →
      FetchRun (slot :: slots) fd s (operandAbsent (activate r (.fetch slot fd) s))

theorem fetchSlot_run {slot : FetchSlot} {slots : List FetchSlot} {fd : Option RegIdx}
    {next : Option RegIdx → State → Outcome State Fault Refusal} {s t : State} (hs : s.status = .running)
    (hnext : ∀ d u, u.status = .running → next d u = .next t → FetchRun slots d u t)
    (h : fetchSlot slot fd next s = .next t) : FetchRun (slot :: slots) fd s t := by
  rcases fetchSlot_cases hs h with ⟨hout, rfl⟩ | ⟨r, hin, hr, hcase⟩
  · exact .outside hout
  rcases hcase with ⟨hc, hb, rfl⟩ | ⟨hc, hb, rfl⟩ | ⟨hi, hfull, rfl⟩ | ⟨hi, hroom, h⟩ | ⟨hu, h⟩ | ⟨hd, rfl⟩
  · exact .wait hin hr hc hb
  · exact .resolve hin hr hc hb
  · exact .full hin hr hi hfull
  · exact .push hin hr hi hroom (hnext _ _ hs h)
  · exact .pass hin hr hu (hnext _ _ hs h)
  · exact .fault hin hr hd

/-- Everything Fetch can do: behind a full latch it has no slot (R141), otherwise two. -/
theorem fetchStage_run {s t : State} (hs : s.status = .running) (h : fetchStage s = .next t) :
    FetchRun (if s.preIssue.lastFull then [] else [.one, .two]) none s t := by
  unfold fetchStage at h
  cases hl : s.preIssue.lastFull <;> simp only [hl, Bool.false_eq_true, ↓reduceIte] at h ⊢
  case true =>
    obtain rfl := Outcome.next.inj h
    exact .used
  case false =>
    refine fetchSlot_run hs (fun d u hu h => fetchSlot_run hu (fun d v _ hv => ?_) h) h
    obtain rfl := Outcome.next.inj hv
    exact .used

/-! ## What each stage leaves alone (R129, last column) -/

/-- A lane of Writeback empties its own queue and touches no other (R230). -/
theorem commitLane_frame {q : QueueName} {s t : State} (h : commitLane q s = .next t) :
    ∃ es, t = { setEntries q es s with x := t.x, rrtn := t.rrtn, status := t.status, active := t.active } := by
  rcases commitLane_cases h with ⟨-, rfl⟩ | ⟨e, es, -, ⟨-, rfl⟩ | ⟨d, v, -, -, rfl⟩⟩
  · exact ⟨(queueOf t q).entries, by cases q <;> rfl⟩
  · exact ⟨es, by cases q <;> rfl⟩
  · exact ⟨es, by cases q <;> rfl⟩

theorem writebackStage_frame {s t : State} (h : writebackStage s = .next t) :
    t = { s with
      x := t.x, rrtn := t.rrtn, status := t.status, active := t.active
      postMEM := { s.postMEM with entries := t.postMEM.entries }
      postALU := { s.postALU with entries := t.postALU.entries } } := by
  obtain ⟨u, hu, hrest⟩ := thenIfRunning_cases h
  obtain ⟨es, hu⟩ := commitLane_frame hu
  rcases hrest with ⟨-, ht⟩ | ⟨-, rfl⟩
  · obtain ⟨fs, ht⟩ := commitLane_frame ht
    rw [ht, hu]
    rfl
  · rw [hu]
    rfl

theorem memStage_frame {s t : State} (h : memStage s = .next t) :
    t = { s with
      mem := t.mem, status := t.status, active := t.active
      preMEM := { s.preMEM with entries := t.preMEM.entries }
      postMEM := { s.postMEM with entries := t.postMEM.entries } } := by
  rcases memStage_cases h with ⟨-, rfl⟩ | ⟨e, es, -, ⟨f, rfl, -⟩ | ⟨a, -, -, -, rfl⟩ | ⟨a, -, -, -, -, rfl⟩⟩ <;> rfl

theorem aluStage_frame {s t : State} (h : aluStage s = .next t) :
    t = { s with
      status := t.status, active := t.active
      preALU := { s.preALU with entries := t.preALU.entries }
      postALU := { s.postALU with entries := t.postALU.entries }
      preMEM := { s.preMEM with entries := t.preMEM.entries } } := by
  rcases aluStage_cases h with ⟨-, rfl⟩ | ⟨e, es, -, ⟨f, rfl, -⟩ | ⟨-, -, rfl⟩ | ⟨-, -, -, rfl⟩⟩ <;> rfl

theorem IssueRun.frame {left : List Entry} {issued : List Record} {s t : State} (h : IssueRun left issued s t) :
    t = { s with
      rrtn := t.rrtn, active := t.active
      preIssue := { s.preIssue with entries := t.preIssue.entries }
      preALU := { s.preALU with entries := t.preALU.entries } } := by
  induction h with
  | done => rfl
  | issue _ _ ih =>
    rw [afterIssue_frame] at ih
    exact ih

theorem issueStage_frame {s t : State} (hs : s.status = .running) (h : issueStage s = .next t) :
    t = { s with
      rrtn := t.rrtn, active := t.active
      preIssue := { s.preIssue with entries := t.preIssue.entries }
      preALU := { s.preALU with entries := t.preALU.entries } } := by
  rcases issueStage_cases hs h with ⟨-, rfl⟩ | ⟨-, h⟩
  · rfl
  · exact h.frame

theorem FetchRun.frame {slots : List FetchSlot} {fd : Option RegIdx} {s t : State} (h : FetchRun slots fd s t) :
    t = { s with
      pc := t.pc, waiting := t.waiting, resolved := t.resolved
      status := t.status, active := t.active, notices := t.notices
      preIssue := { s.preIssue with entries := t.preIssue.entries } } := by
  induction h with
  | used | outside | full | wait | resolve | fault => rfl
  | push _ _ _ _ _ ih => exact ih
  | pass _ _ _ _ ih => exact ih

theorem fetchStage_frame {s t : State} (hs : s.status = .running) (h : fetchStage s = .next t) :
    t = { s with
      pc := t.pc, waiting := t.waiting, resolved := t.resolved
      status := t.status, active := t.active, notices := t.notices
      preIssue := { s.preIssue with entries := t.preIssue.entries } } :=
  (fetchStage_run hs h).frame

/-- The termination test writes `status` only (R245). -/
theorem terminationTest_frame (s : State) : terminationTest s = { s with status := (terminationTest s).status } := by
  unfold terminationTest
  split <;> rfl

/-! ## What survives a whole step -/

/-- The shape of every argument about one cycle: `P` is established by Writeback and kept by MEM and ALU, Issue turns it
into `Q` and Fetch into `R`, and `R` survives the end of the cycle, which writes `status` and `active` only and takes no
fault back. Where a stage raises, `R` follows from what held before it. -/
theorem step_establishes {P Q R : State → Prop} {s : State}
    (hwriteback : ∀ u, writebackStage (beginCycle s) = .next u → P u)
    (hmem : ∀ u v, u.status = .running → P u → memStage u = .next v → P v)
    (halu : ∀ u v, u.status = .running → P u → aluStage u = .next v → P v)
    (hissue : ∀ u v, u.status = .running → P u → issueStage u = .next v → Q v)
    (hfetch : ∀ u v, u.status = .running → Q u → fetchStage u = .next v → R v)
    (hPQ : ∀ u, P u → Q u) (hQR : ∀ u, Q u → R u)
    (hend : ∀ u st a, (NotAborted { u with status := st, active := a } → NotAborted u) → R u →
      R { u with status := st, active := a })
    {t : State} (hs : s.status = .running) (h : step s = .next t) : R t := by
  rcases step_cases h with ⟨hn, -⟩ | ⟨-, u, hc, rfl⟩
  · exact absurd hs hn
  have hstop : P u → R (rest u) := fun hu => hend u u.status (.atRest u.pc) id (hQR u (hPQ u hu))
  cases hc with
  | writeback h1 _ e => subst e; exact hstop (hwriteback _ h1)
  | mem h1 r1 h2 _ e => subst e; exact hstop (hmem _ _ r1 (hwriteback _ h1) h2)
  | alu h1 r1 h2 r2 h3 _ e => subst e; exact hstop (halu _ _ r2 (hmem _ _ r1 (hwriteback _ h1) h2) h3)
  | issue h1 r1 h2 r2 h3 r3 h4 _ e =>
    subst e
    have hQ := hissue _ _ r3 (halu _ _ r2 (hmem _ _ r1 (hwriteback _ h1) h2) h3) h4
    exact hend _ _ _ id (hQR _ hQ)
  | fetch h1 r1 h2 r2 h3 r3 h4 r4 h5 _ e =>
    subst e
    have hQ := hissue _ _ r3 (halu _ _ r2 (hmem _ _ r1 (hwriteback _ h1) h2) h3) h4
    exact hend _ _ _ id (hfetch _ _ r4 hQ h5)
  | @complete _ _ _ _ b _ h1 r1 h2 r2 h3 r3 h4 r4 h5 rb e =>
    subst e
    have hQ := hissue _ _ r3 (halu _ _ r2 (hmem _ _ r1 (hwriteback _ h1) h2) h3) h4
    rw [terminationTest_frame]
    exact hend b _ _ (fun _ f hf => by simp [rb] at hf) (hfetch _ _ r4 hQ h5)

/-- What both lanes of Writeback keep, Writeback keeps. -/
theorem writebackStage_keeps {P : State → Prop}
    (hlane : ∀ q s t, q ≠ .preIssue → P s → commitLane q s = .next t → P t) {s t : State} (hs : P s)
    (h : writebackStage s = .next t) : P t := by
  obtain ⟨u, hu, ⟨-, ht⟩ | ⟨-, rfl⟩⟩ := thenIfRunning_cases h
  · exact hlane _ _ _ (by decide) (hlane _ _ _ (by decide) hs hu) ht
  · exact hlane _ _ _ (by decide) hs hu

/-! ## What stands in the queues (R46, R48, R30) -/

/-- Every queue's entries satisfy `F`. -/
def EachQueue (F : QueueName → List Entry → Prop) (s : State) : Prop := ∀ q, F q (queueOf s q).entries

/-- `F` survives every move an entry can make, from Fetch to Writeback. -/
structure SurvivesMoves (F : QueueName → List Entry → Prop) : Prop where
  pop : ∀ {q e es}, F q (e :: es) → F q es
  load : ∀ {e es v}, F .preMEM (e :: es) → recordIsLoad e.record = true → F .postMEM [⟨e.record, some v⟩]
  address : ∀ {e es v}, F .preALU (e :: es) → recordIsMemory e.record = true → F .preMEM [⟨e.record, some v⟩]
  result : ∀ {e es v}, F .preALU (e :: es) → recordIsIssuable e.record = true → recordIsMemory e.record = false →
    F .postALU [⟨e.record, some v⟩]
  leave : ∀ {kept c rest}, F .preIssue (kept ++ c :: rest) → F .preIssue (kept ++ rest)
  issue : ∀ {kept c rest es}, F .preIssue (kept ++ c :: rest) → F .preALU es → es.length < 2 →
    F .preALU (es ++ [⟨c.record, none⟩])
  sort : ∀ {es}, F .preIssue es → F .preIssue (sortByAddress es)
  fetch : ∀ {r es}, F .preIssue es → es.length < 4 → recordIsIssuable r = true → F .preIssue (es ++ [⟨r, none⟩])

section
variable {F : QueueName → List Entry → Prop}

theorem EachQueue.setEntries {q : QueueName} {es : List Entry} {s : State} (h : EachQueue F s) (hes : F q es) :
    EachQueue F (setEntries q es s) := by
  intro p
  by_cases hp : p = q
  · subst hp
    simpa using hes
  · rw [queueOf_setEntries_ne es s hp]
    exact h p

/-- Only the entries of the five queues matter. -/
theorem EachQueue.congr {s t : State} (h : EachQueue F s)
    (hq : ∀ q, (queueOf t q).entries = (queueOf s q).entries) : EachQueue F t := by
  intro q
  rw [hq q]
  exact h q

theorem EachQueue.commitLane (hF : SurvivesMoves F) {q : QueueName} {s t : State} (h : EachQueue F s)
    (hstep : commitLane q s = .next t) : EachQueue F t := by
  rcases commitLane_cases hstep with ⟨-, rfl⟩ | ⟨e, es, hes, hcase⟩
  · exact h
  have hpop : EachQueue F (Machine.setEntries q es s) := h.setEntries (hF.pop (hes ▸ h q))
  rcases hcase with ⟨-, rfl⟩ | ⟨d, v, -, -, rfl⟩ <;> exact hpop

theorem EachQueue.memStage (hF : SurvivesMoves F) {s t : State} (h : EachQueue F s)
    (hstep : memStage s = .next t) : EachQueue F t := by
  rcases memStage_cases hstep with ⟨-, rfl⟩ | ⟨e, es, hes, hcase⟩
  · exact h
  have hhead : F .preMEM (e :: es) := hes ▸ h .preMEM
  have hpop : EachQueue F (Machine.setEntries .preMEM es s) := h.setEntries (hF.pop hhead)
  rcases hcase with ⟨f, rfl, -⟩ | ⟨a, -, -, -, rfl⟩ | ⟨a, -, hl, -, -, rfl⟩
  · exact hpop
  · exact hpop
  · exact hpop.setEntries (hF.load hhead hl)

theorem EachQueue.aluStage (hF : SurvivesMoves F) {s t : State} (h : EachQueue F s)
    (hstep : aluStage s = .next t) : EachQueue F t := by
  rcases aluStage_cases hstep with ⟨-, rfl⟩ | ⟨e, es, hes, hcase⟩
  · exact h
  have hhead : F .preALU (e :: es) := hes ▸ h .preALU
  have hpop : EachQueue F (Machine.setEntries .preALU es s) := h.setEntries (hF.pop hhead)
  rcases hcase with ⟨f, rfl, -⟩ | ⟨hm, -, rfl⟩ | ⟨hi, hm, -, rfl⟩
  · exact hpop
  · exact hpop.setEntries (hF.address hhead hm)
  · exact hpop.setEntries (hF.result hhead hi hm)

theorem EachQueue.issueRun (hF : SurvivesMoves F) {left : List Entry} {issued : List Record} {s t : State}
    (hrun : IssueRun left issued s t) (hleft : F .preIssue left) (h : EachQueue F s) : EachQueue F t := by
  induction hrun with
  | done => exact h.setEntries (hF.sort hleft)
  | @issue kept rest c issued s t hm _ ih =>
    obtain ⟨-, hroom, -, -⟩ := mayIssue_iff.mp hm
    refine ih (hF.leave hleft) ?_
    refine ((h.setEntries (hF.leave hleft)).setEntries (hF.issue hleft (h .preALU) hroom)).congr fun q => ?_
    rw [afterIssue_frame]
    cases q <;> rfl

theorem EachQueue.fetchRun (hF : SurvivesMoves F) {slots : List FetchSlot} {fd : Option RegIdx} {s t : State}
    (hrun : FetchRun slots fd s t) (h : EachQueue F s) : EachQueue F t := by
  induction hrun with
  | used | outside | full => exact h
  | wait | resolve | fault => exact h
  | push _ _ hi hroom _ ih =>
    have hpush := h.setEntries (hF.fetch (h .preIssue) (not_isFull_iff.mp hroom) hi)
    exact ih hpush
  | pass _ _ _ _ ih => exact ih h

theorem EachQueue.step (hF : SurvivesMoves F) {s t : State} (h : EachQueue F s) (hstep : step s = .next t) :
    EachQueue F t := by
  refine step_keeps (P := EachQueue F) ?begin ?writeback ?mem ?alu ?issue ?fetch ?test ?rest h hstep
  case begin => exact fun s h => h.congr fun q => by cases q <;> rfl
  case writeback => exact fun s t => writebackStage_keeps fun _ _ _ _ h => h.commitLane hF
  case mem => exact fun s t h => h.memStage hF
  case alu => exact fun s t h => h.aluStage hF
  case issue =>
    intro s t hs h hi
    rcases issueStage_cases hs hi with ⟨-, rfl⟩ | ⟨-, hrun⟩
    · exact h
    · exact h.issueRun hF hrun (h .preIssue)
  case fetch => exact fun s t hs h hf => h.fetchRun hF (fetchStage_run hs hf)
  case test => exact fun s h => by rw [terminationTest_frame]; exact h
  case rest => exact fun s h => h

end

theorem queuesBounded_iff {s : State} : QueuesBounded s ↔ EachQueue (fun q es => es.length ≤ capacity q) s := by
  constructor
  · rintro ⟨h1, h2, h3, h4, h5⟩ q
    cases q <;> assumption
  · intro h
    exact ⟨h .preIssue, h .preALU, h .postALU, h .preMEM, h .postMEM⟩

/-- A pushed entry finds room, and no other move makes a queue longer. -/
theorem capacity_survivesMoves : SurvivesMoves fun q es => es.length ≤ capacity q where
  pop h := Nat.le_of_succ_le h
  load _ _ := Nat.le_refl 1
  address _ _ := Nat.le_refl 1
  result _ _ _ := Nat.le_refl 1
  leave h := by simp at h ⊢; omega
  issue _ _ hroom := by simp; omega
  sort h := by rwa [(sortByAddress_perm _).length_eq]
  fetch _ hroom _ := by simp; omega

/-- The classes and the cached result of queue `q` (R48, R30). -/
def entryFits : QueueName → Entry → Prop
  | .preIssue, e => recordIsIssuable e.record = true ∧ e.cached = none
  | .preALU, e => recordIsIssuable e.record = true ∧ e.cached = none
  | .postALU, e => (recordDest e.record).isSome = true ∧ recordIsLoad e.record = false ∧ e.cached.isSome = true
  | .preMEM, e => recordIsMemory e.record = true ∧ e.cached.isSome = true
  | .postMEM, e => recordIsLoad e.record = true ∧ e.cached.isSome = true

theorem queuesHoldTheirClasses_iff {s : State} :
    QueuesHoldTheirClasses s ↔ EachQueue (fun q es => ∀ e ∈ es, entryFits q e) s := by
  constructor
  · rintro ⟨h1, h2, h3, h4, h5⟩ q
    cases q <;> assumption
  · intro h
    exact ⟨h .preIssue, h .preALU, h .postALU, h .preMEM, h .postMEM⟩

/-- An issuable record that is neither SW nor LW has a destination and is no load: what PostALU asks of it. -/
theorem dest_of_issuable_of_not_memory {r : Record} (hi : recordIsIssuable r = true) (hm : recordIsMemory r = false) :
    (recordDest r).isSome = true ∧ recordIsLoad r = false := by
  obtain ⟨a, b⟩ := r
  cases b with
  | instr i =>
    obtain ⟨hs, hl⟩ : isStore i = false ∧ isLoad i = false := by simpa [recordIsMemory] using hm
    obtain ⟨d, hd⟩ := destOf_of_not_control (i := i) (by simpa [recordIsIssuable] using hi) hs
    exact ⟨by simp [recordDest, hd], hl⟩
  | data | unknown => cases hi

/-- Every stage hands an entry on to the queue that is meant for its class. -/
theorem entryFits_survivesMoves : SurvivesMoves fun q es => ∀ e ∈ es, entryFits q e where
  pop h e he := h e (List.mem_cons_of_mem _ he)
  load _ hl e he := by obtain rfl := List.mem_singleton.mp he; exact ⟨hl, rfl⟩
  address _ hm e he := by obtain rfl := List.mem_singleton.mp he; exact ⟨hm, rfl⟩
  result _ hi hm e he := by
    obtain rfl := List.mem_singleton.mp he
    obtain ⟨hd, hl⟩ := dest_of_issuable_of_not_memory hi hm
    exact ⟨hd, hl, rfl⟩
  leave h e he := h e (by simp at he ⊢; tauto)
  issue {_ c _ _} hp ha _ e he := by
    rcases List.mem_append.mp he with he | he
    · exact ha e he
    · obtain rfl := List.mem_singleton.mp he
      obtain ⟨hi, -⟩ := hp c (by simp)
      exact ⟨hi, rfl⟩
  sort h e he := h e ((sortByAddress_perm _).subset he)
  fetch h _ hi e he := by
    rcases List.mem_append.mp he with he | he
    · exact h e he
    · obtain rfl := List.mem_singleton.mp he
      exact ⟨hi, rfl⟩

/-- Settles O49: no move of an entry takes a queue beyond its capacity. -/
theorem queueCapacitiesAreKept : Obligations.QueueCapacitiesAreKept := fun _ _ hs h =>
  queuesBounded_iff.mpr ((queuesBounded_iff.mp hs).step capacity_survivesMoves h)

/-- Settles O50: no move of an entry takes it to a queue that may not hold it. -/
theorem queueClassesAreKept : Obligations.QueueClassesAreKept := fun _ _ hs h =>
  queuesHoldTheirClasses_iff.mpr ((queuesHoldTheirClasses_iff.mp hs).step entryFits_survivesMoves h)

/-! ## The program and the program counter (R31, R32, R306, R404) -/

/-- The record fetched at an aligned address stands there (R31, R144). -/
theorem ProgramLoaded.address_of_recordAt {s : State} (h : ProgramLoaded s) {a : Word} {r : Record}
    (ha : a.toNat % 4 = 0) (hin : inExec s a = true) (hr : recordAt s a = some r) : r.address = a := by
  have haddr := h.toNat_address hr
  obtain ⟨hbase, -, -, -, -⟩ := h
  obtain ⟨hlo, -⟩ := inExec_iff.mp hin
  apply BitVec.eq_of_toNat_eq
  omega

theorem add_four_aligned {a : Word} (ha : a.toNat % 4 = 0) : (a + 4#32).toNat % 4 = 0 := by
  bv_omega

theorem jumpTarget_aligned (a : Word) (target : Target) : (jumpTarget a target).toNat % 4 = 0 := by
  have hshift : (zext26 target <<< 2).toNat % 2 ^ 2 = 0 := by
    rw [BitVec.toNat_shiftLeft, Nat.shiftLeft_eq]
    omega
  unfold jumpTarget
  rw [BitVec.toNat_or, BitVec.toNat_and, show 4 = 2 ^ 2 from rfl, Nat.or_mod_two_pow, Nat.and_mod_two_pow, hshift]
  simp

theorem branchTarget_aligned {a : Word} (ha : a.toNat % 4 = 0) (taken : Bool) (offset : Imm) :
    (branchTarget a taken offset).toNat % 4 = 0 := by
  unfold branchTarget zext16
  split
  · simp only [BitVec.toNat_add, BitVec.toNat_shiftLeft, Nat.shiftLeft_eq]
    simp
    omega
  · bv_omega

theorem dataBase_aligned {s : State} (h : ProgramLoaded s) : (BitVec.ofNat 32 (dataBase s)).toNat % 4 = 0 := by
  obtain ⟨hbase, -, -, -, -⟩ := h
  rw [BitVec.toNat_ofNat]
  unfold dataBase
  omega

/-- Every outcome of a control-transfer instruction of a loaded program is aligned (R306). -/
theorem recordOutcome_aligned {s : State} (h : ProgramLoaded s) {r : Record} (hr : r.address.toNat % 4 = 0) :
    (recordOutcome s r).toNat % 4 = 0 := by
  obtain ⟨a, b⟩ := r
  cases b with
  | data | unknown => exact hr
  | instr i =>
    cases i with
    | j target => exact jumpTarget_aligned _ _
    | beq | bgtz => exact branchTarget_aligned hr _ _
    | brk => exact dataBase_aligned h
    | _ => exact hr

theorem FetchRun.pcAligned {slots : List FetchSlot} {fd : Option RegIdx} {s t : State} (h : FetchRun slots fd s t)
    (hl : ProgramLoaded s) (hpc : PcAligned s) : PcAligned t := by
  induction h with
  | used | outside | full | wait | fault => exact hpc
  | resolve hin hr _ _ =>
    refine recordOutcome_aligned hl ?_
    rw [hl.address_of_recordAt hpc hin hr]
    exact hpc
  | push _ _ _ _ _ ih => exact ih hl (add_four_aligned hpc)
  | pass _ _ _ _ ih => exact ih hl (add_four_aligned hpc)

/-- No stage writes the record file or the base (R404), and only Fetch writes `pc`, with the next word or an aligned
outcome. -/
theorem step_keeps_programLoaded_pcAligned {s t : State} (hs : ProgramLoaded s ∧ PcAligned s) (h : step s = .next t) :
    ProgramLoaded t ∧ PcAligned t := by
  refine step_keeps (P := fun s => ProgramLoaded s ∧ PcAligned s) (fun _ h => h) ?writeback ?mem ?alu
    ?issue ?fetch ?test (fun _ h => h) hs h
  case writeback => intro s t hs h; rw [writebackStage_frame h]; exact hs
  case mem => intro s t hs h; rw [memStage_frame h]; exact hs
  case alu => intro s t hs h; rw [aluStage_frame h]; exact hs
  case issue => intro s t hr hs h; rw [issueStage_frame hr h]; exact hs
  case fetch =>
    rintro s t hr ⟨hl, hpc⟩ h
    exact ⟨by rw [fetchStage_frame hr h]; exact hl, (fetchStage_run hr h).pcAligned hl hpc⟩
  case test => intro s hs; rw [terminationTest_frame]; exact hs

/-- Settles O52, with the loaded program carried along, since the outcomes of branches are aligned only there. -/
theorem pcStaysAligned : Obligations.PcStaysAligned := fun _ _ hl hpc h =>
  (step_keeps_programLoaded_pcAligned ⟨hl, hpc⟩ h).2

/-! ## The stall of Fetch (R41, R153, decision D15) -/

/-- `FetchStallConsistent` before Fetch has run: nothing has resolved since the snapshot (R123). -/
def StallBeforeFetch (s : State) : Prop :=
  ProgramLoaded s ∧ PcAligned s ∧ s.resolved = none ∧
    ∀ w, s.waiting = some w → w.address = s.pc ∧ recordIsControl w = true ∧ recordAt s s.pc = some w

theorem StallBeforeFetch.consistent {s : State} (h : StallBeforeFetch s) : FetchStallConsistent s := by
  obtain ⟨-, -, hres, hwait⟩ := h
  exact ⟨hwait, .inr hres⟩

/-- While an instruction waits, the word at `pc` is that instruction, so nothing else is fetched. -/
theorem StallBeforeFetch.waiting_eq_none {s : State} (h : StallBeforeFetch s) {r : Record}
    (hr : recordAt s s.pc = some r) (hc : recordIsControl r = false) : s.waiting = none := by
  obtain ⟨-, -, -, hwait⟩ := h
  rw [Option.eq_none_iff_forall_ne_some]
  intro w hw
  obtain ⟨-, hcw, hrw⟩ := hwait w hw
  obtain rfl : r = w := Option.some.inj (hr.symm.trans hrw)
  simp [hc] at hcw

theorem recordIsControl_of_issuable {r : Record} (h : recordIsIssuable r = true) : recordIsControl r = false := by
  obtain ⟨a, b⟩ := r
  cases b with
  | instr i => simpa [recordIsIssuable, recordIsControl] using h
  | data | unknown => rfl

theorem FetchRun.fetchStallConsistent {slots : List FetchSlot} {fd : Option RegIdx} {s t : State}
    (h : FetchRun slots fd s t) (hs : StallBeforeFetch s) : FetchStallConsistent t := by
  induction h with
  | used | outside | full | fault => exact hs.consistent
  | wait hin hr hc _ =>
    obtain ⟨hl, hpc, hres, -⟩ := hs
    refine ⟨fun w hw => ?_, .inr hres⟩
    obtain rfl := Option.some.inj hw
    exact ⟨hl.address_of_recordAt hpc hin hr, hc, hr⟩
  | resolve => exact ⟨fun w hw => (nomatch hw), .inl rfl⟩
  | push _ hr hi _ _ ih =>
    have hnone := hs.waiting_eq_none hr (recordIsControl_of_issuable hi)
    obtain ⟨hl, hpc, hres, -⟩ := hs
    exact ih ⟨hl, add_four_aligned hpc, hres, fun w hw => nomatch hnone.symm.trans hw⟩
  | pass _ hr hu _ ih =>
    have hnone := hs.waiting_eq_none hr (by simp [recordIsControl, hu])
    obtain ⟨hl, hpc, hres, -⟩ := hs
    exact ih ⟨hl, add_four_aligned hpc, hres, fun w hw => nomatch hnone.symm.trans hw⟩

theorem step_keeps_fetchStallConsistent {s t : State} (hl : ProgramLoaded s) (hpc : PcAligned s)
    (hstall : FetchStallConsistent s) (h : step s = .next t) : FetchStallConsistent t := by
  rcases step_cases h with ⟨-, rfl⟩ | ⟨hs, -⟩
  · exact hstall
  have hbegin : StallBeforeFetch (beginCycle s) := ⟨hl, hpc, rfl, hstall.1⟩
  refine step_establishes (P := StallBeforeFetch) (Q := StallBeforeFetch) (R := FetchStallConsistent)
    ?writeback ?mem ?alu ?issue ?fetch (fun _ h => h) (fun _ => StallBeforeFetch.consistent) (fun _ _ _ _ h => h) hs h
  case writeback => intro u h; rw [writebackStage_frame h]; exact hbegin
  case mem => intro u v _ hu h; rw [memStage_frame h]; exact hu
  case alu => intro u v _ hu h; rw [aluStage_frame h]; exact hu
  case issue => intro u v hr hu h; rw [issueStage_frame hr h]; exact hu
  case fetch => exact fun u v hr hu h => (fetchStage_run hr h).fetchStallConsistent hu

/-! ## Registers (R23, R231) -/

/-- A lane of Writeback changes a register only by committing its head's cached result into the head's destination. -/
theorem commitLane_readReg {q : QueueName} {s t : State} (h : commitLane q s = .next t) (r : RegIdx) :
    readReg t r = readReg s r ∨
      ∃ e, (queueOf s q).entries.head? = some e ∧ recordDest e.record = some r ∧ e.cached = some (readReg t r) := by
  have hpop : ∀ es, readReg (setEntries q es s) r = readReg s r := fun es => by simp [readReg]
  rcases commitLane_cases h with ⟨-, rfl⟩ | ⟨e, es, hes, ⟨-, rfl⟩ | ⟨d, v, hd, hv, rfl⟩⟩
  · exact .inl rfl
  · exact .inl (hpop es)
  · by_cases hr : r = d
    · subst hr
      exact .inr ⟨e, by simp [hes], hd, hv.trans (congrArg some (readReg_writeReg_same r v _).symm)⟩
    · exact .inl ((readReg_writeReg_ne v _ hr).trans (hpop es))

/-- Register `r` reads in `t` as in `s`, or as the head of PostMEM or of PostALU of `s` commits it. -/
def KeptOrCommitted (s : State) (r : RegIdx) (t : State) : Prop :=
  readReg t r = readReg s r ∨
    ∃ e, (s.postMEM.entries.head? = some e ∨ s.postALU.entries.head? = some e) ∧ recordDest e.record = some r ∧
      e.cached = some (readReg t r)

theorem writebackStage_keptOrCommitted {s t : State} (h : writebackStage s = .next t) (r : RegIdx) :
    KeptOrCommitted s r t := by
  obtain ⟨u, hu, hrest⟩ := thenIfRunning_cases h
  have hmem := commitLane_readReg hu r
  have hqueue : u.postALU = s.postALU := by
    obtain ⟨es, hframe⟩ := commitLane_frame hu
    rw [hframe]
    rfl
  rcases hrest with ⟨-, ht⟩ | ⟨-, rfl⟩
  · rcases commitLane_readReg ht r with halu | ⟨e, he, hd, hv⟩
    · unfold KeptOrCommitted
      rw [halu]
      exact hmem.imp_right fun ⟨e, he, hd, hv⟩ => ⟨e, .inl he, hd, hv⟩
    · rw [queueOf_postALU, hqueue] at he
      exact .inr ⟨e, .inr he, hd, hv⟩
  · exact hmem.imp_right fun ⟨e, he, hd, hv⟩ => ⟨e, .inl he, hd, hv⟩

/-- Settles O47: behind Writeback no stage writes a register. -/
theorem onlyWritebackChangesRegisters : Obligations.OnlyWritebackChangesRegisters := by
  intro s t r h hne
  rcases step_cases h with ⟨-, rfl⟩ | ⟨hs, -⟩
  · exact absurd rfl hne
  refine Or.resolve_left (?_ : KeptOrCommitted s r t) hne
  refine step_establishes (P := KeptOrCommitted s r) (Q := KeptOrCommitted s r) (R := KeptOrCommitted s r)
    ?writeback ?mem ?alu ?issue ?fetch (fun _ h => h) (fun _ h => h) (fun _ _ _ _ h => h) hs h
  case writeback => exact fun u h => writebackStage_keptOrCommitted h r
  case mem => intro u v _ hu h; rw [memStage_frame h]; exact hu
  case alu => intro u v _ hu h; rw [aluStage_frame h]; exact hu
  case issue => intro u v hr hu h; rw [issueStage_frame hr h]; exact hu
  case fetch => intro u v hr hu h; rw [fetchStage_frame hr h]; exact hu

/-! ## Data memory (R61, R62, R64) -/

/-- A word stored at a valid address lies, with its four bytes, in the data region. -/
theorem MemoryInRegion.writeWord {s : State} (h : MemoryInRegion s) (hbase : s.instrBase.toNat % 4 = 0) {a : Word}
    (ha : validData s a = true) (v : Word) :
    MemoryInRegion { s with mem := Memory.writeWord s.mem a.toNat v } := by
  obtain ⟨hwf, hregion⟩ := h
  refine ⟨Memory.wf_writeWord hwf _ _, fun c hc => ?_⟩
  rcases Memory.mem_writeWord hc with hc | ⟨hlo, hhi⟩
  · exact hregion c hc
  · obtain ⟨halign, hfrom, hto⟩ := validData_iff.mp ha
    show dataBase s ≤ c.1 ∧ c.1 < dataBase s + 4 * ndata s
    unfold dataBase at *
    omega

theorem memStage_keeps_memoryInRegion {s t : State} (hbase : s.instrBase.toNat % 4 = 0) (hs : MemoryInRegion s)
    (h : memStage s = .next t) : MemoryInRegion t := by
  rcases memStage_cases h with ⟨-, rfl⟩ | ⟨e, es, -, ⟨f, rfl, -⟩ | ⟨a, -, -, ha, rfl⟩ | ⟨a, -, -, -, -, rfl⟩⟩
  · exact hs
  · exact hs
  · exact hs.writeWord hbase ha _
  · exact hs

theorem step_keeps_memoryInRegion {s t : State} (hbase : s.instrBase.toNat % 4 = 0) (hs : MemoryInRegion s)
    (h : step s = .next t) : MemoryInRegion t := by
  suffices hboth : t.instrBase.toNat % 4 = 0 ∧ MemoryInRegion t from hboth.2
  refine step_keeps (P := fun s => s.instrBase.toNat % 4 = 0 ∧ MemoryInRegion s) (fun _ h => h) ?writeback
    ?mem ?alu ?issue ?fetch ?test (fun _ h => h) ⟨hbase, hs⟩ h
  case writeback => intro s t hs h; rw [writebackStage_frame h]; exact hs
  case mem =>
    rintro s t ⟨hbase, hs⟩ h
    exact ⟨by rw [memStage_frame h]; exact hbase, memStage_keeps_memoryInRegion hbase hs h⟩
  case alu => intro s t hs h; rw [aluStage_frame h]; exact hs
  case issue => intro s t hr hs h; rw [issueStage_frame hr h]; exact hs
  case fetch => intro s t hr hs h; rw [fetchStage_frame hr h]; exact hs
  case test => intro s hs; rw [terminationTest_frame]; exact hs

/-! ## Status (R44, R245, R350) -/

/-- `t` has the status of `s` or a fault's. -/
def KeepsStatusOrAborts (s t : State) : Prop := t.status = s.status ∨ ∃ f, t.status = .aborted f

theorem KeepsStatusOrAborts.aborted {s t : State} (h : KeepsStatusOrAborts s t) (hs : s.status = .running)
    (ht : t.status ≠ .running) : ∃ f, t.status = .aborted f :=
  h.resolve_left fun he => ht (he.trans hs)

theorem notAborted_of_running {s : State} (hs : s.status = .running) : NotAborted s :=
  fun _ hf => (nomatch hs.symm.trans hf)

theorem commitLane_status {q : QueueName} {s t : State} (h : commitLane q s = .next t) : KeepsStatusOrAborts s t := by
  rcases commitLane_cases h with ⟨-, rfl⟩ | ⟨e, es, -, ⟨-, rfl⟩ | ⟨d, v, -, -, rfl⟩⟩
  · exact .inl rfl
  · exact .inr ⟨_, rfl⟩
  · exact .inl (by simp)

theorem writebackStage_status {s t : State} (h : writebackStage s = .next t) : KeepsStatusOrAborts s t :=
  writebackStage_keeps (P := KeepsStatusOrAborts s) (fun _ u v _ hu hv => by
    rcases commitLane_status hv with he | ha
    · unfold KeepsStatusOrAborts
      rw [he]
      exact hu
    · exact .inr ha) (.inl rfl) h

theorem memStage_status {s t : State} (h : memStage s = .next t) : KeepsStatusOrAborts s t := by
  rcases memStage_cases h with ⟨-, rfl⟩ | ⟨e, es, -, ⟨f, rfl, -⟩ | ⟨a, -, -, -, rfl⟩ | ⟨a, -, -, -, -, rfl⟩⟩
  · exact .inl rfl
  · exact .inr ⟨f, rfl⟩
  · exact .inl rfl
  · exact .inl rfl

theorem aluStage_status {s t : State} (h : aluStage s = .next t) : KeepsStatusOrAborts s t := by
  rcases aluStage_cases h with ⟨-, rfl⟩ | ⟨e, es, -, ⟨f, rfl, -⟩ | ⟨-, -, rfl⟩ | ⟨-, -, -, rfl⟩⟩
  · exact .inl rfl
  · exact .inr ⟨f, rfl⟩
  · exact .inl rfl
  · exact .inl rfl

/-- Issue raises nothing. -/
theorem issueStage_status {s t : State} (hs : s.status = .running) (h : issueStage s = .next t) :
    t.status = s.status := by
  rw [issueStage_frame hs h]

theorem FetchRun.status {slots : List FetchSlot} {fd : Option RegIdx} {s t : State} (h : FetchRun slots fd s t) :
    KeepsStatusOrAborts s t := by
  induction h with
  | used | outside | full | wait | resolve => exact .inl rfl
  | fault => exact .inr ⟨_, rfl⟩
  | push _ _ _ _ _ ih => exact ih
  | pass _ _ _ _ ih => exact ih

/-- A cycle ends with a fault, or with what the termination test says of `pc`. -/
theorem CycleEnd.status {s t : State} (h : CycleEnd s t) (hs : s.status = .running) :
    (∃ f, t.status = .aborted f) ∨ (t.status = .running ∧ inExec t t.pc = true) ∨
      (t.status = .terminated ∧ inExec t t.pc = false) := by
  cases h with
  | writeback h1 n e => subst e; exact .inl ((writebackStage_status h1).aborted hs n)
  | mem _ r1 h2 n e => subst e; exact .inl ((memStage_status h2).aborted r1 n)
  | alu _ _ _ r2 h3 n e => subst e; exact .inl ((aluStage_status h3).aborted r2 n)
  | issue _ _ _ _ _ r3 h4 n e => exact absurd ((issueStage_status r3 h4).trans r3) n
  | fetch _ _ _ _ _ _ _ r4 h5 n e => subst e; exact .inl ((fetchStage_run r4 h5).status.aborted r4 n)
  | @complete _ _ _ _ b _ _ _ _ _ _ _ _ _ _ rb e =>
    subst e
    refine .inr ?_
    unfold terminationTest
    cases hin : inExec b b.pc
    · exact .inr ⟨rfl, hin⟩
    · exact .inl ⟨rb, hin⟩

theorem step_keeps_statusMatchesRegion {s t : State} (hs : StatusMatchesRegion s) (h : step s = .next t) :
    StatusMatchesRegion t := by
  rcases step_cases h with ⟨-, rfl⟩ | ⟨hr, u, hc, rfl⟩
  · exact hs
  · unfold StatusMatchesRegion
    simp only [rest_status, rest_pc]
    rcases hc.status hr with ⟨f, hf⟩ | ⟨hrun, hin⟩ | ⟨hterm, hout⟩
    · simp [hf]
    · exact ⟨fun _ => hin, fun ht => (nomatch hrun.symm.trans ht)⟩
    · exact ⟨fun ht => (nomatch hterm.symm.trans ht), fun _ => hout⟩

/-! ## One writer per register: the table against the records in flight (R38, R47) -/

/-- The records `rs` are the outstanding writers that table `t` names. -/
def WritersAre (rs : List Record) (t : ReservationTable) : Prop :=
  (rs.filterMap recordDest).Nodup ∧
    ∀ r a, slotOf t r = some a ↔ ∃ c ∈ rs, recordDest c = some r ∧ c.address = a

/-- The records of the entries in flight. -/
def writers (s : State) : List Record := (inFlight s).map Entry.record

theorem oneWriterPerRegister_iff {s : State} : OneWriterPerRegister s ↔ WritersAre (writers s) s.rrtn := by
  have hdests : (writers s).filterMap recordDest = (inFlight s).filterMap fun e => recordDest e.record := by
    simp [writers, List.filterMap_map]
  unfold OneWriterPerRegister WritersAre
  rw [hdests]
  constructor
  · rintro ⟨hnodup, hnamed, howner⟩
    refine ⟨hnodup, fun r a => ⟨fun h => ?_, ?_⟩⟩
    · obtain ⟨e, he, hd, ha⟩ := howner r a h
      exact ⟨e.record, List.mem_map_of_mem he, hd, ha⟩
    · rintro ⟨c, hc, hd, rfl⟩
      obtain ⟨e, he, rfl⟩ := List.mem_map.mp hc
      exact hnamed e he r hd
  · rintro ⟨hnodup, hslot⟩
    refine ⟨hnodup, fun e he r hd => (hslot r _).mpr ⟨e.record, List.mem_map_of_mem he, hd, rfl⟩, fun r a h => ?_⟩
    obtain ⟨c, hc, hd, ha⟩ := (hslot r a).mp h
    obtain ⟨e, he, rfl⟩ := List.mem_map.mp hc
    exact ⟨e, he, hd, ha⟩

theorem WritersAre.perm {rs rs' : List Record} {t : ReservationTable} (h : WritersAre rs t) (hp : rs.Perm rs') :
    WritersAre rs' t := by
  obtain ⟨hnodup, hslot⟩ := h
  exact ⟨(hp.filterMap recordDest).nodup_iff.mp hnodup, fun r a => by simp only [hslot, hp.mem_iff]⟩

/-- A writer that no slot names is not outstanding. -/
theorem WritersAre.dest_ne {rs : List Record} {t : ReservationTable} (h : WritersAre rs t) {d : RegIdx}
    (hfree : slotOf t d = none) {c : Record} (hc : c ∈ rs) : recordDest c ≠ some d := by
  intro hd
  have hnamed := (h.2 d c.address).mpr ⟨c, hc, hd, rfl⟩
  simp [hfree] at hnamed

/-- A record without a destination leaves. -/
theorem WritersAre.drop {c : Record} {rs : List Record} {t : ReservationTable} (h : WritersAre (c :: rs) t)
    (hc : recordDest c = none) : WritersAre rs t := by
  obtain ⟨hnodup, hslot⟩ := h
  exact ⟨by simpa [hc] using hnodup, fun r a => by simp [hslot, hc]⟩

/-- A writer leaves and its slot is released (R126, R231). -/
theorem WritersAre.release {c : Record} {rs : List Record} {s : State} {d : RegIdx}
    (h : WritersAre (c :: rs) s.rrtn) (hc : recordDest c = some d) : WritersAre rs (release d s).rrtn := by
  obtain ⟨hnodup, hslot⟩ := h
  simp only [List.filterMap_cons, hc, List.nodup_cons, List.mem_filterMap] at hnodup
  obtain ⟨hother, hnodup⟩ := hnodup
  refine ⟨hnodup, fun r a => ?_⟩
  by_cases hr : r = d
  · subst hr
    rw [slotOf_release_same]
    exact ⟨fun h => (nomatch h), fun ⟨c', hc', hd, _⟩ => absurd ⟨c', hc', hd⟩ hother⟩
  · rw [slotOf_release_ne s hr, hslot]
    simp [hc, Ne.symm hr]

/-- A writer of a register that no slot names arrives and its destination is reserved (R125, R193). -/
theorem WritersAre.reserveDest {c : Record} {rs : List Record} {s : State} (h : WritersAre rs s.rrtn)
    (hfree : ∀ d, recordDest c = some d → slotOf s.rrtn d = none) :
    WritersAre (c :: rs) (reserveDest (recordDest c) c.address s).rrtn := by
  have hother : ∀ d, recordDest c = some d → ∀ c' ∈ rs, recordDest c' ≠ some d :=
    fun d hd c' hc' => h.dest_ne (hfree d hd) hc'
  obtain ⟨hnodup, hslot⟩ := h
  cases hd : recordDest c with
  | none => exact ⟨by simpa [hd] using hnodup, fun r a => by simp [Machine.reserveDest, hslot, hd]⟩
  | some d =>
    refine ⟨?_, fun r a => ?_⟩
    · simpa [hd, hnodup] using hother d hd
    · by_cases hr : r = d
      · subst hr
        have hnone : ¬∃ c' ∈ rs, recordDest c' = some r ∧ c'.address = a :=
          fun ⟨c', hc', hd', _⟩ => hother r hd c' hc' hd'
        show slotOf (reserve r c.address s).rrtn r = some a ↔ _
        rw [slotOf_reserve_same]
        simp [hd, hnone]
      · show slotOf (reserve d c.address s).rrtn r = some a ↔ _
        rw [slotOf_reserve_ne _ s hr, hslot]
        simp [hd, Ne.symm hr]

/-! ## One writer per register: what each stage does to the records in flight -/

theorem writers_pop {q : QueueName} (hq : q ≠ .preIssue) {s : State} {e : Entry} {es : List Entry}
    (h : (queueOf s q).entries = e :: es) : (writers s).Perm (e.record :: writers (setEntries q es s)) := by
  suffices hperm : (inFlight s).Perm (e :: inFlight (setEntries q es s)) from hperm.map Entry.record
  refine List.perm_iff_count.mpr fun f => ?_
  cases q
  case preIssue => exact absurd rfl hq
  all_goals
    simp only [queueOf_preALU, queueOf_postALU, queueOf_preMEM, queueOf_postMEM] at h
    simp [inFlight, h, List.count_append, List.count_cons] <;> omega

theorem writers_push {q : QueueName} (hq : q ≠ .preIssue) (s : State) (e : Entry) :
    (e.record :: writers s).Perm (writers (setEntries q ((queueOf s q).entries ++ [e]) s)) := by
  suffices hperm : (e :: inFlight s).Perm (inFlight (setEntries q ((queueOf s q).entries ++ [e]) s)) from
    hperm.map Entry.record
  refine List.perm_iff_count.mpr fun f => ?_
  cases q
  case preIssue => exact absurd rfl hq
  all_goals
    simp [inFlight, List.count_append, List.count_cons]
    omega

/-- An entry that goes on to an empty queue stays in flight. -/
theorem writers_move {q p : QueueName} (hq : q ≠ .preIssue) (hp : p ≠ .preIssue) {s : State} {e : Entry}
    {es : List Entry} (hpop : (queueOf s q).entries = e :: es) (hroom : (queueOf (setEntries q es s) p).entries = [])
    (c : Option Word) : (writers s).Perm (writers (setEntries p [⟨e.record, c⟩] (setEntries q es s))) := by
  have hpush := writers_push hp (setEntries q es s) ⟨e.record, c⟩
  rw [hroom] at hpush
  exact (writers_pop hq hpop).trans hpush

/-- The writers in flight are those the table names, and since the snapshot no slot has been reserved. -/
def WritersSettled (s : State) : Prop :=
  WritersAre (writers s) s.rrtn ∧ ∀ r, slotOf s.rrtc r = none → slotOf s.rrtn r = none

theorem slotOf_release_of_none {d r : RegIdx} {s : State} (h : slotOf s.rrtn r = none) :
    slotOf (release d s).rrtn r = none := by
  by_cases hr : r = d
  · rw [hr, slotOf_release_same]
  · rw [slotOf_release_ne s hr, h]

theorem commitLane_writersSettled {q : QueueName} (hq : q ≠ .preIssue) {s t : State} (hs : WritersSettled s)
    (h : commitLane q s = .next t) (ht : NotAborted t) : WritersSettled t := by
  rcases commitLane_cases h with ⟨-, rfl⟩ | ⟨e, es, hes, ⟨-, rfl⟩ | ⟨d, v, hd, -, rfl⟩⟩
  · exact hs
  · exact absurd rfl (ht _)
  · obtain ⟨hwriters, hfree⟩ := hs
    have hpopped := hwriters.perm (writers_pop hq hes)
    refine ⟨WritersAre.release (c := e.record) (rs := writers (setEntries q es s)) (by simpa using hpopped) hd,
      fun r hr => ?_⟩
    refine slotOf_release_of_none ?_
    simp only [release_rrtc, writeReg_rrtc, writeReg_rrtn, activate_rrtc, activate_rrtn, setEntries_rrtc,
      setEntries_rrtn] at hr ⊢
    exact hfree r hr

theorem recordDest_of_store {r : Record} (h : recordIsStore r = true) : recordDest r = none := by
  obtain ⟨a, b⟩ := r
  cases b with
  | instr i => exact destOf_store h
  | data | unknown => rfl

theorem memStage_writersSettled {s t : State} (hs : WritersSettled s) (h : memStage s = .next t)
    (ht : NotAborted t) : WritersSettled t := by
  obtain ⟨hwriters, hfree⟩ := hs
  rcases memStage_cases h with
    ⟨-, rfl⟩ | ⟨e, es, hes, ⟨f, rfl, -⟩ | ⟨a, -, hstore, -, rfl⟩ | ⟨a, -, -, -, hroom, rfl⟩⟩
  · exact ⟨hwriters, hfree⟩
  · exact absurd rfl (ht f)
  · exact ⟨(hwriters.perm (writers_pop (q := .preMEM) (by decide) hes)).drop (recordDest_of_store hstore), hfree⟩
  · exact ⟨hwriters.perm (writers_move (q := .preMEM) (p := .postMEM) (by decide) (by decide) hes hroom _), hfree⟩

theorem aluStage_writersSettled {s t : State} (hs : WritersSettled s) (h : aluStage s = .next t)
    (ht : NotAborted t) : WritersSettled t := by
  obtain ⟨hwriters, hfree⟩ := hs
  rcases aluStage_cases h with
    ⟨-, rfl⟩ | ⟨e, es, hes, ⟨f, rfl, -⟩ | ⟨-, hroom, rfl⟩ | ⟨-, -, hroom, rfl⟩⟩
  · exact ⟨hwriters, hfree⟩
  · exact absurd rfl (ht f)
  · exact ⟨hwriters.perm (writers_move (q := .preALU) (p := .preMEM) (by decide) (by decide) hes hroom _), hfree⟩
  · exact ⟨hwriters.perm (writers_move (q := .preALU) (p := .postALU) (by decide) (by decide) hes hroom _), hfree⟩

/-- A candidate that may issue finds its destination free in the next-cycle table: the committed table had it free, and
the one record that may have gone before it in this scan writes another register (R171, R180). -/
theorem dest_free_of_mayIssue {s : State} {c : Record} {p issued : List Record}
    (hm : mayIssue s c p issued = true)
    (hsince : ∀ r, slotOf s.rrtc r = none → slotOf s.rrtn r = none ∨ ∃ c1 ∈ issued, recordDest c1 = some r)
    {d : RegIdx} (hd : recordDest c = some d) : slotOf s.rrtn d = none := by
  obtain ⟨hlen, -, hblocked, hpair⟩ := mayIssue_iff.mp hm
  obtain ⟨hwaw, -, -, -⟩ := issueBlocked_eq_false_iff.mp hblocked
  obtain ⟨hcommitted, -⟩ := waw_eq_false_iff.mp hwaw d hd
  refine (hsince d hcommitted).resolve_right ?_
  rintro ⟨c1, hc1, hd1⟩
  have hhead : issued.head? = some c1 := by
    match issued, hlen with
    | [], _ => cases hc1
    | [c2], _ => rw [List.mem_singleton.mp hc1]; rfl
  obtain ⟨hindep, -⟩ := pairConflict_eq_false_iff.mp (hpair c1 hhead)
  obtain ⟨hne, -⟩ := hindep d hd1
  exact hne hd

theorem afterIssue_writersAre {c : Record} {left : List Entry} {s : State} (h : WritersAre (writers s) s.rrtn)
    (hfree : ∀ d, recordDest c = some d → slotOf s.rrtn d = none) :
    WritersAre (writers (afterIssue c left s)) (afterIssue c left s).rrtn := by
  have hpushed : writers (afterIssue c left s) =
      writers (setEntries .preALU (s.preALU.entries ++ [⟨c, none⟩]) s) := by
    rw [afterIssue_frame]
    rfl
  rw [hpushed]
  exact (h.reserveDest (s := setEntries .preALU _ (activate c .issue (setEntries .preIssue left s))) hfree).perm
    (writers_push (q := .preALU) (by decide) s ⟨c, none⟩)

/-- A slot of the next-cycle table that was free is free after an issue, or reserved by the record that issued. -/
theorem slotOf_afterIssue {c : Record} {left : List Entry} {s : State} {r : RegIdx}
    (h : slotOf s.rrtn r = none) : slotOf (afterIssue c left s).rrtn r = none ∨ recordDest c = some r := by
  unfold afterIssue
  cases recordDest c with
  | none => exact .inl h
  | some d =>
    by_cases hr : r = d
    · exact .inr (by rw [hr])
    · exact .inl ((slotOf_reserve_ne _ _ hr).trans h)

theorem IssueRun.writersAre {left : List Entry} {issued : List Record} {s t : State} (h : IssueRun left issued s t)
    (hs : WritersAre (writers s) s.rrtn)
    (hsince : ∀ r, slotOf s.rrtc r = none → slotOf s.rrtn r = none ∨ ∃ c1 ∈ issued, recordDest c1 = some r) :
    WritersAre (writers t) t.rrtn := by
  induction h with
  | done => exact hs
  | @issue kept rest c issued s t hm _ ih =>
    refine ih (afterIssue_writersAre hs fun d hd => dest_free_of_mayIssue hm hsince hd) fun r hr => ?_
    rw [afterIssue_frame] at hr
    rcases hsince r hr with hnone | ⟨c1, hc1, hd1⟩
    · rcases slotOf_afterIssue hnone with hstill | hd
      · exact .inl hstill
      · exact .inr ⟨c.record, by simp, hd⟩
    · exact .inr ⟨c1, by simp [hc1], hd1⟩

theorem issueStage_writersAre {s t : State} (hr : s.status = .running) (hs : WritersSettled s)
    (h : issueStage s = .next t) : WritersAre (writers t) t.rrtn := by
  obtain ⟨hwriters, hfree⟩ := hs
  rcases issueStage_cases hr h with ⟨-, rfl⟩ | ⟨-, hrun⟩
  · exact hwriters
  · exact hrun.writersAre hwriters fun r hr => .inl (hfree r hr)

/-- One writer per register is a step invariant of machines that have not aborted: Writeback releases what it commits,
MEM and ALU move entries on, Issue reserves registers that no entry in flight writes, and Fetch touches none of it. -/
theorem step_keeps_oneWriterPerRegister {s t : State} (hs : OneWriterPerRegister s) (h : step s = .next t)
    (ht : NotAborted t) : OneWriterPerRegister t := by
  rcases step_cases h with ⟨-, rfl⟩ | ⟨hr, -⟩
  · exact hs
  rw [oneWriterPerRegister_iff] at hs ⊢
  refine step_establishes (P := fun u => NotAborted u → WritersSettled u)
    (Q := fun u => NotAborted u → WritersAre (writers u) u.rrtn)
    (R := fun u => NotAborted u → WritersAre (writers u) u.rrtn) ?writeback ?mem ?alu ?issue ?fetch
    (fun u hP hu => (hP hu).1) (fun _ h => h) (fun u st a hback hR hu => hR (hback hu)) hr h ht
  case writeback =>
    intro u h
    have hbegin : WritersSettled (beginCycle s) := ⟨hs, fun _ hr => hr⟩
    refine writebackStage_keeps (P := fun u => NotAborted u → WritersSettled u) ?_ (fun _ => hbegin) h
    intro q v w hq hv h hw
    refine commitLane_writersSettled hq (hv fun f hf => ?_) h hw
    rcases commitLane_status h with hst | ⟨g, hg⟩
    · exact hw f (hst.trans hf)
    · exact hw g hg
  case mem => exact fun u v hu hP h => memStage_writersSettled (hP (notAborted_of_running hu)) h
  case alu => exact fun u v hu hP h => aluStage_writersSettled (hP (notAborted_of_running hu)) h
  case issue => exact fun u v hu hP h _ => issueStage_writersAre hu (hP (notAborted_of_running hu)) h
  case fetch =>
    intro u v hu hQ h _
    rw [fetchStage_frame hu h]
    exact hQ (notAborted_of_running hu)

/-- Settles O51. Neither the capacities nor the classes are needed. -/
theorem oneOutstandingWriterIsKept : Obligations.OneOutstandingWriterIsKept :=
  fun _ _ _ _ hs h ht => step_keeps_oneWriterPerRegister hs h ht

/-! ## The whole invariant -/

theorem notAborted_of_step {s t : State} (h : step s = .next t) (ht : NotAborted t) :
    NotAborted s := by
  rcases step_cases h with ⟨-, rfl⟩ | ⟨hr, -⟩
  · exact ht
  · exact notAborted_of_running hr

/-- Settles O54: the eight parts of the invariant, each by the lemma on what a step does to it. -/
theorem everyStepKeepsTheInvariant : Obligations.EveryStepKeepsTheInvariant := by
  rintro s t ⟨hbounded, hclasses, hwriters, hloaded, haligned, hstall, hstatus, hmemory⟩ h
  obtain ⟨hloaded', haligned'⟩ := step_keeps_programLoaded_pcAligned ⟨hloaded, haligned⟩ h
  exact ⟨queueCapacitiesAreKept s t hbounded h, queueClassesAreKept s t hclasses h,
    fun ht => step_keeps_oneWriterPerRegister (hwriters (notAborted_of_step h ht)) h ht, hloaded', haligned',
    step_keeps_fetchStallConsistent hloaded haligned hstall h, step_keeps_statusMatchesRegion hstatus h,
    step_keeps_memoryInRegion hloaded.1 hmemory h⟩

/-! ## Destinations, sources and the commit of one instruction (R22, R27, R28, R231) -/

@[simp] theorem recordDest_instr (a : Word) (i : Instr) : recordDest ⟨a, .instr i⟩ = destOf i := rfl

@[simp] theorem recordSrcs_instr (a : Word) (i : Instr) : recordSrcs ⟨a, .instr i⟩ = srcsOf i := rfl

/-- Settles O6: the two tables, class by class. -/
theorem destinationAndSourcesOfEveryClass : Obligations.DestinationAndSourcesOfEveryClass := by
  refine ⟨fun a rd rs rt => ?register, fun a rs rt imm => ?immediate, fun a b rt o => ?memory,
    fun a rs rt o t v => ?other⟩
  case register => simp [destOf, srcsOf]
  case immediate => simp [destOf, srcsOf]
  case memory => exact ⟨rfl, rfl, rfl, rfl⟩
  case other => exact ⟨rfl, rfl, rfl, rfl, rfl, rfl, rfl, rfl, rfl, rfl, rfl, rfl⟩

/-- Settles O19: a commit is a register write followed by a release, and register 0 is no exception to either (R22). -/
theorem writebackCommitsAnyDestination : Obligations.WritebackCommitsAnyDestination := by
  intro s i d v hphase hdest
  have hexec : exec i s = .next (release d (writeReg d v s)) := by
    rw [exec_writeback hphase, hdest]
    rfl
  refine ⟨_, hexec, readReg_writeReg_same d v s, fun r hr => readReg_writeReg_ne v s hr, slotOf_release_same d _,
    fun r hr => slotOf_release_ne (writeReg d v s) hr, rfl⟩

end Sys2Proof.Machine
end

section
/-!
PROOFS. Data memory (O7, O8, O24, O48, O53, O60). The layer underneath says what the four bytes of a word written read
as, what SW and LW do at a valid and at any other address, and that behind MEM no stage of a cycle touches data memory.
-/

open Sys2Proof Sys2Proof.Machine Sys2Proof.Statements
open Host (Outcome)

namespace Sys2Proof.Machine

/-! ## A word of data memory and its four bytes (R63, log 1) -/

theorem Memory.readByte_writeWord_ne (m : Memory) {a b : Nat} (v : Word) (h : b < a ∨ a + 4 ≤ b) :
    Memory.readByte (Memory.writeWord m a v) b = Memory.readByte m b := by
  unfold Memory.writeWord
  simp (disch := omega) only [Memory.readByte_writeByte_ne]

/-- Byte `k` of a word written holds bits `8*k` to `8*k + 7` (log 1). -/
theorem Memory.readByte_writeWord_lane {m : Memory} (h : Memory.wf m = true) (a : Nat) (v : Word) {k : Nat}
    (hk : k < 4) :
    Memory.readByte (Memory.writeWord m a v) (a + k) = v.extractLsb' (8 * k) 8 := by
  have h0 := Memory.wf_writeByte h a (v.extractLsb' 0 8)
  have h1 := Memory.wf_writeByte h0 (a + 1) (v.extractLsb' 8 8)
  have h2 := Memory.wf_writeByte h1 (a + 2) (v.extractLsb' 16 8)
  unfold Memory.writeWord
  interval_cases k <;> simp (disch := omega) only [Memory.readByte_writeByte_ne, Memory.readByte_writeByte_same h,
    Memory.readByte_writeByte_same h0, Memory.readByte_writeByte_same h1, Memory.readByte_writeByte_same h2,
    Nat.add_zero, Nat.mul_zero]

/-- A word is its four bytes, the highest first. -/
theorem append_bytes (v : Word) :
    v.extractLsb' 24 8 ++ v.extractLsb' 16 8 ++ v.extractLsb' 8 8 ++ v.extractLsb' 0 8 = v := by
  rw [BitVec.extractLsb'_append_extractLsb'_eq_extractLsb' (rfl : 24 = 16 + 8),
    BitVec.extractLsb'_append_extractLsb'_eq_extractLsb' (rfl : 16 = 8 + 8),
    BitVec.extractLsb'_append_extractLsb'_eq_extractLsb' (rfl : 8 = 0 + 8)]
  exact BitVec.extractLsb'_eq_self

theorem Memory.readWord_writeWord_same {m : Memory} (h : Memory.wf m = true) (a : Nat) (v : Word) :
    Memory.readWord (Memory.writeWord m a v) a = v := by
  have hbyte := fun k (hk : k < 4) => Memory.readByte_writeWord_lane h a v hk
  have hlow : Memory.readByte (Memory.writeWord m a v) a = v.extractLsb' 0 8 := hbyte 0 (by decide)
  unfold Memory.readWord
  rw [hbyte 3 (by decide), hbyte 2 (by decide), hbyte 1 (by decide), hlow]
  exact append_bytes v

theorem Memory.readWord_writeWord_apart (m : Memory) {a b : Nat} (v : Word) (h : b + 4 ≤ a ∨ a + 4 ≤ b) :
    Memory.readWord (Memory.writeWord m a v) b = Memory.readWord m b := by
  unfold Memory.readWord
  simp (disch := omega) only [Memory.readByte_writeWord_ne]

/-- Settles O7: the word law is the four byte laws put together. -/
theorem wordWriteReadsBackAndLeavesOtherBytes : Obligations.WordWriteReadsBackAndLeavesOtherBytes := fun m a v h =>
  ⟨Memory.readWord_writeWord_same h a v, Memory.wf_writeWord h a v, fun _ => Memory.readByte_writeWord_ne m v⟩

/-! ## `MemRead` and `MemWrite` at a valid and at any other address (R64 to R66) -/

theorem memRead_of_validData {s : State} {a : Word} (h : validData s a = true) :
    memRead a s = .ok (Memory.readWord s.mem a.toNat) := if_pos h

theorem memRead_of_not_validData {s : State} {a : Word} (h : validData s a = false) :
    memRead a s = .error (.dataAddressFault a) := by simp [memRead, h]

theorem memWrite_of_validData {s : State} {a : Word} (v : Word) (h : validData s a = true) :
    memWrite a v s = { s with mem := Memory.writeWord s.mem a.toNat v } := if_pos h

theorem memWrite_of_not_validData {s : State} {a : Word} (v : Word) (h : validData s a = false) :
    memWrite a v s = aborted (.dataAddressFault a) s := by simp [memWrite, h, raiseFault, aborted]

/-- The word number of a valid address leads back to the address, since `DATA_BASE` is a multiple of 4. -/
theorem dataBase_add_wordIndex {s : State} (hbase : s.instrBase.toNat % 4 = 0) {a : Word} (h : validData s a = true) :
    dataBase s + 4 * ((a.toNat - dataBase s) / 4) = a.toNat := by
  obtain ⟨halign, hfrom, -⟩ := validData_iff.mp h
  unfold dataBase at *
  omega

theorem dmemWord_withMemory (s : State) (m : Memory) (j : Nat) :
    dmemWord { s with mem := m } j = Memory.readWord m (dataBase s + 4 * j) := rfl

/-- Settles O8: two different words of DMEM share no byte. -/
theorem memReadAndMemWriteReachOneWord : Obligations.MemReadAndMemWriteReachOneWord := by
  intro s a v hwf hbase
  refine ⟨fun ha => ?valid, fun ha => ?invalid⟩
  case valid =>
    have hv := validData_iff.mpr ha
    have hindex := dataBase_add_wordIndex hbase hv
    refine ⟨?_, _, memWrite_of_validData v hv, ?_, fun j hj => ?_⟩
    · rw [memRead_of_validData hv, dmemWord, hindex]
    · rw [dmemWord_withMemory, hindex]
      exact Memory.readWord_writeWord_same hwf _ v
    · rw [dmemWord_withMemory]
      exact Memory.readWord_writeWord_apart s.mem v (by omega)
  case invalid =>
    have hv : validData s a = false := Bool.eq_false_iff.mpr fun hv => ha (validData_iff.mp hv)
    exact ⟨memRead_of_not_validData hv, memWrite_of_not_validData v hv⟩

/-! ## SW and LW in the stages that touch an address (R213, R221, R222) -/

theorem exec_sw_mem {s : State} {a : Word} (b rt : RegIdx) (o : Imm) (hp : s.active.phase = .mem (some a)) :
    exec (.sw b rt o) s = .next (memWrite a (readReg s rt) s) := by
  simp only [exec, execSw, store, hp]

/-- LW takes the fault of an address it may not read. -/
theorem exec_lw_mem_of_not_validData {s : State} {a : Word} (b rt : RegIdx) (o : Imm)
    (hp : s.active.phase = .mem (some a)) (ha : validData s a = false) :
    exec (.lw b rt o) s = .next (aborted (.dataAddressFault a) s) := by
  simp only [exec, execLw, load, hp, memRead_of_not_validData ha]
  rfl

/-- The ALU moves a memory instruction on without looking at its address (R213). -/
theorem exec_alu_memory {i : Instr} {s : State} (hp : s.active.phase = .alu) (hm : (isStore i || isLoad i) = true) :
    exec i s = .next (push .preMEM
      ⟨activeRecord (.instr i) s, some (recordAluOutput s (activeRecord (.instr i) s))⟩ s) := by
  rcases exec_alu hp with ⟨hc, -⟩ | ⟨-, he⟩ | ⟨-, hn, -⟩
  · have hnc : isControl i = false := (Bool.or_eq_true_iff.mp hm).elim isControl_store isControl_load
    cases hnc.symm.trans hc
  · exact he
  · cases hn.symm.trans hm

/-- Settles O24: the address is tested in MEM, and nowhere in the ALU. -/
theorem invalidAddressFaultsInTheMemStage : Obligations.InvalidAddressFaultsInTheMemStage := by
  intro s b rt o a
  refine ⟨validData_iff, fun hp ha => ⟨?store, exec_lw_mem_of_not_validData b rt o hp ha⟩, fun hp hroom i hi => ?alu⟩
  case store => rw [exec_sw_mem b rt o hp, memWrite_of_not_validData _ ha]
  case alu =>
    have hm : (isStore i || isLoad i) = true := by
      rcases List.mem_pair.mp hi with rfl | rfl <;> rfl
    refine ⟨_, exec_alu_memory hp hm, ?_⟩
    rw [push_of_room (by simp [hroom]), setEntries_status]

/-! ## Data memory over a step (R61, R62, R68, R72) -/

/-- Settles O53: the invariant's part on data memory needs the aligned base and nothing else of the invariant. -/
theorem dataMemoryStaysInItsRegion : Obligations.DataMemoryStaysInItsRegion := fun _ _ hbase hs h =>
  step_keeps_memoryInRegion hbase hs h

/-- `t` has the registers, the data memory and the regions of `s`. -/
def SameData (s t : State) : Prop := t.x = s.x ∧ t.mem = s.mem ∧ t.instrBase = s.instrBase ∧ t.imem = s.imem

theorem SameData.refl (s : State) : SameData s s := ⟨rfl, rfl, rfl, rfl⟩

theorem SameData.trans {s t u : State} (h : SameData s t) (h' : SameData t u) : SameData s u := by
  obtain ⟨hx, hmem, hbase, himem⟩ := h
  obtain ⟨hx', hmem', hbase', himem'⟩ := h'
  exact ⟨hx'.trans hx, hmem'.trans hmem, hbase'.trans hbase, himem'.trans himem⟩

theorem SameData.mem {s t : State} (h : SameData s t) : t.mem = s.mem := by
  obtain ⟨-, hmem, -, -⟩ := h
  exact hmem

theorem SameData.validData {s t : State} (h : SameData s t) (a : Word) : validData t a = validData s a := by
  obtain ⟨-, -, hbase, himem⟩ := h
  unfold Machine.validData dataBase ndata
  rw [hbase, himem]

theorem SameData.readReg {s t : State} (h : SameData s t) (r : RegIdx) : readReg t r = readReg s r := by
  obtain ⟨hx, -, -, -⟩ := h
  simp [Machine.readReg, hx]

theorem aluStage_sameData {s t : State} (h : aluStage s = .next t) : SameData s t := by
  rw [aluStage_frame h]
  exact .refl _

theorem issueStage_sameData {s t : State} (hs : s.status = .running) (h : issueStage s = .next t) : SameData s t := by
  rw [issueStage_frame hs h]
  exact .refl _

theorem fetchStage_sameData {s t : State} (hs : s.status = .running) (h : fetchStage s = .next t) : SameData s t := by
  rw [fetchStage_frame hs h]
  exact .refl _

theorem terminationTest_sameData (s : State) : SameData s (terminationTest s) := by
  rw [terminationTest_frame]
  exact .refl _

/-- What a cycle leaves in the registers and in data memory is what MEM left there, or Writeback if it raised. -/
theorem CycleEnd.sameData_memStage {s t : State} (h : CycleEnd s t) :
    ∃ u, writebackStage (beginCycle s) = .next u ∧
      ((u.status ≠ .running ∧ t = u) ∨ (u.status = .running ∧ ∃ v, memStage u = .next v ∧ SameData v t)) := by
  cases h with
  | writeback h1 n1 e => exact ⟨_, h1, .inl ⟨n1, e⟩⟩
  | mem h1 r1 h2 _ e => exact ⟨_, h1, .inr ⟨r1, _, h2, e ▸ .refl _⟩⟩
  | alu h1 r1 h2 r2 h3 _ e => exact ⟨_, h1, .inr ⟨r1, _, h2, e ▸ aluStage_sameData h3⟩⟩
  | issue h1 r1 h2 r2 h3 r3 h4 _ e =>
    exact ⟨_, h1, .inr ⟨r1, _, h2, e ▸ (aluStage_sameData h3).trans (issueStage_sameData r3 h4)⟩⟩
  | fetch h1 r1 h2 r2 h3 r3 h4 r4 h5 _ e =>
    have hissue := (aluStage_sameData h3).trans (issueStage_sameData r3 h4)
    exact ⟨_, h1, .inr ⟨r1, _, h2, e ▸ hissue.trans (fetchStage_sameData r4 h5)⟩⟩
  | complete h1 r1 h2 r2 h3 r3 h4 r4 h5 _ e =>
    have hissue := (aluStage_sameData h3).trans (issueStage_sameData r3 h4)
    have hfetch := hissue.trans (fetchStage_sameData r4 h5)
    exact ⟨_, h1, .inr ⟨r1, _, h2, e ▸ hfetch.trans (terminationTest_sameData _)⟩⟩

/-- What MEM works on is as it stood when the cycle began: data memory, PreMEM and the valid addresses. -/
theorem writebackStage_keeps_memInput {s u : State} (h : writebackStage (beginCycle s) = .next u) :
    u.mem = s.mem ∧ u.preMEM.entries = s.preMEM.entries ∧ ∀ a, validData u a = validData s a := by
  rw [writebackStage_frame h]
  exact ⟨rfl, rfl, fun _ => rfl⟩

/-- MEM writes data memory only for an SW at the head of PreMEM, at its cached address, which is valid. -/
theorem memStage_mem_cases {s t : State} (h : memStage s = .next t) :
    t.mem = s.mem ∨ ∃ e a, s.preMEM.entries.head? = some e ∧ recordIsStore e.record = true ∧ e.cached = some a ∧
      validData s a = true ∧ t.mem = Memory.writeWord s.mem a.toNat (recordStoreData s e.record) := by
  rcases memStage_cases h with ⟨-, rfl⟩ | ⟨e, es, hq, ⟨f, rfl, -⟩ | ⟨a, hc, hst, ha, rfl⟩ | ⟨a, -, -, -, -, rfl⟩⟩
  · exact .inl rfl
  · exact .inl rfl
  · exact .inr ⟨e, a, by rw [hq]; rfl, hst, hc, ha, rfl⟩
  · exact .inl rfl

/-- Settles O48: of all stages only MEM writes data memory, and it finds PreMEM and data memory as the cycle began. -/
theorem onlyTheStoreAtMemChangesMemory : Obligations.OnlyTheStoreAtMemChangesMemory := by
  intro s t n h hne
  rcases step_cases h with ⟨-, rfl⟩ | ⟨-, w, hcycle, rfl⟩
  · exact absurd rfl hne
  change Memory.readByte w.mem n ≠ Memory.readByte s.mem n at hne
  obtain ⟨u, hu, hcase⟩ := hcycle.sameData_memStage
  obtain ⟨humem, huq, huvalid⟩ := writebackStage_keeps_memInput hu
  rcases hcase with ⟨-, rfl⟩ | ⟨-, v, hv, -, hvmem, -, -⟩
  · exact absurd (by rw [humem]) hne
  rw [hvmem, ← humem] at hne
  rcases memStage_mem_cases hv with hsame | ⟨e, a, he, hst, hc, ha, hwrite⟩
  · exact absurd (by rw [hsame]) hne
  refine ⟨e, a, huq ▸ he, hst, hc, huvalid a ▸ ha, ?_⟩
  by_contra hout
  rw [hwrite] at hne
  exact hne (Memory.readByte_writeWord_ne u.mem _ (by omega))

/-! ## A store is performed in its MEM cycle (R216, R221) -/

theorem recordDest_of_load {r : Record} (h : recordIsLoad r = true) : (recordDest r).isSome = true := by
  obtain ⟨a, b⟩ := r
  cases b with
  | instr i => cases i with
    | lw => rfl
    | _ => cases h
  | data | unknown => cases h

/-- Writeback raises nothing on the entries that PostMEM and PostALU may hold: each has a destination and a result. -/
theorem commitLane_status_of_fits {q : QueueName} (hq : q = .postMEM ∨ q = .postALU) {s t : State}
    (hs : EachQueue (fun q es => ∀ e ∈ es, entryFits q e) s) (h : commitLane q s = .next t) : t.status = s.status := by
  rcases commitLane_cases h with ⟨-, rfl⟩ | ⟨e, es, hes, ⟨hno, -⟩ | ⟨d, v, -, -, rfl⟩⟩
  · rfl
  · have hfits : entryFits q e := hs q e (by simp [hes])
    have hboth : (recordDest e.record).isSome = true ∧ e.cached.isSome = true := by
      rcases hq with rfl | rfl
      · obtain ⟨hl, hc⟩ := hfits
        exact ⟨recordDest_of_load hl, hc⟩
      · obtain ⟨hd, -, hc⟩ := hfits
        exact ⟨hd, hc⟩
    rcases hno with hno | hno <;> simp [hno] at hboth
  · simp [activate]

theorem writebackStage_status_of_fits {s t : State} (hs : EachQueue (fun q es => ∀ e ∈ es, entryFits q e) s)
    (h : writebackStage s = .next t) : t.status = s.status := by
  obtain ⟨u, hu, ⟨-, ht⟩ | ⟨-, rfl⟩⟩ := thenIfRunning_cases h
  · exact (commitLane_status_of_fits (.inr rfl) (hs.commitLane entryFits_survivesMoves hu) ht).trans
      (commitLane_status_of_fits (.inl rfl) hs hu)
  · exact commitLane_status_of_fits (.inl rfl) hs hu

/-- MEM performs an SW at the head of PreMEM, with its data register read now. -/
theorem memStage_of_store {s t : State} {a ea : Word} {b rt : RegIdx} {o : Imm} {es : List Entry}
    (hq : s.preMEM.entries = ⟨⟨a, .instr (.sw b rt o)⟩, some ea⟩ :: es) (ha : validData s ea = true)
    (h : memStage s = .next t) :
    SameData { s with mem := Memory.writeWord s.mem ea.toNat (readReg s rt) } t := by
  have hvalid : validData (activate ⟨a, .instr (.sw b rt o)⟩ (.mem (some ea)) (setEntries .preMEM es s)) ea = true :=
    ha
  unfold memStage at h
  rw [pop_of_cons (q := .preMEM) hq] at h
  have hexec := h.symm.trans (exec_sw_mem b rt o rfl)
  rw [memWrite_of_validData _ hvalid] at hexec
  obtain rfl := Outcome.next.inj hexec
  exact .refl _

/-- Settles O60. The classes of the queues keep Writeback from raising, so MEM runs; behind it neither the word nor the
register changes. -/
theorem storeReachesMemoryInOneCycle : Obligations.StoreReachesMemoryInOneCycle := by
  rintro s t a ea b rt o es ⟨-, hclasses, -, -, -, -, -, hwf, -⟩ hrun hq ha h
  rcases step_cases h with ⟨hn, -⟩ | ⟨-, w, hcycle, rfl⟩
  · exact absurd hrun hn
  obtain ⟨u, hu, hcase⟩ := hcycle.sameData_memStage
  obtain ⟨humem, huq, huvalid⟩ := writebackStage_keeps_memInput hu
  have hbegin : QueuesHoldTheirClasses (beginCycle s) := hclasses
  have hurun := (writebackStage_status_of_fits (queuesHoldTheirClasses_iff.mp hbegin) hu).trans hrun
  rcases hcase with ⟨hno, -⟩ | ⟨-, v, hv, hvw⟩
  · exact absurd hurun hno
  have hdata := (memStage_of_store (huq.trans hq) ((huvalid ea).trans ha) hv).trans hvw
  have hmem : w.mem = Memory.writeWord s.mem ea.toNat (readReg u rt) := by rw [← humem]; exact hdata.mem
  have hvalid : validData (rest w) ea = true := (hdata.validData ea).trans ((huvalid ea).trans ha)
  rw [memRead_of_validData hvalid, rest_mem, hmem]
  refine ⟨?_, fun n => Memory.readByte_writeWord_ne s.mem _⟩
  rw [Memory.readWord_writeWord_same hwf]
  exact congrArg _ (hdata.readReg rt).symm

end Sys2Proof.Machine
end

section
/-!
PROOFS. The default decoder and its encoder (O1 to O5). The layer underneath says which fields the formats of R86 to R94
put where, what `decode` answers on a word of each format, and that words equal under a mask have equal fields there.
-/

open Sys2Proof Sys2Proof.Machine Sys2Proof.Statements

namespace Sys2Proof.Machine

/-! ## The fields of a word (R15) -/

/-- The six bits above the body of a category 1 word are its category and its opcode (R86). -/
theorem field_category_opcode {w : Word} {cat op : BitVec 3} (h : field w 26 6 = cat ++ op) :
    field w 29 3 = cat ∧ field w 26 3 = op := by
  have hcat : field w 29 3 = (field w 26 6).extractLsb' 3 3 := by
    ext i hi
    simp [field, show 3 + i < 6 by omega, ← Nat.add_assoc]
  have hop : field w 26 3 = (field w 26 6).extractLsb' 0 3 := by
    ext i hi
    simp [field, show i < 6 by omega]
  rw [hcat, hop, h]
  exact ⟨BitVec.extractLsb'_append_eq_left, BitVec.extractLsb'_append_eq_right⟩

/-- Words that agree under a mask have the same value in a field the mask covers. -/
theorem field_eq_of_masked {v w m : Word} (h : v &&& m = w &&& m) {lo n : Nat}
    (hm : field m lo n = BitVec.allOnes n) : field v lo n = field w lo n := by
  have key : ∀ u : Word, field (u &&& m) lo n = field u lo n := fun u => by
    rw [field, BitVec.extractLsb'_and, ← field, ← field, hm, BitVec.and_allOnes]
  rw [← key v, h, key w]

/-! ## The formats of R86 to R94 -/

/-- Category 1 with its 26-bit body as a whole, as J and BREAK have it (R87, R90). -/
def bodyWord (op : BitVec 3) (body : BitVec 26) : Word := 0b000#3 ++ op ++ body

/-- Category 2 with any value in the bits the decoder ignores (R93, R97). -/
def registerWord (op : BitVec 3) (rd rs rt : RegIdx) (ignored : BitVec 11) : Word :=
  0b110#3 ++ rs ++ rt ++ op ++ rd ++ ignored

/-- The encoder writes the ignored bits of category 2 as zero (R97). -/
theorem encodeRegister_eq (op : BitVec 3) (rd rs rt : RegIdx) :
    encodeRegister op rd rs rt = registerWord op rd rs rt 0#11 := rfl

@[simp] theorem field_bodyWord (op : BitVec 3) (body : BitVec 26) :
    field (bodyWord op body) 29 3 = 0b000#3 ∧ field (bodyWord op body) 26 3 = op ∧
      field (bodyWord op body) 0 26 = body := by
  simp [field, bodyWord, BitVec.extractLsb'_append_eq_of_le (w := 26), BitVec.extractLsb'_append_eq_of_le (w := 3),
    BitVec.extractLsb'_append_eq_right (w' := 3), BitVec.extractLsb'_append_eq_right (w' := 26)]

@[simp] theorem field_encodeRegRegOffset (op : BitVec 3) (r25 r20 : RegIdx) (o : Imm) :
    field (encodeRegRegOffset op r25 r20 o) 29 3 = 0b000#3 ∧ field (encodeRegRegOffset op r25 r20 o) 26 3 = op ∧
      field (encodeRegRegOffset op r25 r20 o) 21 5 = r25 ∧ field (encodeRegRegOffset op r25 r20 o) 16 5 = r20 ∧
      field (encodeRegRegOffset op r25 r20 o) 0 16 = o := by
  simp [field, encodeRegRegOffset, BitVec.extractLsb'_append_eq_of_le (w := 16),
    BitVec.extractLsb'_append_eq_of_le (w := 5), BitVec.extractLsb'_append_eq_of_le (w := 3),
    BitVec.extractLsb'_append_eq_right (w' := 3), BitVec.extractLsb'_append_eq_right (w' := 5),
    BitVec.extractLsb'_append_eq_right (w' := 16)]

@[simp] theorem field_registerWord (op : BitVec 3) (rd rs rt : RegIdx) (ignored : BitVec 11) :
    field (registerWord op rd rs rt ignored) 29 3 = 0b110#3 ∧ field (registerWord op rd rs rt ignored) 24 5 = rs ∧
      field (registerWord op rd rs rt ignored) 19 5 = rt ∧ field (registerWord op rd rs rt ignored) 16 3 = op ∧
      field (registerWord op rd rs rt ignored) 11 5 = rd := by
  simp [field, registerWord, BitVec.extractLsb'_append_eq_of_le (w := 11),
    BitVec.extractLsb'_append_eq_of_le (w := 5), BitVec.extractLsb'_append_eq_of_le (w := 3),
    BitVec.extractLsb'_append_eq_right (w' := 3), BitVec.extractLsb'_append_eq_right (w' := 5)]

@[simp] theorem field_encodeImmediate (op : BitVec 3) (rs rt : RegIdx) (imm : Imm) :
    field (encodeImmediate op rs rt imm) 29 3 = 0b111#3 ∧ field (encodeImmediate op rs rt imm) 24 5 = rs ∧
      field (encodeImmediate op rs rt imm) 19 5 = rt ∧ field (encodeImmediate op rs rt imm) 16 3 = op ∧
      field (encodeImmediate op rs rt imm) 0 16 = imm := by
  simp [field, encodeImmediate, BitVec.extractLsb'_append_eq_of_le (w := 16),
    BitVec.extractLsb'_append_eq_of_le (w := 5), BitVec.extractLsb'_append_eq_of_le (w := 3),
    BitVec.extractLsb'_append_eq_right (w' := 3), BitVec.extractLsb'_append_eq_right (w' := 5),
    BitVec.extractLsb'_append_eq_right (w' := 16)]

/-! ## What `decode` answers on a word of each format -/

/-- The category selects the row of the table (R85). -/
theorem decode_category1 {w : Word} (h : field w 29 3 = 0b000#3) : decode w = decodeCategory1 w := by
  simp [decode, h]

theorem decode_category2 {w : Word} (h : field w 29 3 = 0b110#3) : decode w = decodeCategory2 w := by
  simp [decode, h]

theorem decode_category3 {w : Word} (h : field w 29 3 = 0b111#3) : decode w = decodeCategory3 w := by
  simp [decode, h]

theorem decode_bodyWord_j (t : Target) : decode (bodyWord 0b000#3 t) = .ok (.j t) := by
  rw [decode_category1 (by simp)]
  simp [decodeCategory1]

/-- R89: every word with BGTZ's six high bits, whatever its ignored bits. -/
theorem decode_bgtz {w : Word} (h : field w 26 6 = 0b000#3 ++ 0b100#3) :
    decode w = .ok (.bgtz (field w 21 5) (field w 0 16)) := by
  obtain ⟨hcat, hop⟩ := field_category_opcode h
  rw [decode_category1 hcat]
  simp [decodeCategory1, hop]

/-- R90: every word with BREAK's six high bits. -/
theorem decode_brk {w : Word} (h : field w 26 6 = 0b000#3 ++ 0b101#3) : decode w = .ok .brk := by
  obtain ⟨hcat, hop⟩ := field_category_opcode h
  rw [decode_category1 hcat]
  simp [decodeCategory1, hop]

/-- R88, R89, R91 and R92; BGTZ at every value of its ignored field. -/
theorem decode_encodeRegRegOffset (r25 r20 : RegIdx) (o : Imm) :
    decode (encodeRegRegOffset 0b010#3 r25 r20 o) = .ok (.beq r25 r20 o) ∧
    decode (encodeRegRegOffset 0b100#3 r25 r20 o) = .ok (.bgtz r25 o) ∧
    decode (encodeRegRegOffset 0b110#3 r25 r20 o) = .ok (.sw r25 r20 o) ∧
    decode (encodeRegRegOffset 0b111#3 r25 r20 o) = .ok (.lw r25 r20 o) := by
  simp [decode_category1, decodeCategory1]

/-- R93, row by row. -/
theorem decode_registerWord (rd rs rt : RegIdx) (ignored : BitVec 11) :
    decode (registerWord 0b000#3 rd rs rt ignored) = .ok (.add rd rs rt) ∧
    decode (registerWord 0b001#3 rd rs rt ignored) = .ok (.sub rd rs rt) ∧
    decode (registerWord 0b010#3 rd rs rt ignored) = .ok (.mul rd rs rt) ∧
    decode (registerWord 0b011#3 rd rs rt ignored) = .ok (.and rd rs rt) ∧
    decode (registerWord 0b100#3 rd rs rt ignored) = .ok (.or rd rs rt) ∧
    decode (registerWord 0b101#3 rd rs rt ignored) = .ok (.xor rd rs rt) ∧
    decode (registerWord 0b110#3 rd rs rt ignored) = .ok (.nor rd rs rt) ∧
    decode (registerWord 0b111#3 rd rs rt ignored) = .error (.opcode2 0b111#3) := by
  simp [decode_category2, decodeCategory2]

/-- R94, row by row. -/
theorem decode_encodeImmediate (rs rt : RegIdx) (imm : Imm) :
    decode (encodeImmediate 0b000#3 rs rt imm) = .ok (.addi rs rt imm) ∧
    decode (encodeImmediate 0b001#3 rs rt imm) = .ok (.andi rs rt imm) ∧
    decode (encodeImmediate 0b010#3 rs rt imm) = .ok (.ori rs rt imm) ∧
    decode (encodeImmediate 0b011#3 rs rt imm) = .ok (.xori rs rt imm) ∧
    decode (encodeImmediate 0b100#3 rs rt imm) = .error (.opcode3 0b100#3) ∧
    decode (encodeImmediate 0b101#3 rs rt imm) = .error (.opcode3 0b101#3) ∧
    decode (encodeImmediate 0b110#3 rs rt imm) = .error (.opcode3 0b110#3) ∧
    decode (encodeImmediate 0b111#3 rs rt imm) = .error (.opcode3 0b111#3) := by
  simp [decode_category3, decodeCategory3]

/-- Settles O4: each format's encoder writes the fields where the decoder's row for that opcode reads them. -/
theorem decodeEncodeRoundTrip : Obligations.DecodeEncodeRoundTrip := by
  intro i
  cases i with
  | j t => exact decode_bodyWord_j t
  | brk => exact decode_brk rfl
  | beq | bgtz | sw | lw => simp [encode, decode_encodeRegRegOffset]
  | add | sub | mul | and | or | xor | nor => simp [encode, encodeRegister_eq, decode_registerWord]
  | addi | andi | ori | xori => simp [encode, decode_encodeImmediate]

/-- Settles O5: each worked word is the encoding of its instruction, which decodes back. -/
theorem workedEncodingsDecode : Obligations.WorkedEncodingsDecode :=
  ⟨decodeEncodeRoundTrip (.add 1 2 3), decodeEncodeRoundTrip (.addi 1 0 152), decodeEncodeRoundTrip (.sw 1 3 0),
    decodeEncodeRoundTrip (.lw 2 4 0), decodeEncodeRoundTrip (.beq 1 2 2), decodeEncodeRoundTrip (.bgtz 1 1),
    decodeEncodeRoundTrip (.j 36), decodeEncodeRoundTrip .brk⟩

/-! ## The record of a word (R82 to R84) -/

theorem decodeRecord_of_ok {w : Word} {i : Instr} (h : decode w = .ok i) (a : Word) :
    decodeRecord w a = ⟨a, .instr i⟩ := by
  simp [decodeRecord, h]

theorem decodeRecord_of_error {w : Word} {e : Undecodable} (h : decode w = .error e) (a : Word) :
    decodeRecord w a = ⟨a, .unknown⟩ := by
  simp [decodeRecord, h]

/-- Settles O1: each clause is the row of its format, the categories 2 and 3 with their UNKNOWN rows. -/
theorem encodingsDecodeAsTabled : Obligations.EncodingsDecodeAsTabled := by
  refine ⟨fun a t => decodeRecord_of_ok (decode_bodyWord_j t) a, fun a rs rt o => ?beq, fun a rs ignored o => ?bgtz,
    fun a ignored => ?brk, rfl, fun a b rt o => ?sw, fun a b rt o => ?lw, fun a rs rt rd ignored => ?register,
    fun a rs rt imm => ?immediate⟩
  case beq =>
    obtain ⟨hbeq, -, -, -⟩ := decode_encodeRegRegOffset rs rt o
    exact decodeRecord_of_ok hbeq a
  case bgtz =>
    obtain ⟨-, hbgtz, -, -⟩ := decode_encodeRegRegOffset rs ignored o
    exact decodeRecord_of_ok hbgtz a
  case brk =>
    exact decodeRecord_of_ok (decode_brk (w := bodyWord 0b101#3 ignored) BitVec.extractLsb'_append_eq_left) a
  case sw =>
    obtain ⟨-, -, hsw, -⟩ := decode_encodeRegRegOffset b rt o
    exact decodeRecord_of_ok hsw a
  case lw =>
    obtain ⟨-, -, -, hlw⟩ := decode_encodeRegRegOffset b rt o
    exact decodeRecord_of_ok hlw a
  case register =>
    obtain ⟨hadd, hsub, hmul, hand, hor, hxor, hnor, herr⟩ := decode_registerWord rd rs rt ignored
    exact ⟨decodeRecord_of_ok hadd a, decodeRecord_of_ok hsub a, decodeRecord_of_ok hmul a, decodeRecord_of_ok hand a,
      decodeRecord_of_ok hor a, decodeRecord_of_ok hxor a, decodeRecord_of_ok hnor a, decodeRecord_of_error herr a⟩
  case immediate =>
    obtain ⟨haddi, handi, hori, hxori, herr4, herr5, herr6, herr7⟩ := decode_encodeImmediate rs rt imm
    exact ⟨decodeRecord_of_ok haddi a, decodeRecord_of_ok handi a, decodeRecord_of_ok hori a,
      decodeRecord_of_ok hxori a, decodeRecord_of_error herr4 a, decodeRecord_of_error herr5 a,
      decodeRecord_of_error herr6 a, decodeRecord_of_error herr7 a⟩

/-! ## Which words are UNKNOWN (R96) -/

theorem threeBits_cases (x : BitVec 3) :
    x = 0b000#3 ∨ x = 0b001#3 ∨ x = 0b010#3 ∨ x = 0b011#3 ∨ x = 0b100#3 ∨ x = 0b101#3 ∨ x = 0b110#3 ∨ x = 0b111#3 := by
  revert x
  decide

theorem decodeCategory1_error_iff (w : Word) :
    (∃ e, decodeCategory1 w = .error e) ↔ field w 26 3 ∈ [0b001#3, 0b011#3] := by
  rcases threeBits_cases (field w 26 3) with h | h | h | h | h | h | h | h <;> simp [decodeCategory1, h]

theorem decodeCategory2_error_iff (w : Word) :
    (∃ e, decodeCategory2 w = .error e) ↔ field w 16 3 = 0b111#3 := by
  rcases threeBits_cases (field w 16 3) with h | h | h | h | h | h | h | h <;> simp [decodeCategory2, h]

theorem decodeCategory3_error_iff (w : Word) :
    (∃ e, decodeCategory3 w = .error e) ↔ field w 16 3 ∈ [0b100#3, 0b101#3, 0b110#3, 0b111#3] := by
  rcases threeBits_cases (field w 16 3) with h | h | h | h | h | h | h | h <;> simp [decodeCategory3, h]

/-- R96, the categories put together. -/
theorem decode_error_iff (w : Word) :
    (∃ e, decode w = .error e) ↔
      field w 29 3 ∈ [0b001#3, 0b010#3, 0b011#3, 0b100#3, 0b101#3] ∨
      (field w 29 3 = 0b000#3 ∧ field w 26 3 ∈ [0b001#3, 0b011#3]) ∨
      (field w 29 3 = 0b110#3 ∧ field w 16 3 = 0b111#3) ∨
      (field w 29 3 = 0b111#3 ∧ field w 16 3 ∈ [0b100#3, 0b101#3, 0b110#3, 0b111#3]) := by
  rw [← decodeCategory1_error_iff, ← decodeCategory2_error_iff, ← decodeCategory3_error_iff]
  rcases threeBits_cases (field w 29 3) with h | h | h | h | h | h | h | h <;> simp [decode, h]

theorem decodeRecord_unknown_iff (w a : Word) :
    (decodeRecord w a).body = .unknown ↔ ∃ e, decode w = .error e := by
  cases h : decode w with
  | ok i => simp [decodeRecord_of_ok h]
  | error e => simp [decodeRecord_of_error h]

/-- Settles O2: the record is UNKNOWN where `decode` answers an error, and each category has its own error rows. -/
theorem unknownWordsAreTheListedOnes : Obligations.UnknownWordsAreTheListedOnes := by
  refine fun w a => ⟨(decodeRecord_unknown_iff w a).trans (decode_error_iff w), ?_⟩
  cases h : decode w with
  | ok i => exact .inr ⟨i, by rw [decodeRecord_of_ok h]⟩
  | error e => exact .inl (by rw [decodeRecord_of_error h])

/-! ## The ignored bits (R97) -/

/-- Category 2 reads nothing below bit 11. -/
theorem decodeCategory2_eq_of_masked {v w : Word} (h : v &&& 0xFFFFF800#32 = w &&& 0xFFFFF800#32) :
    decodeCategory2 v = decodeCategory2 w := by
  simp only [decodeCategory2, field_eq_of_masked h (lo := 24) (n := 5) rfl,
    field_eq_of_masked h (lo := 19) (n := 5) rfl, field_eq_of_masked h (lo := 16) (n := 3) rfl,
    field_eq_of_masked h (lo := 11) (n := 5) rfl]

theorem decodeRecord_congr {v w : Word} (h : decode v = decode w) (a : Word) : decodeRecord v a = decodeRecord w a := by
  simp only [decodeRecord, h]

/-- The mask of BGTZ's unused bits is itself a word of that format, with all ones in the ignored register field. -/
theorem encode_bgtz_ignored (rs : RegIdx) (o : Imm) : encode (.bgtz rs o) &&& ~~~0xFFE0FFFF#32 = 0#32 := by
  have hmask : ~~~0xFFE0FFFF#32 = encodeRegRegOffset 0#3 0#5 0x1F#5 0#16 := rfl
  rw [hmask, encode, encodeRegRegOffset, encodeRegRegOffset]
  iterate 4 rw [BitVec.and_append]
  simp

theorem encodeRegister_ignored (op : BitVec 3) (rd rs rt : RegIdx) :
    encodeRegister op rd rs rt &&& ~~~0xFFFFF800#32 = 0#32 := by
  have hmask : ~~~0xFFFFF800#32 = 0#21 ++ 0x7FF#11 := rfl
  rw [hmask, encodeRegister, BitVec.and_append (w := 21)]
  simp

/-- An assembler writes the ignored bits as zero; where every bit is used there is nothing to show. -/
theorem encode_ignored_zero {i : Instr} (hi : i ≠ .brk) : encode i &&& ~~~usedBits i = 0#32 := by
  cases i with
  | brk => exact absurd rfl hi
  | bgtz rs o => exact encode_bgtz_ignored rs o
  | add | sub | mul | and | or | xor | nor => exact encodeRegister_ignored ..
  | j | beq | sw | lw | addi | andi | ori | xori => simp [usedBits]

/-- Settles O3: the decoder reads only fields its row's mask covers, and words equal under the mask have them equal. -/
theorem ignoredBitsDoNotMatter : Obligations.IgnoredBitsDoNotMatter := by
  refine ⟨fun v w a hw h => decodeRecord_congr ?bgtz a, fun v w a hw h => decodeRecord_congr ?brk a,
    fun v w a hw h => decodeRecord_congr ?register a, fun _ hi => encode_ignored_zero hi, rfl⟩
  case bgtz =>
    have hv : field v 26 6 = 0b000100#6 := (field_eq_of_masked h rfl).trans hw
    rw [decode_bgtz hv, decode_bgtz hw, field_eq_of_masked h (lo := 21) (n := 5) rfl,
      field_eq_of_masked h (lo := 0) (n := 16) rfl]
  case brk =>
    have hv : field v 26 6 = 0b000101#6 := (field_eq_of_masked h rfl).trans hw
    rw [decode_brk hv, decode_brk hw]
  case register =>
    have hv : field v 29 3 = 0b110#3 := (field_eq_of_masked h rfl).trans hw
    rw [decode_category2 hv, decode_category2 hw, decodeCategory2_eq_of_masked h]

end Sys2Proof.Machine
end

section
/-!
PROOFS. Queues, the snapshot, and what a cycle does not depend on (O14, O15, O38, O46). The last one turns on the
model's `active`: every stage sets it before it runs a record, so what it held before does not reach the cycle's end.
-/

open Sys2Proof Sys2Proof.Machine Sys2Proof.Statements
open Host (Outcome)

namespace Sys2Proof.Machine

/-! ## `push` (R110, R112) -/

theorem push_of_full {q : QueueName} {e : Entry} {s : State} (h : (queueOf s q).entries.length = capacity q) :
    push q e s = raiseFault (.queueOverflow q) s := by
  rcases push_spec q e s with ⟨-, hpush⟩ | ⟨hroom, -⟩
  · exact hpush
  · omega

/-- Settles O14: `push` at capacity and below it, and what `setEntries` does to the queue named and to the others. -/
theorem pushAppendsOrRaisesOverflow : Obligations.PushAppendsOrRaisesOverflow := by
  intro q e s
  refine ⟨rfl, rfl, rfl, rfl, rfl, push_of_full, fun hroom => ?_⟩
  rw [push_of_room hroom]
  exact ⟨rfl, queueOf_setEntries_same q _ s, fun p hp => queueOf_setEntries_ne _ s hp⟩

/-! ## The snapshot (R120 to R123) -/

/-- Within its capacity a queue counts as full exactly at `len(Q) = CAP(Q)` (log 9). -/
theorem latched_of_le_capacity {q : QueueName} {s : State} (h : (queueOf s q).entries.length ≤ capacity q) :
    latched q s = { queueOf s q with lastFull := decide ((queueOf s q).entries.length = capacity q) } := by
  have hfull : capacity q ≤ (queueOf s q).entries.length ↔ (queueOf s q).entries.length = capacity q := by omega
  simp only [latched, isFull, hfull]

/-- Settles O15: `latched` within the capacities; the other three parts are the snapshot's definition. -/
theorem snapshotLatchesItsFourParts : Obligations.SnapshotLatchesItsFourParts := by
  intro s hs
  have hlatched (q : QueueName) := latched_of_le_capacity (queuesBounded_iff.mp hs q)
  unfold snapshot
  simp only [hlatched]
  rfl

/-! ## What each stage writes (R129) -/

/-- Settles O38: the frames of the five stages. Issue's own frame says more, that it never raises. -/
theorem eachStageWritesOnlyItsOwn : Obligations.EachStageWritesOnlyItsOwn := by
  refine fun s t hs => ⟨writebackStage_frame, memStage_frame, aluStage_frame, fun h => ?_, fetchStage_frame hs⟩
  have hstatus : t.status = s.status := by rw [issueStage_frame hs h]
  rw [hstatus]
  exact issueStage_frame hs h

/-! ## The operations do not read `active` (log 6) -/

theorem exists_eq_withActive {s t : State} (h : rest t = rest s) : ∃ a, t = { s with active := a } :=
  ⟨t.active, calc
    t = { rest t with active := t.active } := rfl
    _ = { rest s with active := t.active } := by rw [h]
    _ = { s with active := t.active } := rfl⟩

theorem queueOf_withActive (q : QueueName) (s : State) (a : Activation) :
    queueOf { s with active := a } q = queueOf s q := by
  cases q <;> rfl

theorem setEntries_withActive (q : QueueName) (es : List Entry) (s : State) (a : Activation) :
    setEntries q es { s with active := a } = { setEntries q es s with active := a } := by
  cases q <;> rfl

/-- A stage that takes up a record sets `active` first. -/
theorem runRecord_withActive (r : Record) (p : Phase) (s : State) (a : Activation) :
    runRecord r p { s with active := a } = runRecord r p s := rfl

/-! ## The stages do not depend on `active` -/

/-- An answer with `active` put at its rest value, as the end of the cycle puts it. -/
def restOutcome : Outcome State Fault Refusal → Outcome State Fault Refusal
  | .next s => .next (rest s)
  | .fault r => .fault r
  | .refused r => .refused r

theorem clockEdge_of_running {s : State} (hs : s.status = .running) : clockEdge s = restOutcome (cycleOnce s) := by
  unfold clockEdge
  rw [if_pos hs]
  cases cycleOnce s <;> rfl

/-- The part `f` of a cycle answers the same for any two values of `active`, but for `active` itself. -/
def ActiveBlind (f : State → Outcome State Fault Refusal) : Prop :=
  ∀ (s : State) (a : Activation), restOutcome (f { s with active := a }) = restOutcome (f s)

theorem ActiveBlind.restOutcome_thenIfRunning {f : State → Outcome State Fault Refusal} (hf : ActiveBlind f)
    {o o' : Outcome State Fault Refusal} (h : restOutcome o = restOutcome o') :
    restOutcome (thenIfRunning o f) = restOutcome (thenIfRunning o' f) := by
  cases o with
  | next s =>
    cases o' with
    | next t =>
      obtain ⟨a, rfl⟩ := exists_eq_withActive (Outcome.next.inj h).symm
      simp only [Machine.thenIfRunning]
      split
      · exact (hf s a).symm
      · rfl
    | fault | refused => cases h
  | fault r =>
    cases o' with
    | fault => exact h
    | next | refused => cases h
  | refused r =>
    cases o' with
    | refused => exact h
    | next | fault => cases h

theorem ActiveBlind.thenIfRunning {f g : State → Outcome State Fault Refusal} (hf : ActiveBlind f)
    (hg : ActiveBlind g) : ActiveBlind fun s => Machine.thenIfRunning (f s) g :=
  fun s a => hg.restOutcome_thenIfRunning (hf s a)

/-- A stage that pops the head of a queue and runs it, and does nothing when there is none. -/
theorem activeBlind_of_pop {f : State → Outcome State Fault Refusal} {q : QueueName} {phase : Entry → Phase}
    (hnil : ∀ s, pop q s = none → f s = .next s)
    (hcons : ∀ s e t, pop q s = some (e, t) → f s = runRecord e.record (phase e) t) : ActiveBlind f := by
  intro s a
  have hq := queueOf_withActive q s a
  cases hes : (queueOf s q).entries with
  | nil =>
    rw [hnil s (pop_of_nil hes), hnil _ (pop_of_nil (hq ▸ hes))]
    rfl
  | cons e es =>
    rw [hcons s e _ (pop_of_cons hes), hcons _ e _ (pop_of_cons (hq ▸ hes)), setEntries_withActive,
      runRecord_withActive]

theorem commitLane_activeBlind (q : QueueName) : ActiveBlind (commitLane q) :=
  activeBlind_of_pop (phase := fun e => .writeback e.cached) (fun s h => by rw [commitLane, h])
    (fun s e t h => by rw [commitLane, h])

theorem writebackStage_activeBlind : ActiveBlind writebackStage :=
  (commitLane_activeBlind .postMEM).thenIfRunning (commitLane_activeBlind .postALU)

theorem memStage_activeBlind : ActiveBlind memStage :=
  activeBlind_of_pop (phase := fun e => .mem e.cached) (fun s h => by rw [memStage, h])
    (fun s e t h => by rw [memStage, h])

theorem aluStage_activeBlind : ActiveBlind aluStage :=
  activeBlind_of_pop (phase := fun _ => .alu) (fun s h => by rw [aluStage, h]) (fun s e t h => by rw [aluStage, h])

theorem mayIssue_withActive (s : State) (a : Activation) (c : Record) (p issued : List Record) :
    mayIssue { s with active := a } c p issued = mayIssue s c p issued := rfl

theorem issueScan_activeBlind (kept : List Entry) (issued : List Record) (es : List Entry) :
    ActiveBlind (issueScan kept issued es) := by
  intro s a
  induction es generalizing kept with
  | nil => rfl
  | cons c es ih =>
    unfold issueScan
    rw [mayIssue_withActive, setEntries_withActive, runRecord_withActive]
    split
    · rfl
    · exact ih _

theorem issueStage_activeBlind : ActiveBlind issueStage := by
  intro s a
  unfold issueStage
  dsimp only
  split
  · rfl
  · exact issueScan_activeBlind [] [] s.preIssue.entries s a

/-- A slot that has a record to run forgets the `active` it began with; a slot that has none leaves it. -/
theorem fetchSlot_activeBlind (slot : FetchSlot) (fd : Option RegIdx)
    (next : Option RegIdx → State → Outcome State Fault Refusal) : ActiveBlind (fetchSlot slot fd next) := by
  intro s a
  have hin : inExec { s with active := a } s.pc = inExec s s.pc := rfl
  have hat : recordAt { s with active := a } s.pc = recordAt s s.pc := rfl
  have hfull : isFull .preIssue { s with active := a } = isFull .preIssue s := rfl
  unfold fetchSlot
  dsimp only
  rw [hin, hat, hfull]
  simp only [runRecord_withActive]
  split
  case isFalse => rfl
  case isTrue =>
    cases recordAt s s.pc with
    | none => rfl
    | some r =>
      dsimp only
      cases r.body with
      | data v => rfl
      | unknown => rfl
      | instr i =>
        dsimp only
        split
        · rfl
        · split <;> rfl

theorem fetchStage_activeBlind : ActiveBlind fetchStage := by
  intro s a
  unfold fetchStage
  dsimp only
  split
  · rfl
  · exact fetchSlot_activeBlind .one none fetchSecond s a

theorem terminationTest_activeBlind : ActiveBlind fun s => .next (terminationTest s) := by
  intro s a
  have hin : inExec { s with active := a } s.pc = inExec s s.pc := rfl
  unfold terminationTest
  dsimp only
  rw [hin]
  split <;> rfl

theorem backEnd_activeBlind : ActiveBlind backEnd :=
  ((writebackStage_activeBlind.thenIfRunning memStage_activeBlind).thenIfRunning
    aluStage_activeBlind).thenIfRunning issueStage_activeBlind

/-- The five stages and the termination test, after the snapshot. -/
theorem afterSnapshot_activeBlind : ActiveBlind fun s =>
    thenIfRunning (thenIfRunning (backEnd s) fetchStage) fun t => .next (terminationTest t) :=
  (backEnd_activeBlind.thenIfRunning fetchStage_activeBlind).thenIfRunning terminationTest_activeBlind

/-! ## What the snapshot overwrites (R115, R120 to R123) -/

theorem entries_of_sameBeforeSnapshot {s t : State} (h : sameBeforeSnapshot s t) (q : QueueName) :
    (queueOf t q).entries = (queueOf s q).entries := by
  obtain ⟨-, -, -, -, -, hpreIssue, hpreALU, hpostALU, hpreMEM, hpostMEM, -, -, -, -⟩ := h
  cases q <;> assumption

/-- The latch is written from the entries alone (R122). -/
theorem latched_congr {q : QueueName} {s t : State} (h : (queueOf t q).entries = (queueOf s q).entries) :
    latched q t = latched q s := by
  simp only [latched, isFull, h]

/-- The snapshot reads and keeps nothing that `sameBeforeSnapshot` leaves free, but for `active`. -/
theorem snapshot_of_sameBeforeSnapshot {s t : State} (h : sameBeforeSnapshot s t) :
    snapshot t = { snapshot s with active := t.active } := by
  have hlatched (q : QueueName) : latched q t = latched q s := latched_congr (entries_of_sameBeforeSnapshot h q)
  obtain ⟨hbase, hpc, hx, hmem, himem, hpreIssue, -, -, -, -, hrrtn, hwaiting, hcycle, hstatus⟩ := h
  simp only [snapshot, hlatched, hbase, hpc, hx, hmem, himem, hpreIssue, hrrtn, hwaiting, hcycle, hstatus]

theorem beginCycle_of_sameBeforeSnapshot {s t : State} (h : sameBeforeSnapshot s t) :
    beginCycle t = { beginCycle s with active := t.active } := by
  have hcounted : sameBeforeSnapshot { s with cycle := s.cycle + 1 } { t with cycle := t.cycle + 1 } := by
    simpa [sameBeforeSnapshot] using h
  exact snapshot_of_sameBeforeSnapshot hcounted

/-- Settles O46: after the snapshot the two states differ in `active` at most, to which the stages are blind. -/
theorem latchedStateDoesNotInfluenceTheCycle : Obligations.LatchedStateDoesNotInfluenceTheCycle := by
  intro s t hs h
  have hbegin := beginCycle_of_sameBeforeSnapshot h
  obtain ⟨-, -, -, -, -, -, -, -, -, -, -, -, -, hstatus⟩ := h
  have ht : t.status = .running := hstatus.trans hs
  calc step t = restOutcome (cycleOnce t) := clockEdge_of_running ht
    _ = restOutcome (cycleOnce s) := by
      unfold cycleOnce
      rw [hbegin]
      exact afterSnapshot_activeBlind _ _
    _ = step s := (clockEdge_of_running hs).symm

end Sys2Proof.Machine
end

section
/-!
PROOFS. Fetch (O20, O29, O32, O36, O37, O40, O44, O56, O57). The layer underneath says what a stage answers for a class
it cannot handle, what one fetch slot answers for each class, what the back end leaves for Fetch to find, and what Fetch
pushes.
-/

open Sys2Proof Sys2Proof.Machine Sys2Proof.Statements
open Host (Outcome)

namespace Sys2Proof.Machine

/-! ## An ordinary instruction and BREAK in a fetch slot (R146, R303) -/

/-- Settles O20: below its capacity PreIssue takes the push of R146. -/
theorem ordinaryInstructionEntersPreIssue : Obligations.OrdinaryInstructionEntersPreIssue := by
  intro s i slot fd hphase hord hroom
  rw [exec_fetch_ordinary hphase hord, enterPreIssue, pushThen_of_room (by simpa using hroom)]
  rfl

theorem isControl_brk : isControl .brk = true := rfl

/-- BREAK has no source that could block it, so it resolves in the slot that reaches it (R303). -/
theorem exec_fetch_brk {s : State} {slot : FetchSlot} {fd : Option RegIdx} (hphase : s.active.phase = .fetch slot fd) :
    exec .brk s = .next (resolve .brk (BitVec.ofNat 32 (dataBase s)) s) :=
  exec_fetch_control hphase isControl_brk

/-! ## Classes a stage cannot handle (R149, R215, R223, R233, R342) -/

theorem runRecord_alu_refused {r : Record} (hr : recordIsIssuable r = false) (s : State) :
    runRecord r .alu s = .next (operandAbsent (activate r .alu s)) := by
  obtain ⟨a, b⟩ := r
  cases b with
  | data | unknown => rfl
  | instr i =>
    have hcontrol : isControl i = true := by simpa [recordIsIssuable] using hr
    rcases exec_alu (i := i) (s := activate ⟨a, .instr i⟩ .alu s) rfl with ⟨-, he⟩ | ⟨hmem, -⟩ | ⟨hord, -, -⟩
    · exact he
    · rcases Bool.or_eq_true_iff.mp hmem with hs | hl
      · exact absurd hcontrol (by simp [isControl_store hs])
      · exact absurd hcontrol (by simp [isControl_load hl])
    · exact absurd hcontrol (by simp [hord])

theorem runRecord_mem_refused {r : Record} {c : Option Word} (hr : recordIsMemory r = false ∨ c = none) (s : State) :
    runRecord r (.mem c) s = .next (operandAbsent (activate r (.mem c) s)) := by
  obtain ⟨a, b⟩ := r
  cases b with
  | data | unknown => rfl
  | instr i =>
    rcases exec_mem (i := i) (s := activate ⟨a, .instr i⟩ (.mem c) s) rfl with
      ⟨-, he⟩ | ⟨-, he⟩ | ⟨hs, ea, hc, -⟩ | ⟨hl, ea, hc, -⟩
    · exact he
    · exact he
    · simp [recordIsMemory, hs, hc] at hr
    · simp [recordIsMemory, hl, hc] at hr

theorem runRecord_writeback_refused {r : Record} {c : Option Word} (hr : recordDest r = none ∨ c = none) (s : State) :
    runRecord r (.writeback c) s = .next (operandAbsent (activate r (.writeback c) s)) := by
  rw [runRecord_writeback]
  cases hd : recordDest r with
  | none => rfl
  | some d =>
    obtain rfl := hr.resolve_left (by simp [hd])
    rfl

theorem runRecord_fetch_data {r : Record} (hr : recordIsData r = true) (slot : FetchSlot) (fd : Option RegIdx)
    (s : State) : runRecord r (.fetch slot fd) s = .next (operandAbsent (activate r (.fetch slot fd) s)) := by
  obtain ⟨a, b⟩ := r
  cases b with
  | data => rfl
  | instr | unknown => cases hr

/-- Settles O29: each stage by its own lemma; the fault taken is `OperandAbsent` of the record that was activated. -/
theorem stageRefusesClassesItCannotHandle : Obligations.StageRefusesClassesItCannotHandle := fun s _ _ slot fd =>
  ⟨fun h => runRecord_alu_refused h s, fun h => runRecord_mem_refused h s, fun h => runRecord_writeback_refused h s,
    fun h => runRecord_fetch_data h slot fd s⟩

/-! ## The latch of a full queue (R141, R190) -/

theorem issueStage_of_lastFull {s : State} (h : s.preALU.lastFull = true) : issueStage s = .next s := by
  rw [issueStage, if_pos h]

theorem fetchStage_of_lastFull {s : State} (h : s.preIssue.lastFull = true) : fetchStage s = .next s := by
  rw [fetchStage, if_pos h]

theorem fetchStage_of_room {s : State} (h : s.preIssue.lastFull = false) :
    fetchStage s = fetchSlot .one none fetchSecond s := by
  simp [fetchStage, h]

/-- Settles O32: each producer tests the latch before anything else. -/
theorem fullLatchStopsTheProducer : Obligations.FullLatchStopsTheProducer :=
  fun _ => ⟨issueStage_of_lastFull, fetchStage_of_lastFull⟩

/-! ## One fetch slot, by the record at `pc` (R143 to R151) -/

theorem thenIfRunning_next_right (o : Outcome State Fault Refusal) : thenIfRunning o (fun t => .next t) = o := by
  cases o with
  | next s => simp [thenIfRunning]
  | fault | refused => rfl

section
variable {slot : FetchSlot} {fd : Option RegIdx} {next : Option RegIdx → State → Outcome State Fault Refusal}
  {s : State} {a : Word} {i : Instr}

theorem fetchSlot_outside (hout : inExec s s.pc = false) : fetchSlot slot fd next s = .next s := by
  simp [fetchSlot, hout]

theorem fetchSlot_control (hin : inExec s s.pc = true) (hat : recordAt s s.pc = some ⟨a, .instr i⟩)
    (hc : isControl i = true) : fetchSlot slot fd next s = exec i { s with active := ⟨a, .fetch slot fd⟩ } := by
  simp [fetchSlot, hin, hat, hc, runRecord, activate]

theorem fetchSlot_full (hin : inExec s s.pc = true) (hat : recordAt s s.pc = some ⟨a, .instr i⟩)
    (hord : isControl i = false) (hfull : isFull .preIssue s = true) : fetchSlot slot fd next s = .next s := by
  simp [fetchSlot, hin, hat, hord, hfull]

theorem fetchSlot_ordinary (hin : inExec s s.pc = true) (hat : recordAt s s.pc = some ⟨a, .instr i⟩)
    (hord : isControl i = false) (hroom : isFull .preIssue s = false) :
    fetchSlot slot fd next s =
      thenIfRunning (exec i { s with active := ⟨a, .fetch slot fd⟩ }) (next (destOf i)) := by
  simp [fetchSlot, hin, hat, hord, hroom, runRecord, activate]

/-- An UNKNOWN word uses its slot up and leaves `first_dest` to the next slot as it was (R147). -/
theorem fetchSlot_unknown (hs : s.status = .running) (hin : inExec s s.pc = true)
    (hat : recordAt s s.pc = some ⟨a, .unknown⟩) :
    fetchSlot slot fd next s = next fd { s with
      pc := s.pc + 4#32, notices := s.notices ++ [.unknownOpcode a], active := ⟨a, .fetch slot fd⟩ } := by
  have hrun : runRecord ⟨a, .unknown⟩ (.fetch slot fd) s = .next { s with
      pc := s.pc + 4#32, notices := s.notices ++ [.unknownOpcode a], active := ⟨a, .fetch slot fd⟩ } := rfl
  simp only [fetchSlot, hin, hat, hrun, if_true]
  exact thenIfRunning_of_running hs

end

/-- Settles O37: the slot is used up; behind slot 1 comes slot 2, behind slot 2 nothing. -/
theorem unknownWordIsPassedOver : Obligations.UnknownWordIsPassedOver := by
  intro s a fd hs hin hat
  refine ⟨fun hroom => ?_, fetchSlot_unknown hs hin hat⟩
  rw [fetchStage_of_room hroom]
  exact fetchSlot_unknown hs hin hat

/-! ## What the back end leaves for Fetch (R129, R244) -/

/-- What every answer of the first part meets, and the second part keeps from a running state, every answer of the
sequence meets. -/
theorem thenIfRunning_keeps {P : State → Prop} {o : Outcome State Fault Refusal}
    {f : State → Outcome State Fault Refusal} (ho : ∀ u, o = .next u → P u)
    (hf : ∀ u t, u.status = .running → P u → f u = .next t → P t) {t : State} (h : thenIfRunning o f = .next t) :
    P t := by
  obtain ⟨u, hu, ⟨hr, ht⟩ | ⟨-, rfl⟩⟩ := thenIfRunning_cases h
  · exact hf u t hr (ho u hu) ht
  · exact ho t hu

/-- What each of Writeback, MEM, ALU and Issue keeps, the back end keeps. -/
theorem backEnd_keeps {P : State → Prop} (hwriteback : ∀ s t, P s → writebackStage s = .next t → P t)
    (hmem : ∀ s t, P s → memStage s = .next t → P t) (halu : ∀ s t, P s → aluStage s = .next t → P t)
    (hissue : ∀ s t, s.status = .running → P s → issueStage s = .next t → P t) {s t : State} (hs : P s)
    (h : backEnd s = .next t) : P t :=
  thenIfRunning_keeps
    (fun _ => thenIfRunning_keeps
      (fun _ => thenIfRunning_keeps (fun u hu => hwriteback s u hs hu) fun u v _ => hmem u v)
      fun u v _ => halu u v)
    hissue h

theorem backEnd_next (s : State) : ∃ t, backEnd s = .next t :=
  thenIfRunning_next (thenIfRunning_next (thenIfRunning_next (writebackStage_next s) memStage_next) aluStage_next)
    issueStage_next

/-- `s` with every component the back end may write taken from `t` (R129): all that Fetch reads beside PreIssue's
entries is left as it was. -/
def withBackEndOf (t s : State) : State :=
  { s with
    x := t.x, mem := t.mem, rrtn := t.rrtn, status := t.status, active := t.active
    preIssue := { s.preIssue with entries := t.preIssue.entries }
    preALU := { s.preALU with entries := t.preALU.entries }
    postALU := { s.postALU with entries := t.postALU.entries }
    preMEM := { s.preMEM with entries := t.preMEM.entries }
    postMEM := { s.postMEM with entries := t.postMEM.entries } }

theorem backEnd_frame {s t : State} (h : backEnd s = .next t) : t = withBackEndOf t s := by
  refine backEnd_keeps (P := fun t => t = withBackEndOf t s) ?writeback ?mem ?alu ?issue rfl h
  case writeback => intro u v hu h; rw [writebackStage_frame h, hu]; rfl
  case mem => intro u v hu h; rw [memStage_frame h, hu]; rfl
  case alu => intro u v hu h; rw [aluStage_frame h, hu]; rfl
  case issue => intro u v hr hu h; rw [issueStage_frame hr h, hu]; rfl

theorem KeepsStatusOrAborts.trans {s u t : State} (hu : KeepsStatusOrAborts s u) (ht : KeepsStatusOrAborts u t) :
    KeepsStatusOrAborts s t := by
  rcases ht with he | ha
  · exact hu.imp he.trans fun ⟨f, hf⟩ => ⟨f, he.trans hf⟩
  · exact .inr ha

theorem backEnd_status {s t : State} (h : backEnd s = .next t) : KeepsStatusOrAborts s t :=
  backEnd_keeps (P := KeepsStatusOrAborts s) (fun _ _ hu h => hu.trans (writebackStage_status h))
    (fun _ _ hu h => hu.trans (memStage_status h)) (fun _ _ hu h => hu.trans (aluStage_status h))
    (fun _ _ hr hu h => hu.trans (.inl (issueStage_status hr h))) (.inl rfl) h

/-- Issue takes entries out of PreIssue and sorts the others (R193, R198). -/
theorem IssueRun.preIssue_subperm {left : List Entry} {issued : List Record} {s t : State}
    (h : IssueRun left issued s t) : t.preIssue.entries.Subperm left := by
  induction h with
  | done => exact (sortByAddress_perm _).subperm
  | issue _ _ ih => exact ih.trans (List.Sublist.append_left (List.sublist_cons_self _ _) _).subperm

theorem issueStage_preIssue_subperm {s t : State} (hs : s.status = .running) (h : issueStage s = .next t) :
    t.preIssue.entries.Subperm s.preIssue.entries := by
  rcases issueStage_cases hs h with ⟨-, rfl⟩ | ⟨-, hrun⟩
  · exact .refl _
  · exact hrun.preIssue_subperm

/-- Before Fetch PreIssue gains no entry. -/
theorem backEnd_preIssue_subperm {s t : State} (h : backEnd s = .next t) :
    t.preIssue.entries.Subperm s.preIssue.entries := by
  refine backEnd_keeps (P := fun t => t.preIssue.entries.Subperm s.preIssue.entries) ?writeback ?mem ?alu ?issue
    (.refl _) h
  case writeback => intro u v hu h; rw [writebackStage_frame h]; exact hu
  case mem => intro u v hu h; rw [memStage_frame h]; exact hu
  case alu => intro u v hu h; rw [aluStage_frame h]; exact hu
  case issue => exact fun u v hr hu h => (issueStage_preIssue_subperm hr h).trans hu

/-! ## The step around Fetch (R244, R245, R248) -/

/-- Every step of a running machine is the back end, then Fetch unless a fault was raised, then the end of the cycle. -/
theorem step_eq_endOfCycle {s u : State} (hs : s.status = .running) (hb : backEnd (beginCycle s) = .next u) :
    step s = if u.status = .running then endOfCycle (fetchStage u) else .next (rest u) := by
  rw [step, clockEdge_of_running hs, cycleOnce, hb]
  split
  next hu =>
    rw [thenIfRunning_of_running hu]
    obtain ⟨v, hv⟩ := fetchStage_next u
    simp only [hv, thenIfRunning, endOfCycle]
    split <;> rfl
  next hu => simp [thenIfRunning, hu, restOutcome]

/-- A step that raised no fault got as far as Fetch. -/
theorem step_reaches_fetch {s t : State} (hs : s.status = .running) (h : step s = .next t) (ht : NotAborted t) :
    ∃ u, backEnd (beginCycle s) = .next u ∧ u.status = .running ∧ endOfCycle (fetchStage u) = .next t := by
  obtain ⟨u, hb⟩ := backEnd_next (beginCycle s)
  rw [step_eq_endOfCycle hs hb] at h
  split at h
  next hu => exact ⟨u, hb, hu, h⟩
  next hu =>
    obtain ⟨f, hf⟩ := (backEnd_status hb).aborted hs hu
    obtain rfl := Outcome.next.inj h
    exact absurd hf (ht f)

/-- The end of the cycle writes `status` and `active` only. -/
theorem endOfCycle_frame {u t : State} (h : endOfCycle (.next u) = .next t) :
    t = { u with status := t.status, active := t.active } := by
  unfold endOfCycle at h
  dsimp only at h
  split at h
  · obtain rfl := Outcome.next.inj h
    rw [terminationTest_frame]
    rfl
  · obtain rfl := Outcome.next.inj h
    rfl

/-- What Fetch finds behind the back end of a cycle: the program, `pc` and `waiting` of the cycle's start, nothing
resolved, and the latch of PreIssue, the committed table and `LastPreIssue` of the snapshot. -/
structure FetchFinds (s u : State) : Prop where
  pc : u.pc = s.pc
  region : inExec u = inExec s
  records : recordAt u = recordAt s
  base : dataBase u = dataBase s
  waiting : u.waiting = s.waiting
  resolved : u.resolved = none
  lastFull : u.preIssue.lastFull = isFull .preIssue s
  rrtc : u.rrtc = s.rrtn
  lastPreIssue : u.lastPreIssue = s.preIssue.entries.map Entry.record
  preIssue : u.preIssue.entries.Subperm s.preIssue.entries

theorem fetchFinds_of_backEnd {s u : State} (h : backEnd (beginCycle s) = .next u) : FetchFinds s u := by
  have hsub : u.preIssue.entries.Subperm s.preIssue.entries := backEnd_preIssue_subperm (s := beginCycle s) h
  rw [backEnd_frame h]
  exact ⟨rfl, rfl, rfl, rfl, rfl, rfl, rfl, rfl, rfl, hsub⟩

theorem FetchFinds.inExec_pc {s u : State} (h : FetchFinds s u) : inExec u u.pc = inExec s s.pc := by
  rw [h.region, h.pc]

theorem FetchFinds.recordAt_pc {s u : State} (h : FetchFinds s u) : recordAt u u.pc = recordAt s s.pc := by
  rw [h.records, h.pc]

/-- Room at the snapshot is room for Fetch: nothing before it pushes into PreIssue. -/
theorem FetchFinds.room {s u : State} (h : FetchFinds s u) (hroom : s.preIssue.entries.length < 4) :
    u.preIssue.lastFull = false ∧ isFull .preIssue u = false := by
  refine ⟨h.lastFull.trans (not_isFull_iff.mpr hroom), not_isFull_iff.mpr ?_⟩
  have := h.preIssue.length_le
  simp only [queueOf_preIssue, capacity_preIssue]
  omega

/-! ## The instruction at `pc` (R142 to R148, R151) -/

/-- With room at the snapshot, Fetch runs the instruction at `pc` in slot 1 and, behind an ordinary one, slot 2. -/
theorem FetchFinds.fetchStage_instr {s u : State} (h : FetchFinds s u) (hroom : s.preIssue.entries.length < 4)
    {a : Word} {i : Instr} (hin : inExec s s.pc = true) (hat : recordAt s s.pc = some ⟨a, .instr i⟩) :
    fetchStage u = if isControl i then exec i { u with active := ⟨a, .fetch .one none⟩ }
      else thenIfRunning (exec i { u with active := ⟨a, .fetch .one none⟩ }) (fetchSecond (destOf i)) := by
  obtain ⟨hlatch, hfull⟩ := h.room hroom
  rw [← h.inExec_pc] at hin
  rw [← h.recordAt_pc] at hat
  rw [fetchStage_of_room hlatch]
  cases hc : isControl i
  · exact fetchSlot_ordinary hin hat hc hfull
  · exact fetchSlot_control hin hat hc

theorem fetchSecond_instr {s : State} {fd : Option RegIdx} {a : Word} {i : Instr} (hin : inExec s s.pc = true)
    (hat : recordAt s s.pc = some ⟨a, .instr i⟩) :
    fetchSecond fd s = if isControl i = false ∧ 4 ≤ s.preIssue.entries.length then .next s
      else exec i { s with active := ⟨a, .fetch .two fd⟩ } := by
  unfold fetchSecond
  cases hc : isControl i
  · cases hf : isFull .preIssue s
    · have hroom : s.preIssue.entries.length < 4 := not_isFull_iff.mp hf
      rw [fetchSlot_ordinary hin hat hc hf, thenIfRunning_next_right, if_neg (by omega)]
    · have hfull : 4 ≤ s.preIssue.entries.length := isFull_iff.mp hf
      rw [fetchSlot_full hin hat hc hf, if_pos ⟨rfl, hfull⟩]
  · rw [fetchSlot_control hin hat hc, if_neg (by simp)]

/-- Settles O40: the step around Fetch, the first slot, the decoder, and the second slot. -/
theorem stepRunsTheInstructionAtPc : Obligations.StepRunsTheInstructionAtPc := by
  refine ⟨fun s u a i hs hroom hb hu hin hat => ?_, fun w a i h => decodeRecord_of_ok h a,
    fun s fd => fetchSlot_outside, fun s fd a i => fetchSecond_instr⟩
  rw [step_eq_endOfCycle hs hb, if_pos hu, (fetchFinds_of_backEnd hb).fetchStage_instr hroom hin hat]

/-! ## BREAK (R156, R303) -/

/-- Behind an ordinary instruction or an UNKNOWN word at `pc`, Fetch goes on with slot 2 at the next word. -/
theorem FetchFinds.fetchStage_second {s u : State} (h : FetchFinds s u) (hu : u.status = .running)
    (hroom : s.preIssue.entries.length < 4) {r : Record} (hin : inExec s s.pc = true)
    (hat : recordAt s s.pc = some r) (hr : recordIsIssuable r = true ∨ r.body = .unknown) :
    ∃ fd w, fetchStage u = fetchSecond fd w ∧ w.status = .running ∧ w.pc = s.pc + 4#32 ∧ inExec w = inExec s ∧
      recordAt w = recordAt s ∧ dataBase w = dataBase s := by
  obtain ⟨hlatch, hfull⟩ := h.room hroom
  obtain ⟨a, b⟩ := r
  cases b with
  | data v => rcases hr with hr | hr <;> cases hr
  | unknown =>
    obtain ⟨hfetch, -⟩ := unknownWordIsPassedOver u a none hu (h.inExec_pc.trans hin) (h.recordAt_pc.trans hat)
    exact ⟨none, _, hfetch hlatch, hu, congrArg (· + 4#32) h.pc, h.region, h.records, h.base⟩
  | instr i =>
    have hord : isControl i = false := by simpa [recordIsIssuable] using hr
    have hpush := ordinaryInstructionEntersPreIssue { u with active := ⟨a, .fetch .one none⟩ } i .one none rfl hord
      (not_isFull_iff.mp hfull)
    have hfetch := h.fetchStage_instr hroom hin hat
    rw [hord, if_neg (by simp), hpush, thenIfRunning_of_running (by exact hu)] at hfetch
    exact ⟨destOf i, _, hfetch, hu, congrArg (· + 4#32) h.pc, h.region, h.records, h.base⟩

/-- A BREAK at `pc`, or behind a word that lets Fetch go on, resolves in this cycle. -/
theorem FetchFinds.fetchStage_break {s u : State} (h : FetchFinds s u) (hu : u.status = .running)
    (hroom : s.preIssue.entries.length < 4) {a : Word} (hin : inExec s s.pc = true) (hina : inExec s a = true)
    (hbreak : recordAt s a = some ⟨a, .instr .brk⟩)
    (hreach : a = s.pc ∨ a = s.pc + 4#32 ∧
      ∃ r, recordAt s s.pc = some r ∧ (recordIsIssuable r = true ∨ r.body = .unknown)) :
    ∃ v, fetchStage u = .next v ∧ v.status = .running ∧ v.pc = BitVec.ofNat 32 (dataBase s) ∧
      v.resolved = some ⟨a, .instr .brk⟩ ∧ v.waiting = none ∧ inExec v = inExec s := by
  rcases hreach with rfl | ⟨rfl, r, hat, hr⟩
  · rw [h.fetchStage_instr hroom hin hbreak, if_pos isControl_brk, exec_fetch_brk rfl]
    exact ⟨_, rfl, hu, congrArg (BitVec.ofNat 32) h.base, rfl, rfl, h.region⟩
  · obtain ⟨fd, w, hfetch, hw, hpc, hregion, hrecords, hbase⟩ := h.fetchStage_second hu hroom hin hat hr
    rw [hfetch, fetchSecond_instr (by rw [hregion, hpc, hina]) (by rw [hrecords, hpc, hbreak]),
      if_neg (by simp [isControl_brk]), exec_fetch_brk rfl]
    exact ⟨_, rfl, hw, congrArg (BitVec.ofNat 32) hbase, rfl, rfl, hregion⟩

/-- `DATA_BASE`, as `pc` holds it, is outside the executable region, unless it wraps to a base of 0 (log 12). -/
theorem not_inExec_dataBase {s : State}
    (h : dataBase s < 2 ^ 32 ∨ dataBase s = 2 ^ 32 ∧ s.instrBase ≠ 0#32) :
    inExec s (BitVec.ofNat 32 (dataBase s)) = false := by
  rw [Bool.eq_false_iff, ne_eq, inExec_iff, BitVec.toNat_ofNat]
  rcases h with hlt | ⟨hwrap, hbase⟩
  · omega
  · have hpos : s.instrBase.toNat ≠ 0 := fun h0 => hbase (BitVec.eq_of_toNat_eq h0)
    omega

/-- Settles O44: the BREAK resolves to an address outside the region, which the termination test finds. -/
theorem breakEndsTheRun : Obligations.BreakEndsTheRun := by
  intro s t a hs hroom hin hina hbreak hreach hbase hstep ht
  obtain ⟨u, hb, hu, hend⟩ := step_reaches_fetch hs hstep ht
  obtain ⟨v, hfetch, hv, hpc, hres, hwait, hregion⟩ :=
    (fetchFinds_of_backEnd hb).fetchStage_break hu hroom hin hina hbreak hreach
  have hout : inExec v v.pc = false := by rw [hregion, hpc, not_inExec_dataBase hbase]
  simp only [hfetch, endOfCycle, hv, terminationTest, hout, if_true, Bool.false_eq_true, if_false] at hend
  obtain rfl := Outcome.next.inj hend
  exact ⟨hpc, rfl, hres, hwait⟩

/-! ## A waiting instruction (R41, R153, R154) -/

/-- A control-transfer instruction at `pc` waits or resolves, or finds Fetch stopped by the latch; nothing is pushed. -/
theorem fetchStage_control_cases {s t : State} {r : Record} (hs : s.status = .running)
    (hin : inExec s s.pc = true) (hat : recordAt s s.pc = some r) (hc : recordIsControl r = true)
    (h : fetchStage s = .next t) :
    t = s ∨ t = { activate r (.fetch .one none) s with waiting := some r } ∨
      t = { activate r (.fetch .one none) s with pc := recordOutcome s r, resolved := some r, waiting := none } := by
  cases hl : s.preIssue.lastFull with
  | true =>
    rw [fetchStage_of_lastFull hl] at h
    exact .inl (Outcome.next.inj h).symm
  | false =>
    rw [fetchStage_of_room hl] at h
    rcases fetchSlot_cases hs h with ⟨hout, -⟩ | ⟨r', -, hat', hcase⟩
    · simp [hin] at hout
    obtain rfl : r = r' := Option.some.inj (hat.symm.trans hat')
    have hord : recordIsIssuable r ≠ true := fun hi => by simp [recordIsControl_of_issuable hi] at hc
    rcases hcase with ⟨-, -, ht⟩ | ⟨-, -, ht⟩ | ⟨hi, -⟩ | ⟨hi, -⟩ | ⟨hu, -⟩ | ⟨hd, -⟩
    · exact .inr (.inl ht)
    · exact .inr (.inr ht)
    · exact absurd hi hord
    · exact absurd hi hord
    · simp [recordIsControl, hu] at hc
    · obtain ⟨a, b⟩ := r
      cases b with
      | data => cases hc
      | instr | unknown => cases hd

/-- Settles O57: the record at `pc` is the waiting instruction, so Fetch leaves PreIssue as the back end left it. -/
theorem waitingInstructionHoldsFetch : Obligations.WaitingInstructionHoldsFetch := by
  rintro s t w ⟨-, -, -, -, -, ⟨hwait, -⟩, ⟨hregion, -⟩, -⟩ hs hw hstep
  obtain ⟨-, hc, hat⟩ := hwait w hw
  have hin := hregion hs
  obtain ⟨u, hb⟩ := backEnd_next (beginCycle s)
  have hfinds := fetchFinds_of_backEnd hb
  have hwaits : u.waiting = some w := hfinds.waiting.trans hw
  rw [step_eq_endOfCycle hs hb] at hstep
  split at hstep
  case isFalse =>
    obtain rfl := Outcome.next.inj hstep
    exact ⟨hfinds.preIssue, .inl ⟨hwaits, hfinds.pc, hfinds.resolved⟩⟩
  case isTrue hu =>
    obtain ⟨v, hfetch⟩ := fetchStage_next u
    rw [hfetch] at hstep
    rw [endOfCycle_frame hstep]
    rcases fetchStage_control_cases hu (hfinds.inExec_pc.trans hin) (hfinds.recordAt_pc.trans hat) hc hfetch with
      rfl | rfl | rfl
    · exact ⟨hfinds.preIssue, .inl ⟨hwaits, hfinds.pc, hfinds.resolved⟩⟩
    · exact ⟨hfinds.preIssue, .inl ⟨rfl, hfinds.pc, hfinds.resolved⟩⟩
    · exact ⟨hfinds.preIssue, .inr ⟨rfl, rfl⟩⟩

/-! ## What Fetch pushes (R142, R143, R146, R148) -/

/-- The record a fetch slot finds at an address: none outside the executable region (R143, R144). -/
def fetchable (s : State) (a : Word) : Option Record := if inExec s a then recordAt s a else none

theorem fetchable_eq_some_iff {s : State} {a : Word} {r : Record} :
    fetchable s a = some r ↔ inExec s a = true ∧ recordAt s a = some r := by
  simp [fetchable]

theorem recordAt_of_fetchable {s : State} {a : Word} {r : Record} (h : fetchable s a = some r) :
    recordAt s a = some r := by
  obtain ⟨-, hat⟩ := fetchable_eq_some_iff.mp h
  exact hat

/-- The records that `f` finds at `n` successive words from address `a`. -/
def recordsFrom (f : Word → Option Record) : Nat → Word → List Record
  | 0, _ => []
  | n + 1, a => (f a).toList ++ recordsFrom f n (a + 4#32)

theorem length_recordsFrom_le (f : Word → Option Record) (n : Nat) (a : Word) :
    (recordsFrom f n a).length ≤ n := by
  induction n generalizing a with
  | zero => exact Nat.le_refl 0
  | succ n ih =>
    have hhead : (f a).toList.length ≤ 1 := by cases f a <;> simp
    have htail := ih (a + 4#32)
    rw [recordsFrom, List.length_append]
    omega

theorem mem_recordsFrom_two {f : Word → Option Record} {a : Word} {r : Record} :
    r ∈ recordsFrom f 2 a ↔ f a = some r ∨ f (a + 4#32) = some r := by
  simp [recordsFrom]

/-- Two records out of two words are those of both words, in order. -/
theorem pair_sublist_recordsFrom_two {f : Word → Option Record} {a : Word} {r1 r2 : Record}
    (h : [r1, r2].Sublist (recordsFrom f 2 a)) : f a = some r1 ∧ f (a + 4#32) = some r2 := by
  have heq := h.eq_of_length_le (length_recordsFrom_le f 2 a)
  simp only [recordsFrom, List.append_nil] at heq
  cases h1 : f a with
  | none => cases h2 : f (a + 4#32) <;> simp [h1, h2] at heq
  | some x =>
    cases h2 : f (a + 4#32) with
    | none => simp [h1, h2] at heq
    | some y => simpa [h1, h2, eq_comm] using heq

/-- Fetch pushes issuable records, in the order of the words it passes, one word a slot. -/
theorem FetchRun.pushed {slots : List FetchSlot} {fd : Option RegIdx} {s t : State} (h : FetchRun slots fd s t) :
    ∃ pushed : List Record, t.preIssue.entries = s.preIssue.entries ++ pushed.map (fun r => ⟨r, none⟩) ∧
      pushed.Sublist (recordsFrom (fetchable s) slots.length s.pc) ∧ ∀ r ∈ pushed, recordIsIssuable r = true := by
  induction h with
  | used | outside | full | wait | resolve | fault => exact ⟨[], (List.append_nil _).symm, List.nil_sublist _, by simp⟩
  | @push slot slots fd s t r hin hat hi _ _ ih =>
    obtain ⟨pushed, hentries, hsub, hissuable⟩ := ih
    refine ⟨r :: pushed, by simp [hentries], ?_, by simpa [hi] using hissuable⟩
    have hfound : fetchable s s.pc = some r := fetchable_eq_some_iff.mpr ⟨hin, hat⟩
    rw [List.length_cons, recordsFrom, hfound]
    exact hsub.cons_cons r
  | @pass slot slots fd s t r _ _ _ _ ih =>
    obtain ⟨pushed, hentries, hsub, hissuable⟩ := ih
    refine ⟨pushed, by simpa using hentries, ?_, hissuable⟩
    rw [List.length_cons, recordsFrom]
    exact hsub.trans (List.sublist_append_right _ _)

/-- Fetch pushes only below the capacity (R148). -/
theorem FetchRun.preIssue_length_le {slots : List FetchSlot} {fd : Option RegIdx} {s t : State}
    (h : FetchRun slots fd s t) (hs : s.preIssue.entries.length ≤ 4) : t.preIssue.entries.length ≤ 4 := by
  induction h with
  | used | outside | full | wait | resolve | fault => exact hs
  | push _ _ _ hroom _ ih =>
    have hlt := not_isFull_iff.mp hroom
    simp only [queueOf_preIssue, capacity_preIssue] at hlt
    exact ih (by simpa using hlt)
  | pass _ _ _ _ ih => exact ih hs

/-- Unless an instruction resolves, `pc` advances by at most a word a slot (R33, R146, R147, R153). -/
theorem FetchRun.pc_of_unresolved {slots : List FetchSlot} {fd : Option RegIdx} {s t : State}
    (h : FetchRun slots fd s t) (ht : t.resolved = none) :
    ∃ k ≤ slots.length, t.pc = s.pc + BitVec.ofNat 32 (4 * k) := by
  have hstep {a b : Word} {n : Nat} : (∃ k ≤ n, b = a + 4#32 + BitVec.ofNat 32 (4 * k)) →
      ∃ k ≤ n + 1, b = a + BitVec.ofNat 32 (4 * k) := fun ⟨k, hk, hb⟩ =>
    ⟨k + 1, by omega, by rw [hb, BitVec.add_assoc, ← BitVec.ofNat_add, Nat.mul_succ, Nat.add_comm]⟩
  induction h with
  | used | outside | full | wait | fault => exact ⟨0, Nat.zero_le _, (BitVec.add_zero _).symm⟩
  | resolve => cases ht
  | push _ _ _ _ _ ih => exact hstep (ih ht)
  | pass _ _ _ _ ih => exact hstep (ih ht)

/-- What resolves is a control-transfer instruction at a word of a slot (R151, R152). -/
theorem FetchRun.resolved_mem {slots : List FetchSlot} {fd : Option RegIdx} {s t : State} {r : Record}
    (h : FetchRun slots fd s t) (hs : s.resolved = none) (ht : t.resolved = some r) :
    recordIsControl r = true ∧ r ∈ recordsFrom (fetchable s) slots.length s.pc := by
  have hnone : s.resolved ≠ some r := by simp [hs]
  induction h with
  | used | outside | full | wait | fault => exact absurd ht hnone
  | resolve hin hat hc _ =>
    obtain rfl := Option.some.inj ht
    refine ⟨hc, ?_⟩
    rw [List.length_cons, recordsFrom, fetchable_eq_some_iff.mpr ⟨hin, hat⟩]
    exact List.mem_cons_self
  | push _ _ _ _ _ ih => exact (ih hs ht hnone).imp_right (List.mem_append_right _)
  | pass _ _ _ _ ih => exact (ih hs ht hnone).imp_right (List.mem_append_right _)

/-- Settles O36. Behind a full latch nothing happens; otherwise the clauses are those of a run of two slots. -/
theorem fetchPushesAtMostTwoInOrder : Obligations.FetchPushesAtMostTwoInOrder := by
  intro s t hs hres h
  cases hl : s.preIssue.lastFull with
  | true =>
    rw [fetchStage_of_lastFull hl] at h
    obtain rfl := Outcome.next.inj h
    exact ⟨[], by simp, by simp, id, by simp, by simp, fun _ => .inl rfl, by simp [hres]⟩
  | false =>
    have hrun := fetchStage_run hs h
    simp only [hl, Bool.false_eq_true, if_false] at hrun
    obtain ⟨pushed, hentries, hsub, hissuable⟩ := hrun.pushed
    refine ⟨pushed, hentries, hsub.length_le.trans (length_recordsFrom_le _ 2 _), hrun.preIssue_length_le,
      fun r hr => ⟨hissuable r hr, ?found⟩, fun r1 r2 hpair => ?inOrder, fun ht => ?pc, fun r ht => ?resolved⟩
    case found => simpa only [fetchable_eq_some_iff] using mem_recordsFrom_two.mp (hsub.subset hr)
    case inOrder =>
      obtain ⟨h1, h2⟩ := pair_sublist_recordsFrom_two (hpair ▸ hsub)
      exact ⟨recordAt_of_fetchable h1, recordAt_of_fetchable h2⟩
    case pc =>
      obtain ⟨k, hk, hpc⟩ := hrun.pc_of_unresolved ht
      rw [hpc]
      match k, hk with
      | 0, _ => exact .inl (BitVec.add_zero _)
      | 1, _ => exact .inr (.inl rfl)
      | 2, _ => exact .inr (.inr (BitVec.add_assoc s.pc 4#32 4#32).symm)
    case resolved =>
      obtain ⟨hc, hmem⟩ := hrun.resolved_mem hres ht
      exact ⟨hc, (mem_recordsFrom_two.mp hmem).imp recordAt_of_fetchable recordAt_of_fetchable⟩

/-! ## A branch and the writers of its sources (R150, R152) -/

/-- The records in PreIssue or in flight. -/
def resident (s : State) : List Record := writers s ++ s.preIssue.entries.map Entry.record

theorem resident_subset {s t : State} (hwriters : writers t ⊆ writers s)
    (hpreIssue : t.preIssue.entries.Subperm s.preIssue.entries) : resident t ⊆ resident s := by
  intro c hc
  rcases List.mem_append.mp hc with hc | hc
  · exact List.mem_append_left _ (hwriters hc)
  · exact List.mem_append_right _ (List.map_subset _ hpreIssue.subset hc)

theorem commitLane_preIssue {q : QueueName} (hq : q ≠ .preIssue) {s t : State} (h : commitLane q s = .next t) :
    t.preIssue = s.preIssue := by
  obtain ⟨es, ht⟩ := commitLane_frame h
  rw [ht]
  exact queueOf_setEntries_ne (p := .preIssue) es s hq.symm

theorem commitLane_writers_subset {q : QueueName} (hq : q ≠ .preIssue) {s t : State} (h : commitLane q s = .next t) :
    writers t ⊆ writers s := by
  rcases commitLane_cases h with ⟨-, rfl⟩ | ⟨e, es, hes, hcase⟩
  · exact List.Subset.refl _
  have hpop : writers (setEntries q es s) ⊆ writers s :=
    List.Subset.trans (List.subset_cons_self _ _) (writers_pop hq hes).symm.subset
  rcases hcase with ⟨-, rfl⟩ | ⟨d, v, -, -, rfl⟩ <;> exact hpop

theorem memStage_writers_subset {s t : State} (h : memStage s = .next t) : writers t ⊆ writers s := by
  rcases memStage_cases h with ⟨-, rfl⟩ | ⟨e, es, hes, hcase⟩
  · exact List.Subset.refl _
  have hpop : writers (setEntries .preMEM es s) ⊆ writers s :=
    List.Subset.trans (List.subset_cons_self _ _) (writers_pop (q := .preMEM) (by decide) hes).symm.subset
  rcases hcase with ⟨f, rfl, -⟩ | ⟨a, -, -, -, rfl⟩ | ⟨a, -, -, -, hroom, rfl⟩
  · exact hpop
  · exact hpop
  · exact (writers_move (q := .preMEM) (p := .postMEM) (by decide) (by decide) hes hroom _).symm.subset

theorem aluStage_writers_subset {s t : State} (h : aluStage s = .next t) : writers t ⊆ writers s := by
  rcases aluStage_cases h with ⟨-, rfl⟩ | ⟨e, es, hes, ⟨f, rfl, -⟩ | ⟨-, hroom, rfl⟩ | ⟨-, -, hroom, rfl⟩⟩
  · exact List.Subset.refl _
  · exact List.Subset.trans (List.subset_cons_self _ _) (writers_pop (q := .preALU) (by decide) hes).symm.subset
  · exact (writers_move (q := .preALU) (p := .preMEM) (by decide) (by decide) hes hroom _).symm.subset
  · exact (writers_move (q := .preALU) (p := .postALU) (by decide) (by decide) hes hroom _).symm.subset

/-- An issue adds the candidate to the records in flight. -/
theorem writers_afterIssue_perm (c : Record) (left : List Entry) (s : State) :
    (writers (afterIssue c left s)).Perm (c :: writers s) := by
  rw [afterIssue_frame]
  exact (writers_push (q := .preALU) (by decide) s ⟨c, none⟩).symm

/-- Issue brings no record into flight that was not in PreIssue. -/
theorem IssueRun.writers_subset {left : List Entry} {issued : List Record} {s t : State}
    (h : IssueRun left issued s t) : writers t ⊆ writers s ++ left.map Entry.record := by
  induction h with
  | done => exact List.subset_append_left _ _
  | @issue kept rest c issued s t _ _ ih =>
    intro d hd
    have hmem := ih hd
    simp only [List.mem_append, (writers_afterIssue_perm c.record _ s).mem_iff, List.mem_cons, List.map_append,
      List.map_cons] at hmem ⊢
    tauto

/-- Before Fetch no record becomes resident. -/
theorem backEnd_resident_subset {s t : State} (h : backEnd s = .next t) : resident t ⊆ resident s := by
  refine backEnd_keeps (P := fun t => resident t ⊆ resident s) ?writeback ?mem ?alu ?issue (List.Subset.refl _) h
  case writeback =>
    intro u v hu h
    refine writebackStage_keeps (P := fun v => resident v ⊆ resident s) (fun q v w hq hv hw => ?_) hu h
    refine List.Subset.trans (resident_subset (commitLane_writers_subset hq hw) ?_) hv
    rw [commitLane_preIssue hq hw]
  case mem =>
    intro u v hu h
    refine List.Subset.trans (resident_subset (memStage_writers_subset h) ?_) hu
    rw [memStage_frame h]
  case alu =>
    intro u v hu h
    refine List.Subset.trans (resident_subset (aluStage_writers_subset h) ?_) hu
    rw [aluStage_frame h]
  case issue =>
    intro u v hr hu h
    refine List.Subset.trans ?_ hu
    rcases issueStage_cases hr h with ⟨-, rfl⟩ | ⟨-, hrun⟩
    · exact List.Subset.refl _
    · exact List.append_subset.mpr ⟨hrun.writers_subset,
        List.Subset.trans (List.map_subset _ hrun.preIssue_subperm.subset) (List.subset_append_right _ _)⟩

/-- What resolves in the last slot was not blocked there, and nothing was pushed. -/
theorem FetchRun.resolved_in_last {slot : FetchSlot} {fd : Option RegIdx} {s t : State} {r : Record}
    (h : FetchRun [slot] fd s t) (hs : s.resolved = none) (ht : t.resolved = some r) :
    branchBlocked s (recordSrcs r) slot fd = false ∧ t.preIssue.entries = s.preIssue.entries := by
  have hnone : s.resolved ≠ some r := by simp [hs]
  cases h with
  | outside | full | wait | fault => exact absurd ht hnone
  | resolve _ _ _ hb =>
    obtain rfl := Option.some.inj ht
    exact ⟨hb, rfl⟩
  | push _ _ _ _ hused =>
    cases hused
    exact absurd ht hnone
  | pass _ _ _ hused =>
    cases hused
    exact absurd ht hnone

/-- When a record resolves, `BranchBlocked` was false for it in its slot, and what slot 1 may have pushed before it
writes the `first_dest` it saw (R142, R150, R152). -/
theorem fetchStage_resolved {s t : State} {r : Record} (hs : s.status = .running) (hres : s.resolved = none)
    (h : fetchStage s = .next t) (ht : t.resolved = some r) :
    ∃ slot fd, branchBlocked s (recordSrcs r) slot fd = false ∧
      ∀ e ∈ t.preIssue.entries, e ∈ s.preIssue.entries ∨ slot = .two ∧ recordDest e.record = fd := by
  have hnone : s.resolved ≠ some r := by simp [hres]
  have hrun := fetchStage_run hs h
  split at hrun
  case isTrue =>
    cases hrun
    exact absurd ht hnone
  case isFalse =>
    cases hrun with
    | outside | full | wait | fault => exact absurd ht hnone
    | resolve _ _ _ hb =>
      obtain rfl := Option.some.inj ht
      exact ⟨.one, none, hb, fun _ he => .inl he⟩
    | @push _ _ _ _ _ first _ _ _ _ hsecond =>
      obtain ⟨hb, hentries⟩ := hsecond.resolved_in_last hres ht
      refine ⟨.two, recordDest first, hb, fun e he => ?_⟩
      rw [hentries] at he
      rcases List.mem_append.mp he with he | he
      · exact .inl he
      · exact .inr ⟨rfl, by rw [List.mem_singleton.mp he]⟩
    | pass _ _ _ hsecond =>
      obtain ⟨hb, hentries⟩ := hsecond.resolved_in_last hres ht
      exact ⟨.two, none, hb, fun e he => .inl (hentries ▸ he)⟩

/-- A register that is free in the table and that no record of PreIssue writes has no resident writer (R47). -/
theorem dest_ne_of_mem_resident {s : State} (hs : OneWriterPerRegister s) {q : RegIdx}
    (hfree : slotOf s.rrtn q = none) (hpre : ∀ c ∈ s.preIssue.entries.map Entry.record, recordDest c ≠ some q)
    {c : Record} (hc : c ∈ resident s) : recordDest c ≠ some q := by
  rcases List.mem_append.mp hc with hc | hc
  · exact (oneWriterPerRegister_iff.mp hs).dest_ne hfree hc
  · exact hpre c hc

/-- Settles O56. A register of a branch that resolves had no writer in the table or in PreIssue at the snapshot, so none
was resident then; the back end brings none in, and slot 1 pushed none. -/
theorem branchResolvesWithoutOutstandingWriter : Obligations.BranchResolvesWithoutOutstandingWriter := by
  rintro s t r ⟨-, -, hwriters, -, -, -, -, -⟩ hs hstep ht hr q hq e he
  obtain ⟨u, hb, hu, hend⟩ := step_reaches_fetch hs hstep ht
  obtain ⟨v, hfetch⟩ := fetchStage_next u
  have hfinds := fetchFinds_of_backEnd hb
  rw [hfetch] at hend
  rw [endOfCycle_frame hend] at hr he
  obtain ⟨slot, fd, hunblocked, hpushed⟩ := fetchStage_resolved hu hfinds.resolved hfetch hr
  rw [Bool.eq_false_iff, ne_eq, branchBlocked_iff] at hunblocked
  push Not at hunblocked
  obtain ⟨hfree, hlast, hfirst⟩ := hunblocked q hq
  rw [hfinds.rrtc] at hfree
  rw [hfinds.lastPreIssue] at hlast
  have hresident {c : Record} (hc : c ∈ resident u) : recordDest c ≠ some q :=
    dest_ne_of_mem_resident (hwriters (notAborted_of_running hs)) hfree hlast (backEnd_resident_subset hb hc)
  rcases List.mem_append.mp he with he | he
  · rw [fetchStage_frame hu hfetch] at he
    exact hresident (List.mem_append_left _ (List.mem_map_of_mem he))
  · rcases hpushed e he with hkept | ⟨hslot, hdest⟩
    · exact hresident (List.mem_append_right _ (List.mem_map_of_mem hkept))
    · rw [hdest]
      exact hfirst hslot

end Sys2Proof.Machine
end

section
/-!
PROOFS. Issue (O21, O33, O34, O35). The layer underneath follows the scan of Issue by the positions of PreIssue: which
positions have issued once the first `n` entries have been looked at, and in which state that leaves the machine. What
issues, what stays behind and what the table then holds are read off that relation.
-/

open Sys2Proof Sys2Proof.Machine Sys2Proof.Statements
open Host (Outcome)

namespace Sys2Proof.Machine

/-! ## Reserving a destination (R125, R193) -/

theorem slotOf_reserveDest_same (d : RegIdx) (a : Word) (s : State) :
    slotOf (reserveDest (some d) a s).rrtn d = some a :=
  slotOf_reserve_same d a s

theorem slotOf_reserveDest_ne {dest : Option RegIdx} {r : RegIdx} (a : Word) (s : State) (h : dest ≠ some r) :
    slotOf (reserveDest dest a s).rrtn r = slotOf s.rrtn r := by
  cases dest with
  | none => rfl
  | some d => exact slotOf_reserve_ne a s fun hr => h (by rw [hr])

/-- Settles O21: with room in PreALU the push of R193 goes through, and only then is the destination reserved. -/
theorem issuedInstructionReservesItsDestination : Obligations.IssuedInstructionReservesItsDestination := by
  intro s i hphase _ hroom
  have hexec : exec i s =
      .next (reserveDest (destOf i) s.active.address (addPreALU (entryOf s i none) s)) := by
    rw [exec_issue hphase, enterPreALU, pushThen_of_room (by simpa using hroom)]
    rfl
  refine ⟨_, hexec, ?frame, fun d hd => ?reserved, fun r hr => slotOf_reserveDest_ne _ _ hr⟩
  case frame => cases destOf i <;> rfl
  case reserved => rw [hd]; exact slotOf_reserveDest_same d _ _

theorem slotOf_afterIssue_same {c : Record} {d : RegIdx} (left : List Entry) (s : State) (h : recordDest c = some d) :
    slotOf (afterIssue c left s).rrtn d = some c.address := by
  rw [afterIssue, h]
  exact slotOf_reserveDest_same d _ _

theorem slotOf_afterIssue_ne {c : Record} {r : RegIdx} (left : List Entry) (s : State) (h : recordDest c ≠ some r) :
    slotOf (afterIssue c left s).rrtn r = slotOf s.rrtn r :=
  slotOf_reserveDest_ne _ _ h

theorem afterIssue_rrtc (c : Record) (left : List Entry) (s : State) : (afterIssue c left s).rrtc = s.rrtc := by
  rw [afterIssue_frame]

theorem afterIssue_preALU (c : Record) (left : List Entry) (s : State) :
    (afterIssue c left s).preALU.entries = s.preALU.entries ++ [⟨c, none⟩] := by
  rw [afterIssue_frame]

/-! ## The Hazard Detector against one record at a time (R171 to R176) -/

theorem issueBlocked_eq_false_iff_noHazard {s : State} {c : Record} {p : List Record} :
    issueBlocked s c p = false ↔
      unreserved s c ∧ ∀ e ∈ p, e.address.toNat < c.address.toNat → noHazard c e := by
  simp only [issueBlocked_eq_false_iff, waw_eq_false_iff, raw_eq_false_iff, war_eq_false_iff, memOrder_eq_false_iff,
    mem_earlier_iff, unreserved, noHazard]
  constructor
  · rintro ⟨hwaw, hraw, hwar, hmem⟩
    exact ⟨⟨fun d hd => (hwaw d hd).1, fun r hr => (hraw r hr).1⟩, fun e he hlt =>
      ⟨fun d hd => ⟨(hwaw d hd).2 e ⟨he, hlt⟩, hwar d hd e ⟨he, hlt⟩⟩, fun r hr => (hraw r hr).2 e ⟨he, hlt⟩,
        fun hm => hmem hm e ⟨he, hlt⟩⟩⟩
  · rintro ⟨⟨hdest, hsrcs⟩, hfree⟩
    refine ⟨fun d hd => ⟨hdest d hd, ?_⟩, fun r hr => ⟨hsrcs r hr, ?_⟩, fun d hd => ?_, fun hm => ?_⟩
    all_goals
      rintro e ⟨he, hlt⟩
      obtain ⟨hd', hr', hm'⟩ := hfree e he hlt
    · exact (hd' d hd).1
    · exact hr' r hr
    · exact (hd' d hd).2
    · exact hm' hm

/-! ## Entries by position -/

theorem mem_entriesAt_iff {es : List Entry} {ks : List Nat} {e : Entry} :
    e ∈ entriesAt es ks ↔ ∃ k ∈ ks, es[k]? = some e :=
  List.mem_filterMap

theorem entriesAt_append (es : List Entry) (ks ls : List Nat) :
    entriesAt es (ks ++ ls) = entriesAt es ks ++ entriesAt es ls :=
  List.filterMap_append

theorem entriesAt_singleton {es : List Entry} {k : Nat} {e : Entry} (h : es[k]? = some e) : entriesAt es [k] = [e] := by
  simp [entriesAt, h]

theorem entriesAt_range (es : List Entry) : entriesAt es (List.range es.length) = es := by
  induction es using List.reverseRecOn with
  | nil => rfl
  | append_singleton es e ih =>
    rw [List.length_append, List.length_singleton, List.range_succ, entriesAt_append,
      entriesAt_singleton (e := e) (by simp)]
    congr 1
    refine (List.filterMap_congr fun k hk => ?_).trans ih
    exact List.getElem?_append_left (List.mem_range.mp hk)

theorem length_entriesAt {es : List Entry} {ks : List Nat} (h : ∀ k ∈ ks, k < es.length) :
    (entriesAt es ks).length = ks.length := by
  induction ks with
  | nil => rfl
  | cons k ks ih =>
    obtain ⟨hk, hks⟩ := List.forall_mem_cons.mp h
    have htail := ih hks
    rw [entriesAt] at htail ⊢
    rw [List.filterMap_cons_some (List.getElem?_eq_getElem hk), List.length_cons, htail, List.length_cons]

theorem entriesAt_sublist {es : List Entry} {ks : List Nat} (h : ks.Sublist (List.range es.length)) :
    (entriesAt es ks).Sublist es := by
  conv_rhs => rw [← entriesAt_range es]
  exact h.filterMap _

/-- The positions below `n` that are not in `ks`. -/
def others (ks : List Nat) (n : Nat) : List Nat := (List.range n).filter fun k => decide (k ∉ ks)

theorem mem_others_iff {ks : List Nat} {n k : Nat} : k ∈ others ks n ↔ k < n ∧ k ∉ ks := by
  simp [others]

theorem others_sublist (ks : List Nat) (n : Nat) : (others ks n).Sublist (List.range n) :=
  List.filter_sublist

theorem others_append_last (ks : List Nat) (n : Nat) : others (ks ++ [n]) (n + 1) = others ks n := by
  rw [others, List.range_succ, List.filter_append]
  simp only [others, List.mem_append, List.mem_singleton, or_true, not_true, decide_false, List.filter_cons,
    List.filter_nil, Bool.false_eq_true, if_false, List.append_nil]
  refine List.filter_congr fun k hk => ?_
  simp [Nat.ne_of_lt (List.mem_range.mp hk)]

theorem others_succ {ks : List Nat} {n : Nat} (h : n ∉ ks) : others ks (n + 1) = others ks n ++ [n] := by
  simp [others, List.range_succ, h]

theorem append_others_perm {ks : List Nat} {n : Nat} (h : ks.Sublist (List.range n)) :
    (ks ++ others ks n).Perm (List.range n) := by
  have hks : ks.Perm ((List.range n).filter fun k => decide (k ∈ ks)) := by
    refine (List.perm_ext_iff_of_nodup (h.nodup List.nodup_range) (List.nodup_range.filter _)).mpr fun k => ?_
    simpa using fun hk => List.mem_range.mp (h.subset hk)
  refine (hks.append_right _).trans ?_
  simpa [others] using List.filter_append_perm (fun k => decide (k ∈ ks)) (List.range n)

theorem entriesAt_append_others_perm {es : List Entry} {ks : List Nat} (h : ks.Sublist (List.range es.length)) :
    (entriesAt es ks ++ entriesAt es (others ks es.length)).Perm es := by
  rw [← entriesAt_append]
  conv_rhs => rw [← entriesAt_range es]
  exact (append_others_perm h).filterMap _

/-! ## The scan by positions (R191, R192, R196) -/

/-- What PreIssue holds when position `n` has been looked at and left it, and the positions `ks` before it too. -/
def residents (es : List Entry) (ks : List Nat) (n : Nat) : List Entry :=
  entriesAt es (others ks n) ++ es.drop (n + 1)

/-- Beside the candidate itself, every entry that has not issued is a resident (R196). -/
theorem mem_residents_iff {es : List Entry} {ks : List Nat} {n : Nat} {e : Entry} (h : ∀ k ∈ ks, k < n) :
    e ∈ residents es ks n ↔ ∃ j, j ≠ n ∧ j ∉ ks ∧ es[j]? = some e := by
  rw [residents, List.mem_append, mem_entriesAt_iff, List.mem_iff_getElem?]
  simp only [mem_others_iff, List.getElem?_drop]
  constructor
  · rintro (⟨j, ⟨hj, hk⟩, he⟩ | ⟨j, he⟩)
    · exact ⟨j, by omega, hk, he⟩
    · exact ⟨n + 1 + j, by omega, fun hk => absurd (h _ hk) (by omega), he⟩
  · rintro ⟨j, hj, hk, he⟩
    rcases Nat.lt_or_gt_of_ne hj with hlt | hgt
    · exact .inl ⟨j, ⟨hlt, hk⟩, he⟩
    · exact .inr ⟨j - (n + 1), by rwa [Nat.add_sub_cancel' hgt]⟩

/-- One step of the scan, by the position of its candidate. -/
theorem issueScan_drop {es : List Entry} {n : Nat} {c : Entry} (hc : es[n]? = some c) (ks : List Nat)
    (issued : List Record) {u : State} (hu : u.status = .running) :
    issueScan (entriesAt es (others ks n)) issued (es.drop n) u =
      if mayIssue u c.record ((residents es ks n).map Entry.record) issued then
        issueScan (entriesAt es (others ks n)) (issued ++ [c.record]) (es.drop (n + 1))
          (afterIssue c.record (residents es ks n) u)
      else issueScan (entriesAt es (others ks n) ++ [c]) issued (es.drop (n + 1)) u := by
  obtain ⟨hn, rfl⟩ := List.getElem?_eq_some_iff.mp hc
  rw [List.drop_eq_getElem_cons hn]
  exact issueScan_cons _ _ _ _ u hu

/-- `ScanReaches s n ks u`: once the scan from `s` has looked at the first `n` entries of PreIssue, the positions `ks`
have issued and the state is `u`. -/
inductive ScanReaches (s : State) : Nat → List Nat → State → Prop where
  | start : ScanReaches s 0 [] s
  | issue {n : Nat} {ks : List Nat} {u : State} {c : Entry} : ScanReaches s n ks u →
      s.preIssue.entries[n]? = some c → readyToIssue s c.record ks →
      ScanReaches s (n + 1) (ks ++ [n]) (afterIssue c.record (residents s.preIssue.entries ks n) u)
  | stay {n : Nat} {ks : List Nat} {u : State} {c : Entry} : ScanReaches s n ks u →
      s.preIssue.entries[n]? = some c → ¬readyToIssue s c.record ks → ScanReaches s (n + 1) ks u

section
variable {s u : State} {n : Nat} {ks : List Nat}

theorem ScanReaches.exists_of_le {n : Nat} (h : n ≤ s.preIssue.entries.length) : ∃ ks u, ScanReaches s n ks u := by
  induction n with
  | zero => exact ⟨[], s, .start⟩
  | succ n ih =>
    obtain ⟨ks, u, hscan⟩ := ih (Nat.le_of_succ_le h)
    have hc : s.preIssue.entries[n]? = some s.preIssue.entries[n] := List.getElem?_eq_getElem h
    by_cases hready : readyToIssue s s.preIssue.entries[n].record ks
    · exact ⟨_, _, hscan.issue hc hready⟩
    · exact ⟨_, _, hscan.stay hc hready⟩

theorem ScanReaches.le_length (h : ScanReaches s n ks u) : n ≤ s.preIssue.entries.length := by
  cases h with
  | start => exact Nat.zero_le _
  | issue _ hc _ | stay _ hc _ => exact (List.getElem?_eq_some_iff.mp hc).1

/-- The positions that issued are positions looked at, in the order of the scan. -/
theorem ScanReaches.sublist_range (h : ScanReaches s n ks u) : ks.Sublist (List.range n) := by
  induction h with
  | start => exact .refl _
  | issue _ _ _ ih => rw [List.range_succ]; exact ih.append (.refl _)
  | stay _ _ _ ih => rw [List.range_succ]; exact ih.trans (List.sublist_append_left _ _)

theorem ScanReaches.lt (h : ScanReaches s n ks u) {k : Nat} (hk : k ∈ ks) : k < n :=
  List.mem_range.mp (h.sublist_range.subset hk)

theorem ScanReaches.not_mem (h : ScanReaches s n ks u) : n ∉ ks := fun hn => Nat.lt_irrefl _ (h.lt hn)

theorem ScanReaches.filter_lt (h : ScanReaches s n ks u) : ks.filter (fun j => decide (j < n)) = ks :=
  List.filter_eq_self.mpr fun _ hj => decide_eq_true (h.lt hj)

/-- The positions that issued are positions of PreIssue, so each names an entry. -/
theorem ScanReaches.length_entriesAt (h : ScanReaches s n ks u) :
    (entriesAt s.preIssue.entries ks).length = ks.length :=
  Machine.length_entriesAt fun _ hk => Nat.lt_of_lt_of_le (h.lt hk) h.le_length

theorem ScanReaches.length_le_two (h : ScanReaches s n ks u) : ks.length ≤ 2 := by
  induction h with
  | start => exact Nat.zero_le _
  | issue _ _ hready _ =>
    obtain ⟨hwidth, -⟩ := hready
    simpa using hwidth
  | stay _ _ _ ih => exact ih

theorem ScanReaches.status (h : ScanReaches s n ks u) : u.status = s.status := by
  induction h with
  | start => rfl
  | issue _ _ _ ih => rw [afterIssue_status, ih]
  | stay _ _ _ ih => exact ih

theorem ScanReaches.rrtc (h : ScanReaches s n ks u) : u.rrtc = s.rrtc := by
  induction h with
  | start => rfl
  | issue _ _ _ ih => rw [afterIssue_rrtc, ih]
  | stay _ _ _ ih => exact ih

theorem ScanReaches.preALU (h : ScanReaches s n ks u) :
    u.preALU.entries =
      s.preALU.entries ++ (entriesAt s.preIssue.entries ks).map (fun e => ⟨e.record, none⟩) := by
  induction h with
  | start => simp [entriesAt]
  | issue _ hc _ ih => simp [afterIssue_preALU, ih, entriesAt_append, entriesAt_singleton hc]
  | stay _ _ _ ih => exact ih

theorem ScanReaches.preALU_length (h : ScanReaches s n ks u) :
    u.preALU.entries.length = s.preALU.entries.length + ks.length := by
  rw [h.preALU, List.length_append, List.length_map, h.length_entriesAt]

/-- A position issued exactly when it was ready, with the positions before it that had issued. -/
theorem ScanReaches.mem_iff (h : ScanReaches s n ks u) {k : Nat} {c : Entry} (hk : k < n)
    (hc : s.preIssue.entries[k]? = some c) :
    k ∈ ks ↔ readyToIssue s c.record (ks.filter fun j => decide (j < k)) := by
  induction h with
  | start => omega
  | @issue n ks u c' hscan hc' hready ih =>
    rcases Nat.lt_succ_iff_lt_or_eq.mp hk with hlt | rfl
    · have hbefore : ¬n < k := by omega
      simp [ih hlt, List.filter_append, hbefore, Nat.ne_of_lt hlt]
    · obtain rfl : c' = c := Option.some.inj (hc'.symm.trans hc)
      simpa [List.filter_append, hscan.filter_lt] using hready
  | @stay n ks u c' hscan hc' hready ih =>
    rcases Nat.lt_succ_iff_lt_or_eq.mp hk with hlt | rfl
    · exact ih hlt
    · obtain rfl : c' = c := Option.some.inj (hc'.symm.trans hc)
      rw [hscan.filter_lt]
      exact iff_of_false hscan.not_mem hready

/-- No issue undoes a reservation of the same scan, and a register no issued entry writes is left alone (R180, R193). -/
theorem ScanReaches.reserves (h : ScanReaches s n ks u) :
    ∀ e ∈ entriesAt s.preIssue.entries ks, ∀ d, recordDest e.record = some d →
      slotOf u.rrtn d = some e.record.address := by
  induction h with
  | start => exact fun e he => absurd he (by simp [entriesAt])
  | @issue n ks u c _ hc hready ih =>
    obtain ⟨-, -, -, -, hpair⟩ := hready
    intro e he d hd
    rw [entriesAt_append, entriesAt_singleton hc, List.mem_append, List.mem_singleton] at he
    rcases he with he | rfl
    · obtain ⟨hindep, -⟩ := hpair e he
      rw [slotOf_afterIssue_ne _ _ (hindep d hd).1]
      exact ih e he d hd
    · exact slotOf_afterIssue_same _ _ hd
  | stay _ _ _ ih => exact ih

theorem ScanReaches.leaves (h : ScanReaches s n ks u) {r : RegIdx} :
    (∀ e ∈ entriesAt s.preIssue.entries ks, recordDest e.record ≠ some r) → slotOf u.rrtn r = slotOf s.rrtn r := by
  induction h with
  | start => exact fun _ => rfl
  | @issue n ks u c _ hc _ ih =>
    intro hr
    rw [entriesAt_append, entriesAt_singleton hc] at hr
    rw [slotOf_afterIssue_ne _ _ (hr c (by simp)), ih fun e he => hr e (List.mem_append_left _ he)]
  | stay _ _ _ ih => exact ih

/-- Of fewer than two issued records the head is the only one (R180). -/
theorem head?_eq_some_iff_mem {α : Type} {l : List α} (h : l.length < 2) {a : α} : l.head? = some a ↔ a ∈ l := by
  match l, h with
  | [], _ => simp
  | [b], _ => simp [eq_comm]

/-- The test the scan makes is `readyToIssue`, asked of the state in which Issue began. -/
theorem ScanReaches.mayIssue_iff (h : ScanReaches s n ks u) {c : Entry} (hc : s.preIssue.entries[n]? = some c) :
    mayIssue u c.record ((residents s.preIssue.entries ks n).map Entry.record)
      ((entriesAt s.preIssue.entries ks).map Entry.record) = true ↔ readyToIssue s c.record ks := by
  have hlen : ((entriesAt s.preIssue.entries ks).map Entry.record).length = ks.length := by
    rw [List.length_map, h.length_entriesAt]
  have hresidents : (∀ e ∈ (residents s.preIssue.entries ks n).map Entry.record,
        e.address.toNat < c.record.address.toNat → noHazard c.record e) ↔
      ∀ j e, s.preIssue.entries[j]? = some e → j ∉ ks → e.record.address.toNat < c.record.address.toNat →
        noHazard c.record e.record := by
    simp only [List.forall_mem_map, mem_residents_iff fun k => h.lt]
    constructor
    · intro hall j e he hj hlt
      refine hall e ⟨j, fun hjn => ?_, hj, he⟩ hlt
      obtain rfl : e = c := Option.some.inj (by rw [← he, ← hc, hjn])
      exact Nat.lt_irrefl _ hlt
    · rintro hall e ⟨j, -, hj, he⟩ hlt
      exact hall j e he hj hlt
  rw [Machine.mayIssue_iff, issueBlocked_eq_false_iff_noHazard, hresidents, hlen, h.preALU_length, readyToIssue,
    and_assoc]
  simp only [unreserved, h.rrtc]
  refine and_congr_right fun hwidth => and_congr_right fun _ => and_congr_right fun _ => and_congr_right fun _ => ?_
  simp only [head?_eq_some_iff_mem (hlen ▸ hwidth), List.forall_mem_map, pairConflict_eq_false_iff, independent]

/-- What the scan has reached is where it goes on from. -/
theorem ScanReaches.issueStage_eq (h : ScanReaches s n ks u) (hs : s.status = .running)
    (hroom : s.preALU.lastFull = false) :
    issueStage s = issueScan (entriesAt s.preIssue.entries (others ks n))
      ((entriesAt s.preIssue.entries ks).map Entry.record) (s.preIssue.entries.drop n) u := by
  induction h with
  | start => simp [issueStage, hroom, entriesAt, others]
  | issue hscan hc hready ih =>
    rw [ih, issueScan_drop hc _ _ (hscan.status.trans hs), if_pos ((hscan.mayIssue_iff hc).mpr hready),
      others_append_last, entriesAt_append, entriesAt_singleton hc, List.map_append, List.map_singleton]
  | stay hscan hc hready ih =>
    rw [ih, issueScan_drop hc _ _ (hscan.status.trans hs), if_neg fun hm => hready ((hscan.mayIssue_iff hc).mp hm),
      others_succ hscan.not_mem, entriesAt_append, entriesAt_singleton hc]

end

/-- Everything Issue does behind a clear latch: one scan of all of PreIssue, and the sort of what stays. -/
theorem issueStage_scan {s : State} (hs : s.status = .running) (hroom : s.preALU.lastFull = false) :
    ∃ ks u, ScanReaches s s.preIssue.entries.length ks u ∧
      issueStage s = .next (setEntries .preIssue
        (sortByAddress (entriesAt s.preIssue.entries (others ks s.preIssue.entries.length))) u) := by
  obtain ⟨ks, u, hscan⟩ := ScanReaches.exists_of_le (Nat.le_refl s.preIssue.entries.length)
  refine ⟨ks, u, hscan, ?_⟩
  rw [hscan.issueStage_eq hs hroom, List.drop_length]
  rfl

/-! ## The sort (R198) -/

theorem filter_insertByAddress (e : Entry) (es : List Entry) (a : Word) :
    (insertByAddress e es).filter (fun f => f.record.address == a) =
      (e :: es).filter fun f => f.record.address == a := by
  induction es with
  | nil => rfl
  | cons f fs ih =>
    unfold insertByAddress
    split
    next => rfl
    next hlt =>
      rw [List.filter_cons, ih]
      by_cases he : e.record.address = a
      · have hf : f.record.address ≠ a := fun hf => hlt (by rw [he, hf])
        simp [he, hf]
      · simp [he, List.filter_cons]

/-- Entries of one address keep their order. -/
theorem filter_sortByAddress (es : List Entry) (a : Word) :
    (sortByAddress es).filter (fun e => e.record.address == a) = es.filter fun e => e.record.address == a := by
  induction es with
  | nil => rfl
  | cons e es ih => rw [sortByAddress, filter_insertByAddress, List.filter_cons, List.filter_cons, ih]

/-! ## The statements about Issue -/

/-- Settles O33: the issued entries are those at the positions the scan issues, the left ones those at the others. -/
theorem issueMovesAtMostTwoAndSorts : Obligations.IssueMovesAtMostTwoAndSorts := by
  intro s hs hroom
  obtain ⟨ks, u, hscan, hstage⟩ := issueStage_scan hs hroom
  refine ⟨_, entriesAt s.preIssue.entries ks, entriesAt s.preIssue.entries (others ks s.preIssue.entries.length), hstage,
    ?two, entriesAt_sublist hscan.sublist_range, entriesAt_sublist (others_sublist _ _),
    entriesAt_append_others_perm hscan.sublist_range, hscan.preALU, sortByAddress_perm _, sortByAddress_pairwise _,
    filter_sortByAddress _, ?reserved, ?free, ?frame⟩
  case two => exact hscan.length_entriesAt.trans_le hscan.length_le_two
  case reserved => exact hscan.reserves
  case free => exact fun r => hscan.leaves
  case frame => exact issueStage_frame hs hstage

/-- Settles O35: the scan decides each position with the positions before it that issued. -/
theorem entriesIssueExactlyWhenReady : Obligations.EntriesIssueExactlyWhenReady := by
  intro s hs hroom
  obtain ⟨ks, u, hscan, hstage⟩ := issueStage_scan hs hroom
  exact ⟨_, ks, hstage, List.pairwise_lt_range.sublist hscan.sublist_range, fun k => hscan.lt, hscan.preALU,
    sortByAddress_perm _, fun k c hc => hscan.mem_iff (List.getElem?_eq_some_iff.mp hc).1 hc⟩

/-- Settles O34, from the conditions each issued entry met at its turn (O35): what stays behind in the end had not
issued then, and the first of a pair had. -/
theorem issuedEntriesHaveNoHazard : Obligations.IssuedEntriesHaveNoHazard := by
  intro s t issued hs hroom hstage hissued
  obtain ⟨t', ks, hstage', hsorted, -, hpreALU, hstays, hready⟩ := entriesIssueExactlyWhenReady s hs hroom
  obtain rfl : t' = t := Outcome.next.inj (hstage'.symm.trans hstage)
  obtain rfl := List.append_cancel_left (hissued.symm.trans hpreALU)
  constructor
  · intro c hc
    obtain ⟨e, he, rfl⟩ := List.mem_map.mp hc
    obtain ⟨k, hk, hget⟩ := mem_entriesAt_iff.mp he
    obtain ⟨-, -, hfree, hhazards, -⟩ := (hready k e hget).mp hk
    refine ⟨hfree, fun f hf hlt => ?_⟩
    obtain ⟨j, hj, hgetj⟩ := mem_entriesAt_iff.mp (hstays.subset hf)
    exact hhazards j f hgetj (fun hmem => (mem_others_iff.mp hj).2 (List.mem_of_mem_filter hmem)) hlt
  · rw [List.pairwise_map, entriesAt, List.pairwise_filterMap]
    refine hsorted.imp_of_mem fun {j k} hj hk hlt e he f hf => ?_
    obtain ⟨-, -, -, -, hpair⟩ := (hready k f hf).mp hk
    exact hpair e (mem_entriesAt_iff.mpr ⟨j, List.mem_filter.mpr ⟨hj, decide_eq_true hlt⟩, he⟩)

end Sys2Proof.Machine
end

section
/-!
PROOFS. The back end (O16 to O18, O22, O23, O30, O31, O58, O59). The layer underneath says what ALU and MEM do with a
record of each class they can handle, what a lane of Writeback leaves behind it, and which state a cycle that ends
RUNNING has gone through.
-/

open Sys2Proof Sys2Proof.Machine Sys2Proof.Statements
open Host (Outcome)

namespace Sys2Proof.Machine

/-! ## An instruction in the ALU stage (R211 to R213) -/

/-- The classes the ALU computes a result for are those it sends to PostALU. -/
theorem recordAluOutput_of_aluResult {i : Instr} {s : State} {v : Word} (h : aluResult i s = some v) (a : Word) :
    isControl i = false ∧ (isStore i || isLoad i) = false ∧ recordAluOutput s ⟨a, .instr i⟩ = v := by
  cases i with
  | j | beq | bgtz | brk | sw | lw => cases h
  | add | sub | mul | and | or | xor | nor | addi | andi | ori | xori => exact ⟨rfl, rfl, Option.some.inj h⟩

/-- The result is a function of the registers (R216). -/
theorem aluResult_congr {s t : State} (h : t.x = s.x) (i : Instr) : aluResult i t = aluResult i s := by
  simp only [aluResult, readReg, h]

theorem exec_alu_of_aluResult {i : Instr} {s : State} {v : Word} (hp : s.active.phase = .alu)
    (hroom : s.postALU.entries = []) (h : aluResult i s = some v) :
    exec i s = .next (addPostALU (entryOf s i (some v)) s) := by
  obtain ⟨hord, hmem, hv⟩ := recordAluOutput_of_aluResult h s.active.address
  rcases exec_alu (i := i) hp with ⟨hc, -⟩ | ⟨hm, -⟩ | ⟨-, -, he⟩
  · cases hc.symm.trans hord
  · cases hm.symm.trans hmem
  · rw [he, activeRecord, hv, push_of_room (by simp [hroom])]
    rfl

/-- Settles O16: each clause is the class's row of `aluResult`. -/
theorem registerArithmeticInTheAluStage : Obligations.RegisterArithmeticInTheAluStage := fun _ _ _ _ hp hroom =>
  ⟨exec_alu_of_aluResult hp hroom rfl, exec_alu_of_aluResult hp hroom rfl, exec_alu_of_aluResult hp hroom rfl,
    exec_alu_of_aluResult hp hroom rfl, exec_alu_of_aluResult hp hroom rfl, exec_alu_of_aluResult hp hroom rfl,
    exec_alu_of_aluResult hp hroom rfl⟩

/-- Settles O17, as O16. -/
theorem immediateArithmeticInTheAluStage : Obligations.ImmediateArithmeticInTheAluStage := fun _ _ _ _ hp hroom =>
  ⟨exec_alu_of_aluResult hp hroom rfl, exec_alu_of_aluResult hp hroom rfl, exec_alu_of_aluResult hp hroom rfl,
    exec_alu_of_aluResult hp hroom rfl⟩

theorem exec_alu_memory_of_room {i : Instr} {s : State} (hp : s.active.phase = .alu)
    (hm : (isStore i || isLoad i) = true) (hroom : s.preMEM.entries = []) :
    exec i s =
      .next (addPreMEM (entryOf s i (some (recordAluOutput s (activeRecord (.instr i) s)))) s) := by
  rw [exec_alu_memory hp hm, push_of_room (by simp [hroom])]
  rfl

/-- Settles O18: the ALU's output of SW and LW is the effective address. -/
theorem effectiveAddressInTheAluStage : Obligations.EffectiveAddressInTheAluStage := fun _ _ _ _ hp hroom =>
  ⟨exec_alu_memory_of_room hp rfl hroom, exec_alu_memory_of_room hp rfl hroom⟩

/-! ## An instruction in the MEM stage (R221, R222) -/

theorem exec_lw_mem_of_memRead {s : State} {a v : Word} (b rt : RegIdx) (o : Imm)
    (hp : s.active.phase = .mem (some a)) (hv : memRead a s = .ok v) :
    exec (.lw b rt o) s = .next (push .postMEM (entryOf s (.lw b rt o) (some v)) s) := by
  simp only [exec, execLw, load, hp, hv]
  rfl

theorem readWord_of_memRead {s : State} {a v : Word} (h : memRead a s = .ok v) :
    Memory.readWord s.mem a.toNat = v := by
  rcases memRead_spec a s with ⟨-, hok⟩ | ⟨-, herr⟩
  · exact Except.ok.inj (hok.symm.trans h)
  · cases herr.symm.trans h

/-- Settles O22: at a valid address SW is one word write, and the laws of data memory say what that reads as. -/
theorem storeInTheMemStage : Obligations.StoreInTheMemStage := by
  intro s b rt o a hwf hp ha
  have hstore := exec_sw_mem b rt o hp
  rw [memWrite_of_validData _ ha] at hstore
  refine ⟨_, hstore, rfl, ?word, fun n => Memory.readByte_writeWord_ne s.mem _⟩
  case word =>
    have hvalid : validData { s with mem := Memory.writeWord s.mem a.toNat (readReg s rt) } a = true := ha
    rw [memRead_of_validData hvalid, Memory.readWord_writeWord_same hwf]

/-- Settles O23: the word read goes to PostMEM, which has room. -/
theorem loadInTheMemStage : Obligations.LoadInTheMemStage := by
  intro s b rt o a v hp hroom hv
  rw [exec_lw_mem_of_memRead b rt o hp hv, push_of_room (by simp [hroom])]
  rfl

/-! ## A stage and the head of its queue (R210, R220, R230) -/

theorem aluStage_of_nil {s : State} (h : s.preALU.entries = []) : aluStage s = .next s := by
  rw [aluStage, pop_of_nil (q := .preALU) h]

theorem aluStage_of_cons {s : State} {e : Entry} {es : List Entry} (h : s.preALU.entries = e :: es) :
    aluStage s = runRecord e.record .alu (setEntries .preALU es s) := by
  rw [aluStage, pop_of_cons (q := .preALU) h]

theorem memStage_of_nil {s : State} (h : s.preMEM.entries = []) : memStage s = .next s := by
  rw [memStage, pop_of_nil (q := .preMEM) h]

theorem memStage_of_cons {s : State} {e : Entry} {es : List Entry} (h : s.preMEM.entries = e :: es) :
    memStage s = runRecord e.record (.mem e.cached) (setEntries .preMEM es s) := by
  rw [memStage, pop_of_cons (q := .preMEM) h]

theorem commitLane_of_nil {q : QueueName} {s : State} (h : (queueOf s q).entries = []) : commitLane q s = .next s := by
  rw [commitLane, pop_of_nil h]

theorem commitLane_of_cons {q : QueueName} {s : State} {e : Entry} {es : List Entry}
    (h : (queueOf s q).entries = e :: es) :
    commitLane q s = runRecord e.record (.writeback e.cached) (setEntries q es s) := by
  rw [commitLane, pop_of_cons h]

theorem runRecord_of_instr {r : Record} {i : Instr} (h : r.body = .instr i) (p : Phase) (s : State) :
    runRecord r p s = exec i { s with active := ⟨r.address, p⟩ } := by
  simp only [runRecord, h, activate]

/-- Settles O30: each stage is a `pop` of its queue and the run of what came out. -/
theorem backEndStagesRunTheirHead : Obligations.BackEndStagesRunTheirHead := fun s _ _ _ =>
  ⟨aluStage_of_nil, memStage_of_nil, commitLane_of_nil (q := .postMEM), commitLane_of_nil (q := .postALU),
    aluStage_of_cons, memStage_of_cons, commitLane_of_cons (q := .postMEM), commitLane_of_cons (q := .postALU),
    fun _ p h => runRecord_of_instr h p s⟩

/-! ## What a lane of Writeback leaves behind it (R231) -/

/-- The state after a lane has committed the value `v` of record `r` to register `d`, with `es` left in queue `q`. -/
def afterCommit (q : QueueName) (r : Record) (v : Word) (d : RegIdx) (es : List Entry) (s : State) : State :=
  release d (writeReg d v (activate r (.writeback (some v)) (setEntries q es s)))

theorem commitLane_eq_afterCommit {q : QueueName} {s : State} {r : Record} {v : Word} {d : RegIdx} {es : List Entry}
    (hq : (queueOf s q).entries = ⟨r, some v⟩ :: es) (hd : recordDest r = some d) :
    commitLane q s = .next (afterCommit q r v d es s) := by
  rw [commitLane_of_cons hq, runRecord_writeback, hd]
  rfl

section
variable (q : QueueName) (r : Record) (v : Word) (d : RegIdx) (es : List Entry) (s : State)

@[simp] theorem readReg_afterCommit_same : readReg (afterCommit q r v d es s) d = v :=
  readReg_writeReg_same d v _

theorem readReg_afterCommit_ne {p : RegIdx} (h : p ≠ d) : readReg (afterCommit q r v d es s) p = readReg s p := by
  have hpop : readReg (activate r (.writeback (some v)) (setEntries q es s)) p = readReg s p := by simp [readReg]
  exact (readReg_writeReg_ne v _ h).trans hpop

@[simp] theorem slotOf_afterCommit_same : slotOf (afterCommit q r v d es s).rrtn d = none :=
  slotOf_release_same d _

theorem slotOf_afterCommit_ne {p : RegIdx} (h : p ≠ d) :
    slotOf (afterCommit q r v d es s).rrtn p = slotOf s.rrtn p := by
  have hpop : (writeReg d v (activate r (.writeback (some v)) (setEntries q es s))).rrtn = s.rrtn := by simp
  exact (slotOf_release_ne _ h).trans (congrArg (slotOf · p) hpop)

theorem slotOf_afterCommit_of_none {p : RegIdx} (h : slotOf s.rrtn p = none) :
    slotOf (afterCommit q r v d es s).rrtn p = none := by
  by_cases hp : p = d
  · rw [hp, slotOf_afterCommit_same]
  · rw [slotOf_afterCommit_ne q r v d es s hp, h]

@[simp] theorem afterCommit_status : (afterCommit q r v d es s).status = s.status := by
  simp [afterCommit]

end

/-- Settles O31: two commits, the second of which finds its queue as it was and overwrites where they coincide. -/
theorem writebackCommitsBothLanes : Obligations.WritebackCommitsBothLanes := by
  intro s m a dm da vm va hs hm ha hdm hda
  have hstage : writebackStage s =
      .next (afterCommit .postALU a va da [] (afterCommit .postMEM m vm dm [] s)) := by
    rw [writebackStage, commitLane_eq_afterCommit (q := .postMEM) hm hdm, thenIfRunning_of_running (by simpa using hs)]
    exact commitLane_eq_afterCommit (q := .postALU) ha hda
  refine ⟨_, hstage, readReg_afterCommit_same .., fun hne => ?first, fun r hrm hra => ?others,
    slotOf_afterCommit_of_none _ _ _ _ _ _ (slotOf_afterCommit_same ..), slotOf_afterCommit_same ..,
    fun r hrm hra => ?slots, rfl⟩
  case first => rw [readReg_afterCommit_ne _ _ _ _ _ _ hne, readReg_afterCommit_same]
  case others => rw [readReg_afterCommit_ne _ _ _ _ _ _ hra, readReg_afterCommit_ne _ _ _ _ _ _ hrm]
  case slots => rw [slotOf_afterCommit_ne _ _ _ _ _ _ hra, slotOf_afterCommit_ne _ _ _ _ _ _ hrm]

/-! ## The cycle that commits a head of PostALU or PostMEM (R230 to R232, R235) -/

theorem commitLane_postMEM_postALU {s t : State} (h : commitLane .postMEM s = .next t) : t.postALU = s.postALU := by
  obtain ⟨es, hframe⟩ := commitLane_frame h
  rw [hframe]
  rfl

/-- What stands in PostALU when Writeback begins is committed, the lane before it having raised nothing. -/
theorem writebackStage_commits_postALU {s t : State} {r : Record} {v : Word} {d : RegIdx} {es : List Entry}
    (hclasses : QueuesHoldTheirClasses s) (hs : s.status = .running)
    (hq : s.postALU.entries = ⟨r, some v⟩ :: es) (hd : recordDest r = some d) (h : writebackStage s = .next t) :
    readReg t d = v := by
  obtain ⟨u, hu, ⟨-, ht⟩ | ⟨hn, -⟩⟩ := thenIfRunning_cases h
  · rw [commitLane_eq_afterCommit (q := .postALU) (commitLane_postMEM_postALU hu ▸ hq) hd] at ht
    obtain rfl := Outcome.next.inj ht
    exact readReg_afterCommit_same ..
  · exact absurd ((commitLane_status_of_fits (.inl rfl) (queuesHoldTheirClasses_iff.mp hclasses) hu).trans hs) hn

/-- No entry of PostALU writes the register an entry of PostMEM writes (R47). -/
theorem OneWriterPerRegister.postALU_dest_ne {s : State} (h : OneWriterPerRegister s) {e f : Entry} {d : RegIdx}
    (he : e ∈ s.postMEM.entries) (hd : recordDest e.record = some d) (hf : f ∈ s.postALU.entries) :
    recordDest f.record ≠ some d := by
  obtain ⟨hnodup, -, -⟩ := h
  rw [inFlight, List.filterMap_append, List.nodup_append] at hnodup
  obtain ⟨-, -, hapart⟩ := hnodup
  intro hfd
  exact hapart d (List.mem_filterMap.mpr ⟨f, by simp [hf], hfd⟩) d (List.mem_filterMap.mpr ⟨e, he, hd⟩) rfl

/-- What stands in PostMEM when Writeback begins is committed, and the lane after it writes another register. -/
theorem writebackStage_commits_postMEM {s t : State} {r : Record} {v : Word} {d : RegIdx} {es : List Entry}
    (hwriters : OneWriterPerRegister s) (hq : s.postMEM.entries = ⟨r, some v⟩ :: es) (hd : recordDest r = some d)
    (h : writebackStage s = .next t) : readReg t d = v := by
  obtain ⟨u, hu, hrest⟩ := thenIfRunning_cases h
  have hqueue := commitLane_postMEM_postALU hu
  rw [commitLane_eq_afterCommit (q := .postMEM) hq hd] at hu
  obtain rfl := Outcome.next.inj hu
  rcases hrest with ⟨-, ht⟩ | ⟨-, rfl⟩
  · rcases commitLane_readReg ht d with hkept | ⟨f, hf, hfd, -⟩
    · rw [hkept, readReg_afterCommit_same]
    · rw [queueOf_postALU, hqueue] at hf
      exact absurd hfd (hwriters.postALU_dest_ne (by rw [hq]; exact List.mem_cons_self ..) hd (List.mem_of_head? hf))
  · exact readReg_afterCommit_same ..

/-- A cycle leaves the registers as Writeback left them. -/
theorem step_registers {s t : State} (hs : s.status = .running) (h : step s = .next t) :
    ∃ u, writebackStage (beginCycle s) = .next u ∧ ∀ r, readReg t r = readReg u r := by
  rcases step_cases h with ⟨hn, -⟩ | ⟨-, w, hcycle, rfl⟩
  · exact absurd hs hn
  obtain ⟨u, hu, ⟨-, rfl⟩ | ⟨-, v, hv, hdata⟩⟩ := hcycle.sameData_memStage
  · exact ⟨_, hu, fun _ => rfl⟩
  · refine ⟨u, hu, fun r => (hdata.readReg r).trans ?_⟩
    rw [memStage_frame hv]
    rfl

/-! ## The cycle that fills PostALU or PostMEM (R210, R220) -/

/-- MEM and ALU of a cycle from `s` that raised nothing took the machine from `u` over `v` to `w`, and `t` is its end. -/
structure Completes (s u v w t : State) : Prop where
  writeback : writebackStage (beginCycle s) = .next u
  mem : memStage u = .next v
  alu : aluStage v = .next w
  mem_running : v.status = .running
  alu_running : w.status = .running
  registers : t.x = v.x
  postALU : t.postALU.entries = w.postALU.entries
  postMEM : t.postMEM.entries = v.postMEM.entries

/-- A step to a running machine has run every stage, none of which raised. -/
theorem completes_of_step {s t : State} (h : step s = .next t) (ht : t.status = .running) :
    ∃ u v w, Completes s u v w t := by
  rcases step_cases h with ⟨hn, rfl⟩ | ⟨-, z, hcycle, rfl⟩
  · exact absurd ht hn
  cases hcycle with
  | writeback _ hn e => subst e; exact absurd ht hn
  | mem _ _ _ hn e => subst e; exact absurd ht hn
  | alu _ _ _ _ _ hn e => subst e; exact absurd ht hn
  | issue _ _ _ _ _ _ _ hn e => subst e; exact absurd ht hn
  | fetch _ _ _ _ _ _ _ _ _ hn e => subst e; exact absurd ht hn
  | complete hu _ hv vrun hw wrun ha arun hb _ e =>
    subst e
    refine ⟨_, _, _, hu, hv, hw, vrun, wrun, ?registers, ?postALU, ?postMEM⟩
    case registers | postMEM =>
      rw [terminationTest_frame, fetchStage_frame arun hb, issueStage_frame wrun ha, aluStage_frame hw]
      rfl
    case postALU =>
      rw [terminationTest_frame, fetchStage_frame arun hb, issueStage_frame wrun ha]
      rfl

section
variable {s u v w t : State}

/-- An instruction with a result at the head of PreALU leaves it alone in PostALU, computed from the registers of the
cycle's end (R211, R212, R216). -/
theorem Completes.postALU_of_result (h : Completes s u v w t) {a : Word} {i : Instr} {c : Option Word}
    {es : List Entry} {x : Word} (hq : s.preALU.entries = ⟨⟨a, .instr i⟩, c⟩ :: es) (hx : aluResult i t = some x) :
    t.postALU.entries = [⟨⟨a, .instr i⟩, some x⟩] := by
  have hhead : v.preALU.entries = ⟨⟨a, .instr i⟩, c⟩ :: es := by
    rw [memStage_frame h.mem, writebackStage_frame h.writeback]
    exact hq
  rw [aluResult_congr h.registers] at hx
  obtain ⟨-, hmem, hout⟩ := recordAluOutput_of_aluResult hx a
  rw [h.postALU]
  rcases aluStage_cases h.alu with ⟨hnil, -⟩ | ⟨e, fs, hcons, hcase⟩
  · cases hnil.symm.trans hhead
  obtain ⟨rfl, rfl⟩ := List.cons.inj (hcons.symm.trans hhead)
  rcases hcase with ⟨f, hf, -⟩ | ⟨hm, -, -⟩ | ⟨-, -, -, hw⟩
  · have hrun := h.alu_running
    rw [hf] at hrun
    cases hrun
  · cases hm.symm.trans hmem
  · rw [hw, hout]
    rfl

/-- A load at the head of PreMEM leaves the word it read alone in PostMEM (R222). -/
theorem Completes.postMEM_of_load (h : Completes s u v w t) {a ea x : Word} {b rt : RegIdx} {o : Imm}
    {es : List Entry} (hq : s.preMEM.entries = ⟨⟨a, .instr (.lw b rt o)⟩, some ea⟩ :: es)
    (hx : memRead ea s = .ok x) : t.postMEM.entries = [⟨⟨a, .instr (.lw b rt o)⟩, some x⟩] := by
  obtain ⟨hmem, hqueue, -⟩ := writebackStage_keeps_memInput h.writeback
  rw [h.postMEM]
  rcases memStage_cases h.mem with ⟨hnil, -⟩ | ⟨e, fs, hcons, hcase⟩
  · cases (hqueue.symm.trans hnil).symm.trans hq
  obtain ⟨rfl, rfl⟩ := List.cons.inj ((hqueue.symm.trans hcons).symm.trans hq)
  rcases hcase with ⟨f, hf, -⟩ | ⟨_, -, hstore, -⟩ | ⟨_, hea, -, -, -, hv⟩
  · have hrun := h.mem_running
    rw [hf] at hrun
    cases hrun
  · cases hstore
  · obtain rfl := Option.some.inj hea
    rw [hv, hmem, readWord_of_memRead hx]
    rfl

end

/-! ## Two cycles from the stage to the register (R216, R222, R231, R235) -/

/-- Settles O58: the first cycle leaves the result in PostALU, and Writeback of the second commits it. -/
theorem arithmeticReachesItsRegisterInTwoCycles : Obligations.ArithmeticReachesItsRegisterInTwoCycles := by
  intro s t u a i c es d v hs hq h ht h' hd hv
  obtain ⟨-, hclasses, -⟩ := everyStepKeepsTheInvariant s t hs h
  obtain ⟨w1, w2, w3, hcycle⟩ := completes_of_step h ht
  have hresult := hcycle.postALU_of_result hq hv
  obtain ⟨z, hz, hx⟩ := step_registers ht h'
  have hbegin : QueuesHoldTheirClasses (beginCycle t) := hclasses
  rw [hx]
  exact writebackStage_commits_postALU hbegin ht hresult hd hz

/-- Settles O59: the first cycle leaves the word in PostMEM, and Writeback of the second commits it; no other entry in
flight writes that register. -/
theorem loadReachesItsRegisterInTwoCycles : Obligations.LoadReachesItsRegisterInTwoCycles := by
  intro s t u a ea v b rt o es hs hq hv h ht h'
  obtain ⟨-, -, hwriters, -⟩ := everyStepKeepsTheInvariant s t hs h
  obtain ⟨w1, w2, w3, hcycle⟩ := completes_of_step h ht
  have hword := hcycle.postMEM_of_load hq hv
  obtain ⟨z, hz, hx⟩ := step_registers ht h'
  have hbegin : OneWriterPerRegister (beginCycle t) := hwriters (notAborted_of_running ht)
  rw [hx]
  exact writebackStage_commits_postMEM hbegin hword rfl hz

end Sys2Proof.Machine
end

section
/-!
PROOFS. The Cycle Orchestrator (O39, O41, O43). Two facts carry it: a cycle counts itself once and leaves the program
alone, and a cycle without a fault ends with what the termination test says of the region it started with.
-/

open Sys2Proof Sys2Proof.Machine Sys2Proof.Statements
open Host (Outcome)

namespace Sys2Proof.Machine

/-! ## The stages in their order (R244) -/

/-- When no stage of the back end raises, the back end answers what Issue leaves. -/
theorem backEnd_of_stages {s u v w t : State} (hu : writebackStage s = .next u) (hur : u.status = .running)
    (hv : memStage u = .next v) (hvr : v.status = .running) (hw : aluStage v = .next w) (hwr : w.status = .running)
    (ht : issueStage w = .next t) : backEnd s = .next t := by
  rw [backEnd, hu, thenIfRunning_of_running hur, hv, thenIfRunning_of_running hvr, hw, thenIfRunning_of_running hwr, ht]

theorem endOfCycle_of_running {t : State} (ht : t.status = .running) :
    endOfCycle (.next t) = .next (rest (terminationTest t)) := if_pos ht

/-- Settles O39: the back end answers what Issue left, Fetch runs on it, and the termination test ends the cycle. -/
theorem cycleIsTheSixSteps : Obligations.CycleIsTheSixSteps := by
  intro s s2 s3 s4 s5 s6 hs h2 r2 h3 r3 h4 r4 h5 r5 h6 r6
  have hback : backEnd (beginCycle s) = .next s5 := backEnd_of_stages h2 r2 h3 r3 h4 r4 h5
  rw [step_eq_endOfCycle hs hback, if_pos r5, h6, endOfCycle_of_running r6]
  rfl

/-! ## What a cycle counts and leaves alone (R43, R404) -/

/-- With or without a fault, a cycle raises `cycle` by one and leaves the program where it stands. -/
theorem step_cycle_and_program {s t : State} (hs : s.status = .running) (h : step s = .next t) :
    t.cycle = s.cycle + 1 ∧ t.imem = s.imem ∧ t.instrBase = s.instrBase := by
  obtain ⟨u, hb⟩ := backEnd_next (beginCycle s)
  have hback : u.cycle = s.cycle + 1 ∧ u.imem = s.imem ∧ u.instrBase = s.instrBase := by
    rw [backEnd_frame hb]
    exact ⟨rfl, rfl, rfl⟩
  rw [step_eq_endOfCycle hs hb] at h
  split at h
  next hu =>
    obtain ⟨v, hv⟩ := fetchStage_next u
    rw [hv] at h
    rw [endOfCycle_frame h, fetchStage_frame hu hv]
    exact hback
  next =>
    obtain rfl := Outcome.next.inj h
    exact hback

theorem step_of_not_running {s : State} (hs : s.status ≠ .running) : step s = .next s := if_neg hs

theorem step_next (s : State) : ∃ t, step s = .next t := by
  by_cases hs : s.status = .running
  · obtain ⟨t, ht⟩ := cycleOnce_next s
    exact ⟨rest t, by rw [step, clockEdge_of_running hs, ht, restOutcome]⟩
  · exact ⟨s, step_of_not_running hs⟩

/-- Settles O41: a machine that is not RUNNING stays as it is, and a cycle always has an answer, counted once. -/
theorem onlyRunningMachinesCycle : Obligations.OnlyRunningMachinesCycle := by
  refine ⟨fun s => ⟨step_of_not_running, fun hs => ?_⟩, rfl⟩
  obtain ⟨t, ht⟩ := step_next s
  exact ⟨t, ht, (step_cycle_and_program hs ht).1⟩

/-! ## Where the run ends (R242, R245) -/

/-- The executable region depends on the program and its base only. -/
theorem inExec_congr {s t : State} (himem : t.imem = s.imem) (hbase : t.instrBase = s.instrBase) (a : Word) :
    inExec t a = inExec s a := by
  rw [Bool.eq_iff_iff, inExec_iff, inExec_iff, dataBase, dataBase, himem, hbase]

/-- A cycle without a fault goes on inside the region in which it started, and ends the run outside it. -/
theorem step_status {s t : State} (hs : s.status = .running) (h : step s = .next t) (ht : NotAborted t) :
    (t.status = .running ∧ inExec s t.pc = true) ∨ (t.status = .terminated ∧ inExec s t.pc = false) := by
  obtain ⟨-, himem, hbase⟩ := step_cycle_and_program hs h
  rw [← inExec_congr himem hbase]
  rcases step_cases h with ⟨hn, -⟩ | ⟨-, u, hcycle, rfl⟩
  · exact absurd hs hn
  · rcases hcycle.status hs with ⟨f, hf⟩ | hend
    · exact absurd hf (ht f)
    · exact hend

/-- Settles O43: the two ends of a cycle without a fault exclude each other, in `status` and in `pc`. -/
theorem runEndsExactlyOutsideTheRegion : Obligations.RunEndsExactlyOutsideTheRegion := by
  intro s t hs h ht
  rw [← inExec_iff]
  rcases step_status hs h ht with ⟨hstatus, hin⟩ | ⟨hstatus, hin⟩
  · simp [hstatus, hin]
  · simp [hstatus, hin]

end Sys2Proof.Machine
end

section
/-!
PROOFS. Control transfer (O25 to O28). A control-transfer instruction that a fetch slot reaches has one of two answers,
which `sourceBlocked` over its sources tells apart; each class then says only which sources and which outcome it has.
-/

open Sys2Proof Sys2Proof.Machine Sys2Proof.Statements

namespace Sys2Proof.Machine

/-! ## Waiting and resolving in a fetch slot (R150 to R153) -/

theorem branchBlocked_iff_sourceBlocked {s : State} {srcs : List RegIdx} {slot : FetchSlot} {fd : Option RegIdx} :
    branchBlocked s srcs slot fd = true ↔ ∃ r ∈ srcs, sourceBlocked s slot fd r :=
  branchBlocked_iff

section
variable {s : State} {i : Instr} {slot : FetchSlot} {fd : Option RegIdx}

theorem exec_fetch_waits (hphase : s.active.phase = .fetch slot fd) (hcontrol : isControl i = true)
    (hblocked : ∃ r ∈ srcsOf i, sourceBlocked s slot fd r) : exec i s = .next (waitingFor i s) := by
  rw [exec_fetch_control hphase hcontrol, if_pos (branchBlocked_iff_sourceBlocked.mpr hblocked)]
  rfl

theorem exec_fetch_resolves (hphase : s.active.phase = .fetch slot fd) (hcontrol : isControl i = true)
    (hfree : ¬∃ r ∈ srcsOf i, sourceBlocked s slot fd r) :
    exec i s = .next (resolvedTo i (recordOutcome s (activeRecord (.instr i) s)) s) := by
  rw [exec_fetch_control hphase hcontrol, if_neg (mt branchBlocked_iff_sourceBlocked.mp hfree)]
  rfl

end

/-! ## J (R155, R300) -/

/-- Settles O25: J has no source that could block it. -/
theorem jumpResolvesInEveryState : Obligations.JumpResolvesInEveryState := by
  intro s target slot fd hphase
  have hfree : ¬∃ r ∈ srcsOf (.j target), sourceBlocked s slot fd r := by simp [srcsOf]
  exact exec_fetch_resolves hphase rfl hfree

/-! ## BEQ and BGTZ (R301, R302) -/

theorem beqTaken_of_eq {s : State} {rs rt : RegIdx} (h : readReg s rs = readReg s rt) : beqTaken s rs rt = true :=
  beq_iff_eq.mpr h

theorem beqTaken_of_ne {s : State} {rs rt : RegIdx} (h : readReg s rs ≠ readReg s rt) : beqTaken s rs rt = false :=
  beq_eq_false_iff_ne.mpr h

theorem bgtzTaken_of_pos {s : State} {rs : RegIdx} (h : 0 < (readReg s rs).toInt) : bgtzTaken s rs = true :=
  decide_eq_true h

theorem bgtzTaken_of_nonpos {s : State} {rs : RegIdx} (h : (readReg s rs).toInt ≤ 0) : bgtzTaken s rs = false :=
  decide_eq_false (Int.not_lt.mpr h)

theorem branchTarget_taken (a : Word) (o : Imm) : branchTarget a true o = a + 4#32 + (o.setWidth 32 <<< 2) := rfl

theorem branchTarget_not_taken (a : Word) (o : Imm) : branchTarget a false o = a + 4#32 := rfl

section
variable {s : State} {slot : FetchSlot} {fd : Option RegIdx}

theorem exec_fetch_beq {rs rt : RegIdx} (hphase : s.active.phase = .fetch slot fd)
    (hfree : ¬(sourceBlocked s slot fd rs ∨ sourceBlocked s slot fd rt)) (o : Imm) :
    exec (.beq rs rt o) s =
      .next (resolvedTo (.beq rs rt o) (branchTarget s.active.address (beqTaken s rs rt) o) s) :=
  exec_fetch_resolves hphase rfl (by simpa [srcsOf] using hfree)

theorem exec_fetch_bgtz {rs : RegIdx} (hphase : s.active.phase = .fetch slot fd)
    (hfree : ¬sourceBlocked s slot fd rs) (o : Imm) :
    exec (.bgtz rs o) s = .next (resolvedTo (.bgtz rs o) (branchTarget s.active.address (bgtzTaken s rs) o) s) :=
  exec_fetch_resolves hphase rfl (by simpa [srcsOf] using hfree)

end

/-- Settles O26: the sources of BEQ are `rs` and `rt`, and equality chooses its target. -/
theorem branchEqualWaitsOrResolves : Obligations.BranchEqualWaitsOrResolves := by
  intro s rs rt o slot fd hphase
  refine ⟨fun hblocked => ?_, fun hfree => ⟨fun heq => ?_, fun hne => ?_⟩⟩
  · exact exec_fetch_waits hphase rfl (by simpa [srcsOf] using hblocked)
  · rw [exec_fetch_beq hphase hfree, beqTaken_of_eq heq, branchTarget_taken]
  · rw [exec_fetch_beq hphase hfree, beqTaken_of_ne hne, branchTarget_not_taken]

/-- Settles O27: the source of BGTZ is `rs`, and its sign chooses the target. -/
theorem branchGreaterThanZeroWaitsOrResolves : Obligations.BranchGreaterThanZeroWaitsOrResolves := by
  intro s rs o slot fd hphase
  refine ⟨fun hblocked => ?_, fun hfree => ⟨fun hpos => ?_, fun hnonpos => ?_⟩⟩
  · exact exec_fetch_waits hphase rfl (by simpa [srcsOf] using hblocked)
  · rw [exec_fetch_bgtz hphase hfree, bgtzTaken_of_pos hpos, branchTarget_taken]
  · rw [exec_fetch_bgtz hphase hfree, bgtzTaken_of_nonpos hnonpos, branchTarget_not_taken]

/-! ## BREAK (R11, R303) -/

/-- R11: a BREAK among the executable records is the last of them. -/
theorem nexecOf_eq_of_break {rs : List Record} {k : Nat} {r : Record} (hk : rs[k]? = some r)
    (hbreak : isBreak r = true) (hexec : k < nexecOf rs) : nexecOf rs = k + 1 := by
  induction rs generalizing k with
  | nil => cases hk
  | cons r' rs ih =>
    cases k with
    | zero =>
      obtain rfl : r' = r := Option.some.inj hk
      rw [nexecOf, if_pos hbreak]
    | succ k =>
      rw [nexecOf] at hexec ⊢
      split at hexec
      next => omega
      next hother => rw [if_neg hother, ih hk (by omega)]

/-- The data region of a loaded program begins with the word behind its BREAK (R401). -/
theorem ProgramLoaded.dataBase_eq_of_break {s : State} (h : ProgramLoaded s) {a : Word} (hin : inExec s a = true)
    (hat : recordAt s a = some ⟨a, .instr .brk⟩) : dataBase s = a.toNat + 4 := by
  have haddr : a.toNat = s.instrBase.toNat + 4 * ((a.toNat - s.instrBase.toNat) / 4) := h.toNat_address hat
  obtain ⟨-, hlt⟩ := inExec_iff.mp hin
  unfold dataBase at hlt ⊢
  have hlast := nexecOf_eq_of_break hat rfl (by omega)
  omega

/-- Settles O28: BREAK has no source that could block it, and in a loaded program it ends the executable records. -/
theorem breakResolvesToDataBase : Obligations.BreakResolvesToDataBase := fun _ _ _ hphase =>
  ⟨exec_fetch_brk hphase, fun hloaded hin hat => hloaded.dataBase_eq_of_break hin hat⟩

end Sys2Proof.Machine
end

section
/-!
PROOFS. The fatal faults of a cycle (O45, O55). From queues that hold their classes Writeback raises nothing and empties
its two queues by one entry each, which is the room MEM and ALU push into; in a loaded program Fetch meets no DATA
record. What remains is the address test of MEM.
-/

open Sys2Proof Sys2Proof.Machine Sys2Proof.Statements
open Host (Outcome)

namespace Sys2Proof.Machine

/-! ## What Writeback leaves for MEM (R230, R234) -/

theorem commitLane_pops {q : QueueName} {s t : State} (h : commitLane q s = .next t) :
    (queueOf t q).entries = (queueOf s q).entries.tail := by
  rcases commitLane_cases h with ⟨hnil, rfl⟩ | ⟨e, es, hes, ⟨-, rfl⟩ | ⟨d, v, -, -, rfl⟩⟩
  · rw [hnil, List.tail_nil]
  all_goals
    rw [hes]
    cases q <;> rfl

theorem commitLane_postALU_postMEM {s t : State} (h : commitLane .postALU s = .next t) : t.postMEM = s.postMEM := by
  obtain ⟨es, hframe⟩ := commitLane_frame h
  rw [hframe]
  rfl

/-- What MEM finds behind a Writeback that raised nothing: its input as it stood, and each lane's queue without its
head. -/
structure MemFinds (s u : State) : Prop where
  running : u.status = .running
  preMEM : u.preMEM.entries = s.preMEM.entries
  valid : ∀ a, validData u a = validData s a
  postMEM : u.postMEM.entries = s.postMEM.entries.tail
  postALU : u.postALU.entries = s.postALU.entries.tail

theorem memFinds_of_writeback {s u : State} (hs : s.status = .running) (hclasses : QueuesHoldTheirClasses s)
    (h : writebackStage (beginCycle s) = .next u) : MemFinds s u := by
  have hbegin : QueuesHoldTheirClasses (beginCycle s) := hclasses
  have hfits := queuesHoldTheirClasses_iff.mp hbegin
  obtain ⟨-, hpre, hvalid⟩ := writebackStage_keeps_memInput h
  obtain ⟨w, hw, ⟨-, hu⟩ | ⟨hn, -⟩⟩ := thenIfRunning_cases h
  case inr => exact absurd ((commitLane_status_of_fits (.inl rfl) hfits hw).trans hs) hn
  have hmem : u.postMEM.entries = s.postMEM.entries.tail := by
    rw [commitLane_postALU_postMEM hu]
    exact commitLane_pops hw
  have halu : u.postALU.entries = w.postALU.entries.tail := commitLane_pops hu
  rw [commitLane_postMEM_postALU hw] at halu
  exact ⟨(writebackStage_status_of_fits hfits h).trans hs, hpre, hvalid, hmem, halu⟩

/-! ## The fault of MEM (R64, R343) -/

/-- The head of PreMEM carries an invalid address, and `f` is the fault that names it. -/
def MemFault (s : State) (f : Fault) : Prop :=
  ∃ e a, s.preMEM.entries.head? = some e ∧ e.cached = some a ∧ validData s a = false ∧ f = .dataAddressFault a

theorem MemFinds.memFault_iff {s u : State} (h : MemFinds s u) {f : Fault} : MemFault u f ↔ MemFault s f := by
  simp only [MemFault, h.preMEM, h.valid]

/-- At an invalid address MEM pops the entry and raises, and does nothing else. -/
theorem memStage_of_invalid {s : State} {r : Record} {a : Word} {es : List Entry}
    (hq : s.preMEM.entries = ⟨r, some a⟩ :: es) (hr : recordIsMemory r = true) (ha : validData s a = false) :
    memStage s = .next (raiseFault (.dataAddressFault a) (activate r (.mem (some a)) (setEntries .preMEM es s))) := by
  obtain ⟨t, h⟩ := memStage_next s
  rw [h]
  rcases memStage_cases h with ⟨hnil, -⟩ | ⟨e, fs, hcons, hcase⟩
  · cases hnil.symm.trans hq
  obtain ⟨rfl, rfl⟩ := List.cons.inj (hcons.symm.trans hq)
  rcases hcase with ⟨f, rfl, hf⟩ | ⟨b, hb, -, hvalid, -⟩ | ⟨b, hb, -, hvalid, -⟩
  case inl =>
    rcases hf with ⟨-, hclass | hnone⟩ | ⟨b, rfl, hb, -, -⟩ | ⟨-, -, -, b, hb, hvalid⟩
    · cases hclass.symm.trans hr
    · cases hnone
    · cases hb
      rfl
    · cases hb
      cases hvalid.symm.trans ha
  all_goals
    cases hb
    cases hvalid.symm.trans ha

/-- With its classes in PreMEM and room in PostMEM, MEM has the address fault and no other. -/
theorem memStage_aborted_iff {s t : State} {f : Fault} (hs : s.status = .running)
    (hfits : ∀ e ∈ s.preMEM.entries, entryFits .preMEM e) (hroom : s.postMEM.entries = [])
    (h : memStage s = .next t) : t.status = .aborted f ↔ MemFault s f := by
  constructor
  case mp =>
    intro ht
    have hnot : ¬ s.status = .aborted f := notAborted_of_running hs f
    rcases memStage_cases h with ⟨-, rfl⟩ | ⟨e, es, hq, ⟨g, rfl, hg⟩ | ⟨a, -, -, -, rfl⟩ | ⟨a, -, -, -, -, rfl⟩⟩
    · exact absurd ht hnot
    · obtain ⟨hclass, hcached⟩ := hfits e (by simp [hq])
      obtain rfl : g = f := Status.aborted.inj ht
      rcases hg with ⟨-, hno | hno⟩ | ⟨a, rfl, hc, -, ha⟩ | ⟨-, -, hfull, -⟩
      · cases hno.symm.trans hclass
      · simp [hno] at hcached
      · exact ⟨e, a, by simp [hq], hc, ha, rfl⟩
      · simp [hroom] at hfull
    · exact absurd ht hnot
    · exact absurd ht hnot
  case mpr =>
    rintro ⟨⟨r, c⟩, a, hhead, rfl, ha, rfl⟩
    obtain ⟨es, hq⟩ := List.head?_eq_some_iff.mp hhead
    obtain ⟨hclass, -⟩ := hfits _ (List.mem_of_head? hhead)
    obtain rfl := Outcome.next.inj ((memStage_of_invalid hq hclass ha).symm.trans h)
    rfl

/-! ## A cycle that MEM cuts short (R248, R343, R350) -/

theorem thenIfRunning_of_not_running {u : State} {f : State → Outcome State Fault Refusal} (h : u.status ≠ .running) :
    thenIfRunning (.next u) f = .next u := by
  simp [thenIfRunning, h]

/-- A cycle that MEM cuts short ends in what MEM left (R350). -/
theorem step_of_memStage_raises {s u v : State} (hs : s.status = .running)
    (hu : writebackStage (beginCycle s) = .next u) (hur : u.status = .running) (hv : memStage u = .next v)
    (hvn : v.status ≠ .running) : step s = .next (rest v) := by
  have hback : backEnd (beginCycle s) = .next v := by
    rw [backEnd, hu, thenIfRunning_of_running hur, hv, thenIfRunning_of_not_running hvn,
      thenIfRunning_of_not_running hvn]
  rw [step_eq_endOfCycle hs hback, if_neg hvn]

/-- Settles O45: behind Writeback, MEM raises and ends the cycle; what it left untouched is as the cycle found it. -/
theorem badAddressAbortsTheCycleAtMem : Obligations.BadAddressAbortsTheCycleAtMem := by
  intro s r a es hs hclasses hq ha
  obtain ⟨u, hu⟩ := writebackStage_next (beginCycle s)
  have hfinds := memFinds_of_writeback hs hclasses hu
  have hmemory : recordIsMemory r = true := by
    obtain ⟨-, -, -, hpreMEM, -⟩ := hclasses
    obtain ⟨hr, -⟩ := hpreMEM ⟨r, some a⟩ (by simp [hq])
    exact hr
  have hv := memStage_of_invalid (hfinds.preMEM.trans hq) hmemory ((hfinds.valid a).trans ha)
  have hstep := step_of_memStage_raises hs hu hfinds.running hv (by simp)
  have hframe := writebackStage_frame hu
  refine ⟨_, hstep, rfl, ?cycle, ?mem, ?pc, ?waiting, ?resolved, ?preIssue, ?preALU, hfinds.postMEM, hfinds.postALU,
    step_of_not_running (by simp)⟩
  all_goals
    rw [hframe]
    rfl

/-! ## What ALU and Fetch do not raise (R341, R342) -/

theorem memStage_pops {s t : State} (h : memStage s = .next t) : t.preMEM.entries = s.preMEM.entries.tail := by
  rcases memStage_cases h with ⟨hnil, rfl⟩ | ⟨e, es, hq, ⟨f, rfl, -⟩ | ⟨a, -, -, -, rfl⟩ | ⟨a, -, -, -, -, rfl⟩⟩
  · rw [hnil, List.tail_nil]
  all_goals
    rw [hq]
    rfl

/-- With its classes in PreALU and room behind it, ALU raises nothing. -/
theorem aluStage_status_of_room {s t : State} (hfits : ∀ e ∈ s.preALU.entries, entryFits .preALU e)
    (hmem : s.preMEM.entries = []) (halu : s.postALU.entries = []) (h : aluStage s = .next t) :
    t.status = s.status := by
  rcases aluStage_cases h with ⟨-, rfl⟩ | ⟨e, es, hq, ⟨f, -, hf⟩ | ⟨-, -, rfl⟩ | ⟨-, -, -, rfl⟩⟩
  · rfl
  · obtain ⟨hclass, -⟩ := hfits e (by simp [hq])
    rcases hf with ⟨-, hno⟩ | ⟨-, -, hfull⟩ | ⟨-, -, hfull⟩
    · cases hno.symm.trans hclass
    · simp [hmem] at hfull
    · simp [halu] at hfull
  · rfl
  · rfl

/-- The executable region of a loaded program holds no DATA record (R401). -/
theorem ProgramLoaded.not_data_of_inExec {s : State} (h : ProgramLoaded s) {a : Word} {r : Record}
    (hin : inExec s a = true) (hat : recordAt s a = some r) : recordIsData r = false := by
  obtain ⟨-, -, -, hexec, -⟩ := h
  obtain ⟨hfrom, hto⟩ := inExec_iff.mp hin
  refine hexec r (List.mem_of_getElem? (i := (a.toNat - s.instrBase.toNat) / 4) ?_)
  rw [List.getElem?_take_of_lt (by unfold dataBase at hto; omega)]
  exact hat

theorem FetchRun.status_of_programLoaded {slots : List FetchSlot} {fd : Option RegIdx} {s t : State}
    (h : FetchRun slots fd s t) (hl : ProgramLoaded s) : t.status = s.status := by
  induction h with
  | used | outside | full | wait | resolve => rfl
  | push _ _ _ _ _ ih => exact ih hl
  | pass _ _ _ _ ih => exact ih hl
  | fault hin hat hdata => cases (hl.not_data_of_inExec hin hat).symm.trans hdata

/-! ## The faults of a cycle (R340 to R343, R415) -/

theorem tail_eq_nil_of_length_le_one {es : List Entry} (h : es.length ≤ 1) : es.tail = [] :=
  List.eq_nil_of_length_eq_zero (by rw [List.length_tail]; omega)

section
variable {s u v w : State} (hs : s.status = .running) (hbounds : QueuesBounded s) (hclasses : QueuesHoldTheirClasses s)
  (hu : writebackStage (beginCycle s) = .next u) (hv : memStage u = .next v)
include hs hbounds hclasses hu hv

/-- MEM of a cycle has the address fault and no other: behind Writeback PostMEM is empty. -/
theorem memStage_aborted_iff_memFault {f : Fault} : v.status = .aborted f ↔ MemFault s f := by
  have hfinds := memFinds_of_writeback hs hclasses hu
  obtain ⟨-, -, -, hpreMEM, -⟩ := hclasses
  obtain ⟨-, -, -, -, hpostMEM⟩ := hbounds
  rw [← hfinds.memFault_iff]
  refine memStage_aborted_iff hfinds.running ?_ (hfinds.postMEM.trans (tail_eq_nil_of_length_le_one hpostMEM)) hv
  rw [hfinds.preMEM]
  exact hpreMEM

/-- ALU of a cycle raises nothing: MEM has emptied PreMEM, and Writeback PostALU. -/
theorem aluStage_status_of_memStage (hw : aluStage v = .next w) : w.status = v.status := by
  have hfinds := memFinds_of_writeback hs hclasses hu
  obtain ⟨-, hpreALU, -⟩ := hclasses
  obtain ⟨-, -, hpostALU, hpreMEM, -⟩ := hbounds
  refine aluStage_status_of_room ?fits ?preMEM ?postALU hw
  case fits =>
    rw [memStage_frame hv, writebackStage_frame hu]
    exact hpreALU
  case preMEM => rw [memStage_pops hv, hfinds.preMEM, tail_eq_nil_of_length_le_one hpreMEM]
  case postALU =>
    rw [memStage_frame hv]
    exact hfinds.postALU.trans (tail_eq_nil_of_length_le_one hpostALU)

end

theorem notAborted_terminationTest {s : State} (hs : s.status = .running) : NotAborted (terminationTest s) := by
  unfold terminationTest
  split
  · exact notAborted_of_running hs
  · exact fun _ hf => nomatch hf

/-- Only MEM ends a cycle of the invariant early. -/
theorem CycleEnd.aborted_iff_memFault {s t : State} {f : Fault} (h : CycleEnd s t) (hs : s.status = .running)
    (hbounds : QueuesBounded s) (hclasses : QueuesHoldTheirClasses s) (hl : ProgramLoaded s) :
    t.status = .aborted f ↔ MemFault s f := by
  cases h with
  | writeback hu hn _ => exact absurd (memFinds_of_writeback hs hclasses hu).running hn
  | mem hu _ hv _ e => exact e ▸ memStage_aborted_iff_memFault hs hbounds hclasses hu hv
  | alu hu _ hv hvr hw hn _ => exact absurd ((aluStage_status_of_memStage hs hbounds hclasses hu hv hw).trans hvr) hn
  | issue _ _ _ _ _ hwr ha hn _ => exact absurd ((issueStage_status hwr ha).trans hwr) hn
  | @fetch _ _ _ a _ _ hu _ hv _ hw hwr ha har hb hn _ =>
    have hloaded : ProgramLoaded a := by
      rw [issueStage_frame hwr ha, aluStage_frame hw, memStage_frame hv, writebackStage_frame hu]
      exact hl
    exact absurd (((fetchStage_run har hb).status_of_programLoaded hloaded).trans har) hn
  | complete hu _ hv hvr _ _ _ _ _ hbr e =>
    subst e
    rw [← memStage_aborted_iff_memFault hs hbounds hclasses hu hv]
    exact iff_of_false (notAborted_terminationTest hbr f) (notAborted_of_running hvr f)

/-- Settles O55: the iff is MEM's own, at the PreMEM that the cycle began with. -/
theorem abortsExactlyOnABadAddress : Obligations.AbortsExactlyOnABadAddress := by
  rintro s t f ⟨hbounds, hclasses, -, hl, -⟩ hs h
  rcases step_cases h with ⟨hn, -⟩ | ⟨-, u, hcycle, rfl⟩
  · exact absurd hs hn
  · exact hcycle.aborted_iff_memFault hs hbounds hclasses hl

end Sys2Proof.Machine
end

section
/-!
PROOFS. Load and reset (O9, O10, O11, O13, O42). Three facts carry them: the k-th record is the decoded k-th word inside
the executable region and its DATA record behind it; the executable region ends behind the first BREAK or with the
program; and the records lie a word apart, so each data word survives the words loaded after it.
-/

open Sys2Proof Sys2Proof.Machine Sys2Proof.Statements

namespace Sys2Proof.Machine

/-! ## The k-th record (R31, R401) -/

theorem isBreak_iff {r : Record} : isBreak r = true ↔ r.body = .instr .brk := beq_iff_eq

theorem address_step (a : Word) (k : Nat) : a + 4#32 + BitVec.ofNat 32 (4 * k) = a + BitVec.ofNat 32 (4 * (k + 1)) := by
  bv_omega

theorem getElem?_loadData {a : Word} {ws : List Word} {k : Nat} {w : Word} (h : ws[k]? = some w) :
    (loadData a ws)[k]? = some ⟨a + BitVec.ofNat 32 (4 * k), .data w⟩ := by
  induction ws generalizing a k with
  | nil => cases h
  | cons w' ws ih =>
    cases k with
    | zero =>
      obtain rfl : w' = w := Option.some.inj h
      simp [loadData]
    | succ k => rw [← address_step]; exact ih h

/-- Decoding mode and data-loading mode meet at `NEXEC`. -/
theorem getElem?_loadRecords (decoder : Decoder) {a : Word} {ws : List Word} {k : Nat} {w : Word}
    (h : ws[k]? = some w) :
    (loadRecords decoder a ws)[k]? = some
      (if k < nexecOf (loadRecords decoder a ws) then decoder w (a + BitVec.ofNat 32 (4 * k))
       else ⟨a + BitVec.ofNat 32 (4 * k), .data w⟩) := by
  induction ws generalizing a k with
  | nil => cases h
  | cons w' ws ih =>
    cases hb : isBreak (decoder w' a) <;> cases k
    case true.zero | false.zero =>
      obtain rfl : w' = w := Option.some.inj h
      simp [loadRecords, nexecOf, hb]
    case true.succ k =>
      simpa [loadRecords, nexecOf, hb, address_step] using getElem?_loadData (a := a + 4#32) (k := k) h
    case false.succ k =>
      simpa [loadRecords, nexecOf, hb, address_step] using ih (a := a + 4#32) (k := k) h

/-! ## Where the executable region ends (R11, R401) -/

/-- The executable records are all of them, or they end in a BREAK. -/
theorem nexecOf_eq_length_or_break (rs : List Record) :
    nexecOf rs = rs.length ∨ ∃ k r, nexecOf rs = k + 1 ∧ rs[k]? = some r ∧ isBreak r = true := by
  induction rs with
  | nil => exact .inl rfl
  | cons r rs ih =>
    rw [nexecOf]
    split
    next hb => exact .inr ⟨0, r, rfl, rfl, hb⟩
    next =>
      rcases ih with hall | ⟨k, r', hn, hk, hb⟩
      · exact .inl (by rw [hall, List.length_cons])
      · exact .inr ⟨k + 1, r', by rw [hn], hk, hb⟩

section
variable {decoder : Decoder} {base : Word} {program : List Word} {k : Nat}

/-- Inside the executable region the words that decode to BREAK are the BREAK records. -/
theorem breakAt_iff_isBreak (h : k < nexecOf (loadRecords decoder base program)) :
    breakAt decoder base program k ↔
      ∃ r, (loadRecords decoder base program)[k]? = some r ∧ isBreak r = true := by
  have hlen : k < program.length := by
    have hle := nexecOf_le_length (loadRecords decoder base program)
    rw [length_loadRecords] at hle
    omega
  have hw : program[k]? = some program[k] := List.getElem?_eq_getElem hlen
  rw [breakAt, getElem?_loadRecords decoder hw, if_pos h, hw]
  simp [isBreak_iff]

variable (decoder base program) in
theorem nexecOf_loadRecords_cases :
    nexecOf (loadRecords decoder base program) = program.length ∨
      ∃ k, nexecOf (loadRecords decoder base program) = k + 1 ∧ breakAt decoder base program k := by
  rcases nexecOf_eq_length_or_break (loadRecords decoder base program) with hall | ⟨k, r, hn, hk⟩
  · exact .inl (by rw [hall, length_loadRecords])
  · exact .inr ⟨k, hn, (breakAt_iff_isBreak (by omega)).mpr ⟨r, hk⟩⟩

theorem nexecOf_loadRecords_of_no_break (h : ∀ k, ¬breakAt decoder base program k) :
    nexecOf (loadRecords decoder base program) = program.length := by
  rcases nexecOf_loadRecords_cases decoder base program with hall | ⟨k, -, hbreak⟩
  · exact hall
  · exact absurd hbreak (h k)

theorem nexecOf_loadRecords_of_firstBreakAt (h : firstBreakAt decoder base program k) :
    nexecOf (loadRecords decoder base program) = k + 1 := by
  obtain ⟨hbreak, hfirst⟩ := h
  have hexec : k < nexecOf (loadRecords decoder base program) := by
    rcases nexecOf_loadRecords_cases decoder base program with hall | ⟨j, hn, hj⟩
    · obtain ⟨w, hw, -⟩ := hbreak
      obtain ⟨hlt, -⟩ := List.getElem?_eq_some_iff.mp hw
      omega
    · have : ¬j < k := fun hjk => hfirst j hjk hj
      omega
  obtain ⟨r, hk, hb⟩ := (breakAt_iff_isBreak hexec).mp hbreak
  exact nexecOf_eq_of_break hk hb hexec

end

/-! ## The data words (R62, R401) -/

/-- The records of a loaded program lie a word apart, in their order. -/
theorem ProgramLoaded.pairwise_apart {s : State} (h : ProgramLoaded s) :
    s.imem.Pairwise (fun r r' => r.address.toNat + 4 ≤ r'.address.toNat) := by
  rw [List.pairwise_iff_getElem]
  intro i j hi hj hij
  rw [h.toNat_address (List.getElem?_eq_getElem hi), h.toNat_address (List.getElem?_eq_getElem hj)]
  omega

/-- Records behind a word leave it alone. -/
theorem readWord_loadMemory_of_before {rs : List Record} {b : Nat} (h : ∀ r ∈ rs, b + 4 ≤ r.address.toNat)
    (m : Memory) : Memory.readWord (loadMemory m rs) b = Memory.readWord m b := by
  induction rs generalizing m with
  | nil => rfl
  | cons r rs ih =>
    obtain ⟨hr, hrs⟩ := List.forall_mem_cons.mp h
    unfold loadMemory
    split
    · rw [ih hrs, Memory.readWord_writeWord_apart m _ (.inl hr)]
    · exact ih hrs m
    · exact ih hrs m

/-- A DATA record's value stands at its address. -/
theorem readWord_loadMemory_of_data {rs : List Record}
    (hrs : rs.Pairwise (fun r r' => r.address.toNat + 4 ≤ r'.address.toNat)) {r : Record} (hr : r ∈ rs) {v : Word}
    (hv : r.body = .data v) {m : Memory} (hm : Memory.wf m = true) :
    Memory.readWord (loadMemory m rs) r.address.toNat = v := by
  induction rs generalizing m with
  | nil => cases hr
  | cons r' rs ih =>
    obtain ⟨hbehind, hrs⟩ := List.pairwise_cons.mp hrs
    rcases List.mem_cons.mp hr with rfl | hr
    · simp only [loadMemory, hv]
      rw [readWord_loadMemory_of_before hbehind, Memory.readWord_writeWord_same hm]
    · unfold loadMemory
      split
      · exact ih hrs hr (Memory.wf_writeWord hm _ _)
      · exact ih hrs hr hm
      · exact ih hrs hr hm

/-! ## The loaded state, component by component (R380, R390) -/

section
variable {decoder : Decoder} {base : Word} {program : List Word}

theorem loadedState_imem : (loadedState decoder base program).imem = loadRecords decoder base program := rfl

theorem ndata_loadedState : ndata (loadedState decoder base program) =
    program.length - nexecOf (loadedState decoder base program).imem := by
  rw [ndata, loadedState_imem, length_loadRecords]

theorem dmemWord_loadedState (hd : wellFormedDecoder decoder) (hdom : inDomain base program) {j : Nat} {w : Word}
    (hw : program[nexecOf (loadedState decoder base program).imem + j]? = some w) :
    dmemWord (loadedState decoder base program) j = w := by
  have hloaded := loadedState_programLoaded hd hdom
  have hk := getElem?_loadRecords decoder (a := base) hw
  rw [← loadedState_imem, if_neg (by omega)] at hk
  have haddr := hloaded.toNat_address hk
  have hbase : dataBase (loadedState decoder base program) + 4 * j =
      (loadedState decoder base program).instrBase.toNat +
        4 * (nexecOf (loadedState decoder base program).imem + j) := by
    unfold dataBase
    omega
  rw [dmemWord, hbase, ← haddr]
  exact readWord_loadMemory_of_data hloaded.pairwise_apart (List.mem_of_getElem? hk) rfl rfl

theorem dmemWords_loadedState (hd : wellFormedDecoder decoder) (hdom : inDomain base program) :
    dmemWords (loadedState decoder base program) =
      program.drop (nexecOf (loadedState decoder base program).imem) := by
  refine List.ext_getElem (by simp [dmemWords, ndata_loadedState]) fun j hj hj' => ?_
  have hdata : dmemWord (loadedState decoder base program) j =
      (program.drop (nexecOf (loadedState decoder base program).imem))[j] :=
    dmemWord_loadedState hd hdom (by rw [← List.getElem?_drop, List.getElem?_eq_getElem hj'])
  simpa [dmemWords] using hdata

theorem readReg_loadedState (r : RegIdx) : readReg (loadedState decoder base program) r = 0#32 := by
  simp [loadedState, State.reset, readReg]

theorem slotOf_rrtc_loadedState (r : RegIdx) : slotOf (loadedState decoder base program).rrtc r = none :=
  slotOf_rrtn_loadedState decoder base program r

/-- `InExec(INSTR_BASE)` says that there is an executable record. -/
theorem inExec_base_loadedState : inExec (loadedState decoder base program) base = true ↔
    0 < nexecOf (loadedState decoder base program).imem := by
  have hbase : (loadedState decoder base program).instrBase = base := rfl
  rw [inExec_iff, dataBase, hbase]
  omega

theorem loadedState_running (h : 0 < nexecOf (loadedState decoder base program).imem) :
    (loadedState decoder base program).status = .running := by
  rw [loadedState_status, if_pos (inExec_base_loadedState.mpr h)]

theorem loadedState_terminated (h : nexecOf (loadedState decoder base program).imem = 0) :
    (loadedState decoder base program).status = .terminated := by
  rw [loadedState_status, if_neg (by rw [inExec_base_loadedState]; omega)]

end

/-! ## The statements about load, reset and the program -/

/-- Settles O9: the records by position, the end of the executable region by its first BREAK, and each data word by the
one DATA record at its address. -/
theorem programLoadFollowsTheTwoModes : Obligations.ProgramLoadFollowsTheTwoModes :=
  fun decoder base program hd hdom =>
    ⟨loadedState decoder base program, loadProgram_of_inDomain decoder hdom, length_loadRecords decoder base program,
      fun _ => nexecOf_loadRecords_of_firstBreakAt, nexecOf_loadRecords_of_no_break,
      fun _ _ => getElem?_loadRecords decoder, rfl, ndata_loadedState, fun _ _ => dmemWord_loadedState hd hdom⟩

/-- Settles O10: the loaded state is the tabled reset state but for the program, the data words and `status`. -/
theorem resetLeavesTheTabledValues : Obligations.ResetLeavesTheTabledValues :=
  fun decoder base program hd hdom =>
    ⟨loadedState decoder base program, loadProgram_of_inDomain decoder hdom, rfl, rfl, readReg_loadedState,
      dmemWords_loadedState hd hdom, loadedState_imem, rfl, rfl, rfl, rfl, rfl, rfl,
      fun r => ⟨slotOf_rrtc_loadedState r, slotOf_rrtn_loadedState decoder base program r⟩, rfl, rfl, rfl,
      loadedState_running, loadedState_terminated⟩

/-- Settles O11: without a record the executable region is empty, so the machine is TERMINATED from reset on. -/
theorem emptyProgramRunsNoCycle : Obligations.EmptyProgramRunsNoCycle := by
  intro decoder base halign
  have hdom : inDomain base [] := ⟨halign, by simpa using base.isLt.le⟩
  have hover : (loadedState decoder base []).status = .terminated := loadedState_terminated rfl
  exact ⟨_, loadProgram_of_inDomain decoder hdom, rfl, hover, step_of_not_running (by simp [hover])⟩

/-- Settles O13: `State.reset` is the load of the empty program at the reference base, and every load meets the
invariant (O12). -/
theorem resetMeetsTheInvariant : Obligations.ResetMeetsTheInvariant := by
  have hdom : inDomain Config.instrBase [] := by unfold inDomain; decide
  have hload := reset_eq_loadProgram_nil decodeRecord
  rw [loadProgram_of_inDomain decodeRecord hdom] at hload
  rw [Obligations.ResetMeetsTheInvariant, ← Option.some.inj hload]
  exact loadedState_coreInvariant wellFormedDecoder_decodeRecord hdom

/-- Settles O42: a cycle leaves the program where it stands, a machine that is over does nothing, and the regions depend
on the program and its base only. -/
theorem programNeverChanges : Obligations.ProgramNeverChanges := by
  intro s t h
  obtain ⟨himem, hbase⟩ : t.imem = s.imem ∧ t.instrBase = s.instrBase := by
    by_cases hs : s.status = .running
    · exact (step_cycle_and_program hs h).2
    · rw [step_of_not_running hs] at h
      cases h
      exact ⟨rfl, rfl⟩
  exact ⟨himem, hbase, by rw [dataBase, dataBase, himem, hbase], by rw [ndata, ndata, himem]⟩

end Sys2Proof.Machine
end
